-- ==== Sys2Proof/Word.lean ====
section
/-! DEFINITION. The word types of the block (spec/00_scope.md R7, R8): a byte is 8 bits, a half 16, a word 32
and a double word 64, bit 0 being the least significant. Bit-field and byte-order helpers stand in
Sys2Proof/Machine/Bits.lean. -/

namespace Sys2Proof

/-- A byte of BUF, an immediate B or a data byte (R8). -/
abbrev Byte := BitVec 8

/-- A 16-bit immediate H or an operand slice (R12, R72). -/
abbrev Half := BitVec 16

/-- A command word, CFG, CRC_REG, a key or a chaining word (R7). -/
abbrev Word := BitVec 32

/-- A host operand register or a message length counter (R7). -/
abbrev DWord := BitVec 64

end Sys2Proof
end

