-- ==== Sys2Proof/Syntax.lean ====
section
/-! DEFINITION. The commands of the block: one constructor for each of the 38 rows of spec/opcode_table.json
(spec/30_encoding.md R75), with the immediates of its command word. Operands that come from A0 and A1 are no part of
the syntax: a command reads them from the state when it executes (R73, R296). -/

namespace Sys2Proof

/-- TD.WC of R74: the width of an integer field. -/
inductive FieldWidth where
  | w8
  | w16
  | w32
  | w64
deriving DecidableEq, Repr

/-- TD.E of R74: the byte order of a field. -/
inductive FieldOrder where
  | native
  | little
  | big
  | dual
deriving DecidableEq, Repr

/-- TD.P of R74: what a decode does with a dual field whose copies differ; 3 is reserved. -/
inductive DualPolicy where
  | requireMatch
  | preferLittle
  | preferBig
  | reserved
deriving DecidableEq, Repr

/-- The field descriptor TD of R74, field by field. `top` is TD[7], which must be 0 in a legal descriptor. -/
structure FieldDesc where
  width : FieldWidth
  signed : Bool
  order : FieldOrder
  policy : DualPolicy
  top : Bool
deriving DecidableEq, Repr

/-- The commands of R75, in the table's order. -/
inductive Instr where
  | nop
  | setCfg
  | getCfg
  | clrErr
  | sreset
  | ident
  | scDec (td : FieldDesc) (off : Half)
  | scEnc (td : FieldDesc) (off : Half)
  | scAdec (off : Half)
  | scAenc (off : Half)
  | md5Reset
  | md5Byte (b : Byte)
  | md5Buf
  | md5Final
  | sha1Reset
  | sha1Byte (b : Byte)
  | sha1Buf
  | sha1Final
  | crcInit
  | crcLoad
  | crcByte (b : Byte)
  | crcBuf
  | crcRead
  | crcRaw
  | crcCheck
  | lzComp
  | lzDecomp
  | hufLoad
  | hufDecode
  | hufCode (sym : Half)
  | zcInit
  | zcPwByte (b : Byte)
  | zcPwBuf
  | zcEnc
  | zcDec
  | zcHdrChk (check : Byte)
  | zcKey (idx : Byte)
  | zcKsb
deriving DecidableEq, Repr

end Sys2Proof
end

