-- ==== Sys2Proof/WellFormed.lean ====
section
/-! DEFINITION. Which commands carry legal immediates: the "illegal value of a used field" of spec/30_encoding.md
R77 is an illegal TD (R74) or a ZC_KEY index above 2. An ill-formed command still decodes (its word matches its row,
R78) and still executes: it raises IllegalCommand, which its meaning says (Sys2Proof/Machine/Struct.lean,
Sys2Proof/Machine/Pkware.lean). -/

namespace Sys2Proof

/-- R74: TD[7] must be 0. -/
def FieldDesc.topClear (td : FieldDesc) : Bool := !td.top

/-- R74: policy 3 is reserved. -/
def FieldDesc.policyAssigned (td : FieldDesc) : Bool := decide (td.policy ≠ .reserved)

/-- R74: a field that is not dual has policy 0. -/
def FieldDesc.policyOnlyDual (td : FieldDesc) : Bool :=
  decide (td.order = .dual) || decide (td.policy = .requireMatch)

/-- R74: a dual 8-bit field is not defined. -/
def FieldDesc.dualWide (td : FieldDesc) : Bool :=
  !(decide (td.order = .dual) && decide (td.width = .w8))

/-- The legal field descriptors of R74. -/
def FieldDesc.wellFormed (td : FieldDesc) : Bool :=
  td.topClear && td.policyAssigned && td.policyOnlyDual && td.dualWide

/-- R77: every immediate a command uses has a legal value. -/
def Instr.wellFormed : Instr → Bool
  | .nop => true
  | .setCfg => true
  | .getCfg => true
  | .clrErr => true
  | .sreset => true
  | .ident => true
  | .scDec td _ => td.wellFormed
  | .scEnc td _ => td.wellFormed
  | .scAdec _ => true
  | .scAenc _ => true
  | .md5Reset => true
  | .md5Byte _ => true
  | .md5Buf => true
  | .md5Final => true
  | .sha1Reset => true
  | .sha1Byte _ => true
  | .sha1Buf => true
  | .sha1Final => true
  | .crcInit => true
  | .crcLoad => true
  | .crcByte _ => true
  | .crcBuf => true
  | .crcRead => true
  | .crcRaw => true
  | .crcCheck => true
  | .lzComp => true
  | .lzDecomp => true
  | .hufLoad => true
  | .hufDecode => true
  | .hufCode _ => true
  | .zcInit => true
  | .zcPwByte _ => true
  | .zcPwBuf => true
  | .zcEnc => true
  | .zcDec => true
  | .zcHdrChk _ => true
  | .zcKey idx => decide (idx.toNat ≤ 2)
  | .zcKsb => true

end Sys2Proof
end

