-- ==== Sys2Proof/Decode.lean ====
section
/-! DEFINITION. Command words (spec/30_encoding.md): the decoder of R78, total on every 32-bit word and rejecting by
name, and after it the encoder, written from the same map R75. The map is `opcodeRow`; the format is R70. -/

namespace Sys2Proof

/-- Why a word spells no command. Executing such a word raises IllegalCommand (R76, R77). -/
inductive DecodeError where
  /-- R76: the opcode byte has no row in R75. -/
  | unassignedOpcode
  /-- R77: the row marks B as must-be-zero and the word's B is not 0. -/
  | nonZeroB
  /-- R77: the row marks H as must-be-zero and the word's H is not 0. -/
  | nonZeroH
deriving DecidableEq, Repr

/-- A row of R75: which immediates it uses (the others must be zero), and its command. -/
structure OpcodeRow where
  usesB : Bool
  usesH : Bool
  build : Byte → Half → Instr

/-- R70: the opcode byte `{UNIT, FUNC}`. -/
def wordOpcode (w : Word) : Byte := w.extractLsb' 0 8

/-- R70: the immediate B. -/
def wordB (w : Word) : Byte := w.extractLsb' 8 8

/-- R70: the immediate H. -/
def wordH (w : Word) : Half := w.extractLsb' 16 16

/-- TD.WC of R74. -/
def decodeWidth (v : BitVec 2) : FieldWidth :=
  match v with
  | 0#2 => .w8
  | 1#2 => .w16
  | 2#2 => .w32
  | 3#2 => .w64

/-- TD.E of R74. -/
def decodeOrder (v : BitVec 2) : FieldOrder :=
  match v with
  | 0#2 => .native
  | 1#2 => .little
  | 2#2 => .big
  | 3#2 => .dual

/-- TD.P of R74. -/
def decodePolicy (v : BitVec 2) : DualPolicy :=
  match v with
  | 0#2 => .requireMatch
  | 1#2 => .preferLittle
  | 2#2 => .preferBig
  | 3#2 => .reserved

/-- The field descriptor that B spells (R74); its legality is the command's first check. -/
def decodeTd (b : Byte) : FieldDesc where
  width := decodeWidth (b.extractLsb' 0 2)
  signed := b.getLsbD 2
  order := decodeOrder (b.extractLsb' 3 2)
  policy := decodePolicy (b.extractLsb' 5 2)
  top := b.getLsbD 7

/-- The opcode map R75, by opcode byte. -/
def opcodeRow (op : Byte) : Option OpcodeRow :=
  match op with
  | 0x00#8 => some ⟨false, false, fun _ _ => .nop⟩
  | 0x01#8 => some ⟨false, false, fun _ _ => .setCfg⟩
  | 0x02#8 => some ⟨false, false, fun _ _ => .getCfg⟩
  | 0x03#8 => some ⟨false, false, fun _ _ => .clrErr⟩
  | 0x04#8 => some ⟨false, false, fun _ _ => .sreset⟩
  | 0x05#8 => some ⟨false, false, fun _ _ => .ident⟩
  | 0x10#8 => some ⟨true, true, fun b h => .scDec (decodeTd b) h⟩
  | 0x11#8 => some ⟨true, true, fun b h => .scEnc (decodeTd b) h⟩
  | 0x12#8 => some ⟨false, true, fun _ h => .scAdec h⟩
  | 0x13#8 => some ⟨false, true, fun _ h => .scAenc h⟩
  | 0x20#8 => some ⟨false, false, fun _ _ => .md5Reset⟩
  | 0x21#8 => some ⟨true, false, fun b _ => .md5Byte b⟩
  | 0x22#8 => some ⟨false, false, fun _ _ => .md5Buf⟩
  | 0x23#8 => some ⟨false, false, fun _ _ => .md5Final⟩
  | 0x30#8 => some ⟨false, false, fun _ _ => .sha1Reset⟩
  | 0x31#8 => some ⟨true, false, fun b _ => .sha1Byte b⟩
  | 0x32#8 => some ⟨false, false, fun _ _ => .sha1Buf⟩
  | 0x33#8 => some ⟨false, false, fun _ _ => .sha1Final⟩
  | 0x40#8 => some ⟨false, false, fun _ _ => .crcInit⟩
  | 0x41#8 => some ⟨false, false, fun _ _ => .crcLoad⟩
  | 0x42#8 => some ⟨true, false, fun b _ => .crcByte b⟩
  | 0x43#8 => some ⟨false, false, fun _ _ => .crcBuf⟩
  | 0x44#8 => some ⟨false, false, fun _ _ => .crcRead⟩
  | 0x45#8 => some ⟨false, false, fun _ _ => .crcRaw⟩
  | 0x46#8 => some ⟨false, false, fun _ _ => .crcCheck⟩
  | 0x50#8 => some ⟨false, false, fun _ _ => .lzComp⟩
  | 0x51#8 => some ⟨false, false, fun _ _ => .lzDecomp⟩
  | 0x60#8 => some ⟨false, false, fun _ _ => .hufLoad⟩
  | 0x61#8 => some ⟨false, false, fun _ _ => .hufDecode⟩
  | 0x62#8 => some ⟨false, true, fun _ h => .hufCode h⟩
  | 0x70#8 => some ⟨false, false, fun _ _ => .zcInit⟩
  | 0x71#8 => some ⟨true, false, fun b _ => .zcPwByte b⟩
  | 0x72#8 => some ⟨false, false, fun _ _ => .zcPwBuf⟩
  | 0x73#8 => some ⟨false, false, fun _ _ => .zcEnc⟩
  | 0x74#8 => some ⟨false, false, fun _ _ => .zcDec⟩
  | 0x75#8 => some ⟨true, false, fun b _ => .zcHdrChk b⟩
  | 0x76#8 => some ⟨true, false, fun b _ => .zcKey b⟩
  | 0x77#8 => some ⟨false, false, fun _ _ => .zcKsb⟩
  | _ => none

/-- The decoding procedure R78: find the opcode's row, then apply the must-be-zero rule R77 to B and H. The same
word decodes the same way in every state (R70). -/
def decode (w : Word) : Except DecodeError Instr :=
  match opcodeRow (wordOpcode w) with
  | none => .error .unassignedOpcode
  | some row =>
    if row.usesB = false ∧ wordB w ≠ 0 then .error .nonZeroB
    else if row.usesH = false ∧ wordH w ≠ 0 then .error .nonZeroH
    else .ok (row.build (wordB w) (wordH w))

/-- The command the decoder reads from the low `nbits` bits of `w`, every higher bit being 0: the command word is one
32-bit value, whose least significant byte lies first (R52, R70). -/
def decodeTableWord (nbits w : Nat) : Option Instr :=
  match decode (BitVec.ofNat 32 (w % 2 ^ nbits)) with
  | .ok i => some i
  | .error _ => none

/-! The encoder, from R70, R74 and R75. -/

/-- TD.WC of R74. -/
def encodeWidth : FieldWidth → BitVec 2
  | .w8 => 0
  | .w16 => 1
  | .w32 => 2
  | .w64 => 3

/-- TD.E of R74. -/
def encodeOrder : FieldOrder → BitVec 2
  | .native => 0
  | .little => 1
  | .big => 2
  | .dual => 3

/-- TD.P of R74. -/
def encodePolicy : DualPolicy → BitVec 2
  | .requireMatch => 0
  | .preferLittle => 1
  | .preferBig => 2
  | .reserved => 3

/-- The byte of a field descriptor: `{TD[7], P, E, S, WC}` (R74). -/
def encodeTd (td : FieldDesc) : Byte :=
  BitVec.ofBool td.top ++ encodePolicy td.policy ++ encodeOrder td.order ++ BitVec.ofBool td.signed
    ++ encodeWidth td.width

/-- The opcode byte of a command (R75). -/
def instrOpcode : Instr → Byte
  | .nop => 0x00
  | .setCfg => 0x01
  | .getCfg => 0x02
  | .clrErr => 0x03
  | .sreset => 0x04
  | .ident => 0x05
  | .scDec _ _ => 0x10
  | .scEnc _ _ => 0x11
  | .scAdec _ => 0x12
  | .scAenc _ => 0x13
  | .md5Reset => 0x20
  | .md5Byte _ => 0x21
  | .md5Buf => 0x22
  | .md5Final => 0x23
  | .sha1Reset => 0x30
  | .sha1Byte _ => 0x31
  | .sha1Buf => 0x32
  | .sha1Final => 0x33
  | .crcInit => 0x40
  | .crcLoad => 0x41
  | .crcByte _ => 0x42
  | .crcBuf => 0x43
  | .crcRead => 0x44
  | .crcRaw => 0x45
  | .crcCheck => 0x46
  | .lzComp => 0x50
  | .lzDecomp => 0x51
  | .hufLoad => 0x60
  | .hufDecode => 0x61
  | .hufCode _ => 0x62
  | .zcInit => 0x70
  | .zcPwByte _ => 0x71
  | .zcPwBuf => 0x72
  | .zcEnc => 0x73
  | .zcDec => 0x74
  | .zcHdrChk _ => 0x75
  | .zcKey _ => 0x76
  | .zcKsb => 0x77

/-- The immediate B of a command, 0 where its row marks B must-be-zero (R75). -/
def instrB : Instr → Byte
  | .scDec td _ => encodeTd td
  | .scEnc td _ => encodeTd td
  | .md5Byte b => b
  | .sha1Byte b => b
  | .crcByte b => b
  | .zcPwByte b => b
  | .zcHdrChk check => check
  | .zcKey idx => idx
  | .nop | .setCfg | .getCfg | .clrErr | .sreset | .ident | .scAdec _ | .scAenc _ => 0
  | .md5Reset | .md5Buf | .md5Final | .sha1Reset | .sha1Buf | .sha1Final => 0
  | .crcInit | .crcLoad | .crcBuf | .crcRead | .crcRaw | .crcCheck | .lzComp | .lzDecomp => 0
  | .hufLoad | .hufDecode | .hufCode _ | .zcInit | .zcPwBuf | .zcEnc | .zcDec | .zcKsb => 0

/-- The immediate H of a command, 0 where its row marks H must-be-zero (R75). -/
def instrH : Instr → Half
  | .scDec _ off => off
  | .scEnc _ off => off
  | .scAdec off => off
  | .scAenc off => off
  | .hufCode sym => sym
  | .nop | .setCfg | .getCfg | .clrErr | .sreset | .ident => 0
  | .md5Reset | .md5Byte _ | .md5Buf | .md5Final | .sha1Reset | .sha1Byte _ | .sha1Buf | .sha1Final => 0
  | .crcInit | .crcLoad | .crcByte _ | .crcBuf | .crcRead | .crcRaw | .crcCheck | .lzComp | .lzDecomp => 0
  | .hufLoad | .hufDecode | .zcInit | .zcPwByte _ | .zcPwBuf | .zcEnc | .zcDec | .zcHdrChk _ => 0
  | .zcKey _ | .zcKsb => 0

/-- The command word `{H, B, UNIT, FUNC}` of a command (R70, R79). -/
def encode (i : Instr) : Word := instrH i ++ instrB i ++ instrOpcode i

end Sys2Proof
end

