-- ==== Sys2Proof/Config.lean ====
section
/-! DEFINITION. The implementation parameters of spec/00_scope.md R6, and the two values the spec leaves open:
the native byte order (decision D31, `OPEN`) and what an unwritten byte of BUF holds (spec/10_state.md R36). An
open value is a constant with no body, so that no proof can learn it. -/

namespace Sys2Proof

/-- The two byte orders of R110. -/
inductive ByteOrder where
  | little
  | big
deriving DecidableEq, Repr, Inhabited

/-- `BUF_SIZE` of R6: buffer addresses are 0x0000 to 0xFFFF. -/
def Config.bufSize : Nat := 65536

/-- `WB_MAX` of R6: the largest legal `window_bits`. -/
def Config.wbMax : Nat := 16

/-- `LB_MAX` of R6: the largest legal `length_bits`. -/
def Config.lbMax : Nat := 16

/-- `MAX_CODE_LEN` of R6: the longest Huffman code. -/
def Config.maxCodeLen : Nat := 16

/-- `NSYM_MAX` of R6: the largest Huffman alphabet; `HUF_LEN` has this many entries (R32). -/
def Config.nsymMax : Nat := 65535

/-- `CFG_RESET` of R6: BO = 0, WB = 13, OB = 13, LB = 8. -/
def Config.cfgReset : Word := 0x080D0D00#32

/-- `NATIVE_ENDIAN` of R6, which the spec leaves `OPEN` (D31, I3): the byte order of a struct field declared
native. A free value: it has no body. Assumption log 2. -/
opaque Config.nativeEndian : ByteOrder

/-- What a byte of BUF holds that nothing has written since the last reset (R36, I1): a free draw for each reset
(the first argument counts the resets before it) and each buffer address. It has no body. Assumption log 1. -/
opaque Config.bufDraw : Nat → Nat → Byte

end Sys2Proof
end

