-- ==== Sys2Proof/Machine/State.lean ====
section
/-! DEFINITION. The state of the block (spec/10_state.md), its error classes, the reasons a step gives no next state,
and the state after reset (R40). Everything the spec gives the machine is here; the last three fields of `State` are
the model's own and say so. -/

namespace Sys2Proof.Machine

/-- The error classes of spec/60_exceptions.md R264, in the order of their codes 1 to 7. -/
inductive Err where
  | format
  | integrity
  | codec
  | truncatedInput
  | unsupportedFeature
  | illegalCommand
  | bounds
deriving DecidableEq, Repr

/-- `MD5_H[0..3]` of R29. -/
structure Md5Chain where
  h0 : Word
  h1 : Word
  h2 : Word
  h3 : Word
deriving DecidableEq, Repr

/-- `SHA_H[0..4]` of R30. -/
structure Sha1Chain where
  h0 : Word
  h1 : Word
  h2 : Word
  h3 : Word
  h4 : Word
deriving DecidableEq, Repr

/-- A hash core (R29, R30): its chaining words, the 64-byte block buffer, the number of bytes in it (0 to 63), the
message length in bits modulo 2^64, and the DONE flag. -/
structure HashCore (χ : Type) where
  chain : χ
  blk : Vector Byte 64
  blkLen : Fin 64
  len : DWord
  done : Bool
deriving DecidableEq, Repr

/-- The Huffman decoder's state (R32): `HUF_LEN`, listed from symbol 0, an entry beyond the list being 0; `HUF_NSYM`;
and `HUF_VALID`. The list never outgrows the `NSYM_MAX` entries of `HUF_LEN` (`Inv.hufSize` in Sys2Proof/Safety.lean).
COUNT, FIRST and ORDER are no state: the rules recompute them. -/
structure HufState where
  lens : List Byte
  nsym : Half
  valid : Bool
deriving DecidableEq, Repr

/-- `KEY0`, `KEY1` and `KEY2` of R33. -/
structure ZcKeys where
  key0 : Word
  key1 : Word
  key2 : Word
deriving DecidableEq, Repr

/-- BUF (R35), as the bytes written since the last reset: pairs of a buffer address and its byte, addresses strictly
rising. A byte that is not listed has not been written since the last reset (R36). -/
abbrev Memory := List Host.Cell

/-- What the outside world does to the block, one at a time (R16, R57, R61): the host reads or writes `n` bytes at a
17-bit host offset (R50, R52), or reset is asserted (spec/70_reset_and_hazards.md R290). A write carries its value in
the low `8 * n` bits of `v`. -/
inductive HostEvent where
  | read (off : BitVec 17) (n : Nat)
  | write (off : BitVec 17) (n : Nat) (v : DWord)
  | reset
deriving DecidableEq, Repr

/-- The whole state of the block. STATUS is a view of `err`, `sticky` and the three unit flags (R25), so it is no
field. -/
structure State where
  /-- `CMD` (R22): the last command word the host wrote. -/
  cmd : Word
  /-- `STATUS.ERR` (R25). -/
  err : BitVec 4
  /-- `STATUS.STICKY` (R25): bit k-1 stands for error code k. -/
  sticky : BitVec 7
  /-- `A0` (R23). -/
  a0 : DWord
  /-- `A1` (R23). -/
  a1 : DWord
  /-- `RES` (R24). -/
  res : DWord
  /-- `CFG` (R27). -/
  cfg : Word
  /-- `CRC_REG` (R28). -/
  crcReg : Word
  /-- The MD5 core: `MD5_H`, `MD5_BLK`, `MD5_BLKLEN`, `MD5_LEN`, `MD5_DONE` (R29). -/
  md5 : HashCore Md5Chain
  /-- The SHA-1 core: `SHA_H`, `SHA_BLK`, `SHA_BLKLEN`, `SHA_LEN`, `SHA1_DONE` (R30). -/
  sha : HashCore Sha1Chain
  /-- The Huffman decoder: `HUF_LEN`, `HUF_NSYM`, `HUF_VALID` (R32). -/
  huf : HufState
  /-- The PKWARE keys (R33). -/
  keys : ZcKeys
  /-- `BUF` (R35, R36). -/
  mem : Memory
  /-- The MODEL's own: how many resets came before this one; it selects the free draws of R36. -/
  resets : Nat
  /-- The MODEL's own: the host accesses and resets to come, the next one first. The block fetches nothing (R21): a
  step performs the first of them. -/
  host : List HostEvent
  /-- The MODEL's own: what the host's last read returned, zero-extended. -/
  hostData : DWord
deriving DecidableEq, Repr

/-- The reasons the machine stops with a fault. There are none: every command completes, successfully or with an error
code (spec/60_exceptions.md R260), and no rule halts the block (spec/93_implementation_defined.md, "No item is treated
as stuck"). So no definition raises a fault; the empty type makes that a fact of the model. Safe. -/
inductive Fault where
deriving DecidableEq, Repr

/-- The reasons a step is refused. -/
inductive Refusal where
  /-- Raised by `exec` alone, for a command the model gives no meaning. No arm of this model raises it. Safe. -/
  | notModelled (mnemonic : String)
  /-- Raised by the host interface for an access to offsets 0x00024 to 0x0FFFF (spec/20_memory.md R56): the spec gives
  the host no step and no state changes. Safe. -/
  | reservedOffset
  /-- Raised by the host interface for a write to STATUS, RES or CFG (R56): no step. Safe. -/
  | readOnlyRegister
  /-- Raised by the host interface for an access whose width or alignment R54 does not allow: no step. Safe. -/
  | widthOrAlignment
deriving DecidableEq, Repr

/-- The chaining words a new MD5 message starts from (R29). -/
def md5Seed : Md5Chain := ⟨0x67452301, 0xEFCDAB89, 0x98BADCFE, 0x10325476⟩

/-- The chaining words a new SHA-1 message starts from (R30). -/
def sha1Seed : Sha1Chain := ⟨0x67452301, 0xEFCDAB89, 0x98BADCFE, 0x10325476, 0xC3D2E1F0⟩

/-- A hash core at reset (R29, R30, R40). The spec leaves the block buffer's bytes unspecified; they are 0 here
(DESIGN CHOICE, assumption log 3): no rule reads a byte of it that has not been written. -/
def HashCore.atReset {χ : Type} (seed : χ) : HashCore χ where
  chain := seed
  blk := Vector.replicate 64 0
  blkLen := 0
  len := 0
  done := false

/-- The Huffman decoder at reset (R32, R40): every `HUF_LEN` entry is 0. -/
def HufState.atReset : HufState := ⟨[], 0, false⟩

/-- The keys at reset (R33, R40), which ZC_INIT loads too. -/
def ZcKeys.atReset : ZcKeys := ⟨0x12345678, 0x23456789, 0x34567890⟩

/-- The state after reset (R40, R290). BUF lists nothing, so that each of its bytes is a free draw. No host event is
pending: a program is what the host does to the block, and comes from outside (assumption log 4). -/
def State.reset : State where
  cmd := 0
  err := 0
  sticky := 0
  a0 := 0
  a1 := 0
  res := 0
  cfg := Config.cfgReset
  crcReg := 0xFFFFFFFF
  md5 := HashCore.atReset md5Seed
  sha := HashCore.atReset sha1Seed
  huf := HufState.atReset
  keys := ZcKeys.atReset
  mem := []
  resets := 0
  host := []
  hostData := 0

end Sys2Proof.Machine
end

