-- ==== Sys2Proof/Machine/Flags.lean ====
section
/-! DEFINITION. The block's condition flags are the fields of STATUS (spec/10_state.md R25, R26): the error codes
(spec/60_exceptions.md R264), the sticky bits, and STATUS as the view the host reads. -/

namespace Sys2Proof.Machine

/-- The error codes of R264; 0 is success, and 8 to 15 are never written. -/
def errCode : Err → BitVec 4
  | .format => 1
  | .integrity => 2
  | .codec => 3
  | .truncatedInput => 4
  | .unsupportedFeature => 5
  | .illegalCommand => 6
  | .bounds => 7

/-- The STICKY bit of an error: bit `e - 1` of the field for code `e` (R265, R267). -/
def stickyBit (e : Err) : BitVec 7 := 1#7 <<< ((errCode e).toNat - 1)

/-- STATUS (R25): ERR in [3:0], STICKY in [14:8], MD5_DONE in [16], SHA1_DONE in [17], HUF_VALID in [18], and 0 in
every reserved bit. -/
def statusWord (s : State) : Word :=
  0#13 ++ BitVec.ofBool s.huf.valid ++ BitVec.ofBool s.sha.done ++ BitVec.ofBool s.md5.done ++ 0#1 ++ s.sticky ++ 0#4
    ++ s.err

end Sys2Proof.Machine
end

