-- ==== Sys2Proof/Machine/Bits.lean ====
section
/-! DEFINITION. The notation of spec/00_scope.md R9 and R10: rotation, extension, and the byte orders LE and BE with
their inverses. Byte sequences are lists, the first byte first. -/

namespace Sys2Proof.Machine

/-- `ROTL32(x, n)` of R9, for 0 < n < 32. -/
def rotl32 (x : Word) (n : Nat) : Word := (x <<< n) ||| (x >>> (32 - n))

/-- `sext_w(u)` of R9, to 64 bits: the low `w` bits of `u` taken as two's complement. -/
def sext64 (w u : Nat) : DWord := (BitVec.ofNat w u).signExtend 64

/-- `zext(u)` of R9, to 64 bits, for a value below 2^64. -/
def zext64 (u : Nat) : DWord := BitVec.ofNat 64 u

/-- `{hi[31:0], lo[31:0]}` of R9: two 32-bit fields, `hi` in bits [63:32]. -/
def pair32 (hi lo : Nat) : DWord := BitVec.ofNat 32 hi ++ BitVec.ofNat 32 lo

/-- `LE(s)` of R10: the first byte is the least significant. -/
def leNat : List Byte → Nat
  | [] => 0
  | b :: bs => b.toNat + 256 * leNat bs

/-- `BE(s)` of R10: the first byte is the most significant. -/
def beNat (bs : List Byte) : Nat := leNat bs.reverse

/-- `bytesLE(v, n)` of R10. -/
def bytesLE (v : Nat) : Nat → List Byte
  | 0 => []
  | n + 1 => BitVec.ofNat 8 v :: bytesLE (v / 256) n

/-- `bytesBE(v, n)` of R10. -/
def bytesBE (v n : Nat) : List Byte := (bytesLE v n).reverse

/-- The 32-bit words of a byte sequence, four bytes a word, each read by `order` (R130 reads `LE`, R150 `BE`). -/
def wordsOf (order : List Byte → Nat) : List Byte → List Word
  | b0 :: b1 :: b2 :: b3 :: bs => BitVec.ofNat 32 (order [b0, b1, b2, b3]) :: wordsOf order bs
  | _ => []

end Sys2Proof.Machine
end

