-- ==== Sys2Proof/Machine/Operands.lean ====
section
/-! DEFINITION. The operand forms of the commands: the slices of A0 and A1 (spec/00_scope.md R12), regions of BUF and
their bounds and overlap (R13), the struct field descriptor (spec/30_encoding.md R74, spec/41_struct_codec.md R110), and
the fields of CFG (spec/10_state.md R27) with what spec/45_lzss.md R192 derives from them. -/

namespace Sys2Proof.Machine

/-- `v.f0` = v[15:0] (R12). -/
def f0 (v : DWord) : Nat := (v.extractLsb' 0 16).toNat

/-- `v.f1` = v[31:16] (R12). -/
def f1 (v : DWord) : Nat := (v.extractLsb' 16 16).toNat

/-- `v.f2` = v[47:32] (R12). -/
def f2 (v : DWord) : Nat := (v.extractLsb' 32 16).toNat

/-- `v.f3` = v[63:48] (R12). -/
def f3 (v : DWord) : Nat := (v.extractLsb' 48 16).toNat

/-- `v[31:0]`, the operand of SETCFG, CRC_LOAD, CRC_CHECK and HUF_DECODE's start bit (R75). -/
def low32 (v : DWord) : Word := v.extractLsb' 0 32

/-- A region (R13): `len` bytes of BUF from address `base`. -/
structure Region where
  base : Nat
  len : Nat
deriving DecidableEq, Repr

/-- R13: in bounds when `base + len <= BUF_SIZE`, with no wrap-around. -/
def regionInBounds (r : Region) : Bool := decide (r.base + r.len ≤ Config.bufSize)

/-- R13: two regions overlap when both are non-empty and share an address. -/
def regionsOverlap (r q : Region) : Bool :=
  decide (0 < r.len) && decide (0 < q.len) && decide (r.base < q.base + q.len) && decide (q.base < r.base + r.len)

/-- `w = 8 << WC` in bytes (R74, R110): n = w / 8. -/
def widthBytes : FieldWidth → Nat
  | .w8 => 1
  | .w16 => 2
  | .w32 => 4
  | .w64 => 8

/-- R110: a field has n bytes, and a dual field 2n. -/
def fieldSize (td : FieldDesc) : Nat :=
  match td.order with
  | .native => widthBytes td.width
  | .little => widthBytes td.width
  | .big => widthBytes td.width
  | .dual => 2 * widthBytes td.width

/-- R110: the byte order of a field that is not dual; native is the open parameter (D31). A dual field is two copies,
which `Sys2Proof/Machine/Struct.lean` reads one by one; its first copy is little-endian. -/
def fieldByteOrder : FieldOrder → ByteOrder
  | .native => Config.nativeEndian
  | .little => .little
  | .big => .big
  | .dual => .little

/-- The unsigned value of a byte sequence under a byte order (R110). -/
def orderedNat : ByteOrder → List Byte → Nat
  | .little => leNat
  | .big => beNat

/-- The `n` bytes of a value under a byte order (R113). -/
def orderedBytes : ByteOrder → Nat → Nat → List Byte
  | .little => bytesLE
  | .big => bytesBE

/-- The illegal descriptors of R74: TD[7] = 1; P = 3; E != 3 and P != 0; E = 3 and WC = 0. -/
def tdIllegal (td : FieldDesc) : Bool :=
  td.top
    || decide (td.policy = .reserved)
    || (decide (td.order ≠ .dual) && decide (td.policy ≠ .requireMatch))
    || (decide (td.order = .dual) && decide (td.width = .w8))

/-- `CFG.BO`, `CFG.WB`, `CFG.OB` and `CFG.LB` (R27). -/
structure LzParams where
  /-- BO: false is "left-to-right" (MSB-first), true "right-to-left" (LSB-first) (R190). -/
  bo : Bool
  wb : Nat
  ob : Nat
  lb : Nat
deriving DecidableEq, Repr

/-- The fields of a CFG value (R27). -/
def cfgParams (cfg : Word) : LzParams where
  bo := cfg.getLsbD 0
  wb := (cfg.extractLsb' 8 5).toNat
  ob := (cfg.extractLsb' 16 5).toNat
  lb := (cfg.extractLsb' 24 5).toNat

/-- R101 check 2: a reserved bit of CFG is set. -/
def cfgReservedSet (v : Word) : Bool := decide (v &&& 0xE0E0E0FE ≠ 0)

/-- R101 check 3: OB = 0, or LB = 0, or OB > WB. -/
def cfgMisshapen (v : Word) : Bool :=
  decide ((cfgParams v).ob = 0) || decide ((cfgParams v).lb = 0) || decide ((cfgParams v).wb < (cfgParams v).ob)

/-- R101 check 4: WB above `WB_MAX` or LB above `LB_MAX`. -/
def cfgTooWide (v : Word) : Bool :=
  decide (Config.wbMax < (cfgParams v).wb) || decide (Config.lbMax < (cfgParams v).lb)

/-- R27: the legal CFG values, which SETCFG accepts. -/
def cfgLegal (v : Word) : Bool := !cfgReservedSet v && !cfgMisshapen v && !cfgTooWide v

/-- `MIN` of R192: the shortest match whose token is shorter than its literals. -/
def lzMin (p : LzParams) : Nat := (1 + p.ob + p.lb) / 9 + 1

/-- `LMAX` of R192: the longest match. -/
def lzMax (p : LzParams) : Nat := lzMin p + 2 ^ p.lb - 1

/-- `DMAX` of R192: the longest distance. -/
def lzDistMax (p : LzParams) : Nat := 2 ^ p.ob

end Sys2Proof.Machine
end

