-- ==== Sys2Proof/Machine/Ops.lean ====
section
/-! DEFINITION. The operations the commands share: reading and writing BUF (spec/00_scope.md R10, spec/10_state.md R36),
completing a command, raising an error (spec/60_exceptions.md R265: the block's only kind of exception, which saves
no state and transfers no control, R270), and the check phase (R266). -/

namespace Sys2Proof.Machine

/-- What every meaning answers. -/
abbrev Result := Host.Outcome State Fault Refusal

/-- The byte the memory lists at an address; nothing for a byte not written since the last reset. -/
def memGet (m : Memory) (a : Nat) : Option Byte := List.lookup a m

/-- Consecutive cells from an address. -/
def cellsFrom (a : Nat) : List Byte → Memory
  | [] => []
  | b :: bs => (a, b) :: cellsFrom (a + 1) bs

/-- A memory with the bytes `bs` written from address `a`: the cells below, the new ones, and the cells beyond. -/
def memPut (m : Memory) (a : Nat) (bs : List Byte) : Memory :=
  m.filter (fun c => decide (c.1 < a)) ++ cellsFrom a bs ++ m.filter (fun c => decide (a + bs.length ≤ c.1))

/-- Memory's canonical form: every address is a buffer address (R35), and the addresses strictly rise. What an unlisted
address holds is "not written since the last reset", which no entry can say, so equal memories are equal lists. -/
def Memory.wf (m : Memory) : Bool :=
  m.all (fun c => decide (c.1 < Config.bufSize)) && decide (m.Pairwise (fun c d => c.1 < d.1))

/-- `BUF[a]` (R10): the byte written last, or the free draw of R36 where nothing has been written since reset. This is
the ONE definition of what an unlisted address reads as. -/
def bufByte (s : State) (a : Nat) : Byte := (memGet s.mem a).getD (Config.bufDraw s.resets a)

/-- `MemRead(a, n)` (R10). -/
def memRead (s : State) (a : Nat) : Nat → List Byte
  | 0 => []
  | n + 1 => bufByte s a :: memRead s (a + 1) n

/-- `MemWrite(a, n, bs)` (R10), n being the length of `bs`. -/
def memWrite (s : State) (a : Nat) (bs : List Byte) : State := { s with mem := memPut s.mem a bs }

/-- `MemRead` of a region (R13). -/
def regionRead (s : State) (r : Region) : List Byte := memRead s r.base r.len

/-- `complete` (R11, R265): the command ends with ERR <- 0 and every STICKY bit kept (R267). -/
def complete (s : State) : State := { s with err := 0 }

/-- `raise e` (R11, R265): the command ends with ERR <- the error's code and the error's STICKY bit set. Nothing is
saved and nothing is vectored (R260, R270); what the command has written by then stays as `s` holds it (R266). -/
def raiseErr (e : Err) (s : State) : State := { s with err := errCode e, sticky := s.sticky ||| stickyBit e }

/-- The first failing check of a list, in its order (R266, R268). -/
def firstError : List (Bool × Err) → Option Err
  | [] => none
  | (fails, e) :: cs => if fails then some e else firstError cs

/-- The check phase and then the data phase (R266): the first check that fails raises its error and changes nothing
else; when none fails, the operation runs. -/
def checked (checks : List (Bool × Err)) (s : State) (op : State → State) : Result :=
  match firstError checks with
  | some e => .next (raiseErr e s)
  | none => .next (op s)

end Sys2Proof.Machine
end

