-- ==== Sys2Proof/Machine/Control.lean ====
section
/-! DEFINITION. The control unit (spec/40_control.md): NOP, SETCFG, GETCFG, CLRERR, SRESET, ID. The must-be-zero check
that each rule lists first is the decoder's (R77, R78). -/

namespace Sys2Proof.Machine

/-- The ID value of R105. -/
def idValue : DWord := 0x0000000148414D49

/-- NOP (R100). -/
def execNop (s : State) : Result := .next (complete s)

/-- SETCFG (R101): v is A0[31:0]. -/
def execSetCfg (s : State) : Result :=
  checked
    [ (cfgReservedSet (low32 s.a0), .illegalCommand),
      (cfgMisshapen (low32 s.a0), .illegalCommand),
      (cfgTooWide (low32 s.a0), .unsupportedFeature) ]
    s fun s => complete { s with cfg := low32 s.a0 }

/-- GETCFG (R102). -/
def execGetCfg (s : State) : Result := .next (complete { s with res := s.cfg.setWidth 64 })

/-- CLRERR (R103). -/
def execClrErr (s : State) : Result := .next (complete { s with sticky := 0 })

/-- The unit state that SRESET and reset set to its reset value, and STICKY (R104, R291); CMD, A0, A1, RES and BUF
keep theirs. -/
def resetUnits (s : State) : State :=
  { s with
    sticky := 0
    cfg := Config.cfgReset
    crcReg := State.reset.crcReg
    md5 := HashCore.atReset md5Seed
    sha := HashCore.atReset sha1Seed
    huf := HufState.atReset
    keys := ZcKeys.atReset }

/-- SRESET (R104). -/
def execSreset (s : State) : Result := .next (complete (resetUnits s))

/-- ID (R105). -/
def execIdent (s : State) : Result := .next (complete { s with res := idValue })

end Sys2Proof.Machine
end

