-- ==== Sys2Proof/Machine/Crc.lean ====
section
/-! DEFINITION. The CRC-32 generator (spec/44_crc32.md): the step R170, and CRC_INIT, CRC_LOAD, CRC_BYTE, CRC_BUF, CRC_READ,
CRC_RAW, CRC_CHECK. -/

namespace Sys2Proof.Machine

/-- The reflected polynomial of R170. -/
def crcPoly : Word := 0xEDB88320

/-- `n` of the eight bit steps of R170. -/
def crcBits : Nat → Word → Word
  | 0, r => r
  | n + 1, r => crcBits n (if r.getLsbD 0 then (r >>> 1) ^^^ crcPoly else r >>> 1)

/-- `crc_step(r, x)` of R170. -/
def crcStep (r : Word) (x : Byte) : Word := crcBits 8 (r ^^^ x.setWidth 32)

/-- `FOLD(r, s)` of R171. -/
def crcFold (r : Word) (xs : List Byte) : Word := xs.foldl crcStep r

/-- The final XOR of R171. -/
def crcFinal (r : Word) : Word := r ^^^ 0xFFFFFFFF

/-- CRC_INIT (R172). -/
def execCrcInit (s : State) : Result := .next (complete { s with crcReg := 0xFFFFFFFF })

/-- CRC_LOAD (R173). -/
def execCrcLoad (s : State) : Result := .next (complete { s with crcReg := low32 s.a0 })

/-- CRC_BYTE (R174). -/
def execCrcByte (b : Byte) (s : State) : Result := .next (complete { s with crcReg := crcStep s.crcReg b })

/-- CRC_BUF (R175). -/
def execCrcBuf (s : State) : Result :=
  checked [(!regionInBounds ⟨f0 s.a0, f1 s.a0⟩, .bounds)]
    s fun s => complete { s with crcReg := crcFold s.crcReg (regionRead s ⟨f0 s.a0, f1 s.a0⟩) }

/-- CRC_READ (R176). -/
def execCrcRead (s : State) : Result := .next (complete { s with res := (crcFinal s.crcReg).setWidth 64 })

/-- CRC_RAW (R177). -/
def execCrcRaw (s : State) : Result := .next (complete { s with res := s.crcReg.setWidth 64 })

/-- CRC_CHECK (R178): RES holds the computed CRC whether or not it matches. -/
def execCrcCheck (s : State) : Result :=
  let t := { s with res := (crcFinal s.crcReg).setWidth 64 }
  .next (if crcFinal s.crcReg = low32 s.a0 then complete t else raiseErr .integrity t)

end Sys2Proof.Machine
end

