-- ==== Sys2Proof/Machine/Lzss.lean ====
section
/-! DEFINITION. The bit packer and the LZSS unit (spec/45_lzss.md): the bit order R190, the token format R193, the parse
R195, the decoder R196, and LZ_COMP, LZ_DECOMP. A bit stream is a list of Booleans, b0 first. -/

namespace Sys2Proof.Machine

/-- Stream bit k of a byte sequence (R190). `bo` is CFG.BO; a bit beyond the bytes is never asked for. -/
def streamBit (bo : Bool) (bs : List Byte) (k : Nat) : Bool :=
  let b := bs.getD (k / 8) 0
  if bo then b.getLsbD (k % 8) else b.getLsbD (7 - k % 8)

/-- `PUTBITS(v, n)` of R190: the n low bits of v, most significant first when BO = 0, least significant first when
BO = 1. -/
def putBits (bo : Bool) (v n : Nat) : List Bool :=
  (List.range n).map fun i => if bo then v.testBit i else v.testBit (n - 1 - i)

/-- The value that a sequence of bits least significant first spells. -/
def bitsNat : List Bool → Nat
  | [] => 0
  | b :: bs => b.toNat + 2 * bitsNat bs

/-- The bits at stream position `pos` to `pos + n - 1` (R190). -/
def streamBits (bo : Bool) (bs : List Byte) (pos n : Nat) : List Bool :=
  (List.range n).map fun i => streamBit bo bs (pos + i)

/-- `GETBITS(n)` of R190 and R196 at position `pos`: nothing when the stream ends first. -/
def getBits (bo : Bool) (bs : List Byte) (pos n : Nat) : Option Nat :=
  if 8 * bs.length < pos + n then none
  else
    let bits := streamBits bo bs pos n
    some (if bo then bitsNat bits else bitsNat bits.reverse)

/-- Byte j of a packed bit stream, zero bits padding the last byte (R190, R191). -/
def packByte (bo : Bool) (bits : List Bool) (j : Nat) : Byte :=
  let eight := (List.range 8).map fun i => bits.getD (8 * j + i) false
  BitVec.ofNat 8 (if bo then bitsNat eight else bitsNat eight.reverse)

/-- The number of bytes a stream of `nbits` bits occupies (R191). -/
def packedLen (nbits : Nat) : Nat := (nbits + 7) >>> 3

/-- The bytes of a bit stream (R190, R191). -/
def packBits (bo : Bool) (bits : List Bool) : List Byte :=
  (List.range (packedLen bits.length)).map (packByte bo bits)

/-- The tokens of R193. -/
inductive LzToken where
  /-- One literal byte. -/
  | lit (x : Byte)
  /-- A match: `len` bytes from `dist` positions back. -/
  | copy (dist len : Nat)
deriving DecidableEq, Repr

/-- The bits of a token (R193): the flag, then the byte, or the biased distance and length. -/
def tokenBits (p : LzParams) : LzToken → List Bool
  | .lit x => putBits p.bo 0 1 ++ putBits p.bo x.toNat 8
  | .copy dist len => putBits p.bo 1 1 ++ putBits p.bo (dist - 1) p.ob ++ putBits p.bo (len - lzMin p) p.lb

/-- How many leading bytes two sequences share, at most `limit`. -/
def commonLen : Nat → List Byte → List Byte → Nat
  | n + 1, x :: xs, y :: ys => if x = y then commonLen n xs ys + 1 else 0
  | _, _, _ => 0

/-- The length of the match at position i with the data at j < i, the inner loop of BEST (R195): at most LMAX, and not
beyond the input's end. It may run past i (an overlapping match). -/
def matchLen (p : LzParams) (inp : List Byte) (i j : Nat) : Nat := commonLen (lzMax p) (inp.drop j) (inp.drop i)

/-- `BEST(i)` of R195: the longest match's length and start. The candidates rise from max(0, i - DMAX) and a later one
of equal length wins, so the distance is the smallest. With no candidate the length is 0, below every MIN. -/
def bestMatch (p : LzParams) (inp : List Byte) (i : Nat) : Nat × Nat :=
  let lo := i - lzDistMax p
  (List.range' lo (i - lo)).foldl
    (fun best j => if best.1 ≤ matchLen p inp i j then (matchLen p inp i j, j) else best) (0, 0)

/-- The lazy check of R195: a strictly longer match starts one byte later. -/
def lazyDefers (p : LzParams) (inp : List Byte) (i : Nat) : Bool :=
  decide (i + 1 < inp.length) && decide ((bestMatch p inp i).1 < (bestMatch p inp (i + 1)).1)

/-- The parse of `LZ_ENCODE` (R195) from position i. Every token takes at least one byte, so `inp.length` turns are
enough. -/
def lzParse (p : LzParams) (inp : List Byte) : Nat → Nat → List LzToken
  | 0, _ => []
  | turns + 1, i =>
    if i < inp.length then
      if lzMin p ≤ (bestMatch p inp i).1 ∧ lazyDefers p inp i = false then
        .copy (i - (bestMatch p inp i).2) (bestMatch p inp i).1 :: lzParse p inp turns (i + (bestMatch p inp i).1)
      else .lit (inp.getD i 0) :: lzParse p inp turns (i + 1)
    else []

/-- `LZ_ENCODE` of R195: the bits of the parse from position 0. -/
def lzEncode (p : LzParams) (inp : List Byte) : List Bool := (lzParse p inp inp.length 0).flatMap (tokenBits p)

/-- How `LZ_DECODE` ends (R196, R201). `out` is what it produced, the newest byte first. -/
inductive LzEnd where
  | ok (pos : Nat) (out : List Byte)
  | failed (e : Err) (start : Nat) (out : List Byte)
deriving DecidableEq, Repr

/-- A match copy (R196), byte by byte, so that an overlapping copy repeats. `out` is the newest byte first, so the
byte at distance d is at index d - 1 before each byte is copied. -/
def copyBack (dist : Nat) : Nat → List Byte → List Byte
  | 0, out => out
  | n + 1, out => copyBack dist n (out.getD (dist - 1) 0 :: out)

/-- Reading one token at stream position `pos` (R196, R193): the token and the position after it, or nothing when the
stream ends inside it. -/
def lzReadToken (p : LzParams) (src : List Byte) (pos : Nat) : Option (LzToken × Nat) :=
  match getBits p.bo src pos 1 with
  | none => none
  | some flag =>
    if flag = 0 then (getBits p.bo src (pos + 1) 8).map fun x => (.lit (BitVec.ofNat 8 x), pos + 9)
    else
      match getBits p.bo src (pos + 1) p.ob with
      | none => none
      | some d =>
        (getBits p.bo src (pos + 1 + p.ob) p.lb).map fun l =>
          (.copy (d + 1) (l + lzMin p), pos + 1 + p.ob + p.lb)

/-- The loop of `LZ_DECODE` (R196) on the bits of `src`, until `total` bytes are out. Both CodecError checks come before
any byte of the token. The window is what has been produced (R194); every token produces at least one byte, so `total`
turns are enough. -/
def lzDecodeLoop (p : LzParams) (src : List Byte) (total : Nat) : Nat → Nat → List Byte → LzEnd
  | 0, pos, out => .ok pos out
  | turns + 1, pos, out =>
    if out.length < total then
      match lzReadToken p src pos with
      | none => .failed .truncatedInput pos out
      | some (.lit x, next) => lzDecodeLoop p src total turns next (x :: out)
      | some (.copy dist len, next) =>
        if out.length < dist ∨ total < out.length + len then .failed .codec pos out
        else lzDecodeLoop p src total turns next (copyBack dist len out)
    else .ok pos out

/-- `LZ_DECODE` of R196. -/
def lzDecode (p : LzParams) (src : List Byte) (total : Nat) : LzEnd := lzDecodeLoop p src total total 0 []

/-- The source region of both commands (R200, R201). -/
def lzSource (s : State) : Region := ⟨f0 s.a0, f1 s.a0⟩

/-- The destination region of both commands: (dst, cap) (R200) or (dst, N) (R201). -/
def lzDest (s : State) : Region := ⟨f2 s.a0, f3 s.a0⟩

/-- The checks that LZ_COMP and LZ_DECOMP list (R200, R201). -/
def lzChecks (s : State) : List (Bool × Err) :=
  [ (!regionInBounds (lzSource s), .bounds),
    (!regionInBounds (lzDest s), .bounds),
    (regionsOverlap (lzSource s) (lzDest s), .bounds) ]

/-- LZ_COMP (R200): all or nothing, and RES holds the size needed either way. -/
def execLzComp (s : State) : Result :=
  checked (lzChecks s) s fun s =>
    let p := cfgParams s.cfg
    let bits := lzEncode p (regionRead s (lzSource s))
    let t := { s with res := pair32 bits.length (packedLen bits.length) }
    if f3 s.a0 < packedLen bits.length then raiseErr .bounds t
    else complete (memWrite t (f2 s.a0) (packBits p.bo bits))

/-- LZ_DECOMP (R201). The source and destination do not overlap, so reading the source first and storing what was
produced at the end is the rule's byte-by-byte order. -/
def execLzDecomp (s : State) : Result :=
  checked (lzChecks s) s fun s =>
    match lzDecode (cfgParams s.cfg) (regionRead s (lzSource s)) (f3 s.a0) with
    | .ok pos out => complete { memWrite s (f2 s.a0) out.reverse with res := pair32 pos (f3 s.a0) }
    | .failed e start out =>
      raiseErr e { memWrite s (f2 s.a0) out.reverse with res := pair32 start out.length }

end Sys2Proof.Machine
end

