-- ==== Sys2Proof/Machine/Huffman.lean ====
section
/-! DEFINITION. The canonical Huffman decoder (spec/46_huffman.md): validity R220, the derived tables R221, the symbol
procedure R224, and HUF_LOAD, HUF_DECODE, HUF_CODE. A table is the list of its code lengths, symbol 0 first. -/

namespace Sys2Proof.Machine

/-- The table in use: `HUF_LEN[0 .. HUF_NSYM - 1]` (R32). -/
def hufTable (s : State) : List Byte := s.huf.lens.take s.huf.nsym.toNat

/-- What one entry adds to the Kraft sum of R220. -/
def kraftTerm (len : Byte) : Nat := if len = 0 then 0 else 2 ^ (Config.maxCodeLen - len.toNat)

/-- The Kraft sum K of R220. -/
def kraftSum (table : List Byte) : Nat := (table.map kraftTerm).sum

/-- R220: every entry is at most `MAX_CODE_LEN`, and the Kraft sum is exactly 2^16. -/
def hufTableValid (table : List Byte) : Bool :=
  table.all (fun len => decide (len.toNat ≤ Config.maxCodeLen)) && decide (kraftSum table = 2 ^ Config.maxCodeLen)

/-- `COUNT[L]` of R221. -/
def hufCount (table : List Byte) (l : Nat) : Nat := table.countP fun len => decide (len.toNat = l)

/-- `FIRST[L]` of R221, for L of 1 to 16. -/
def hufFirst (table : List Byte) : Nat → Nat
  | 0 => 0
  | 1 => 0
  | l + 2 => 2 * (hufFirst table (l + 1) + hufCount table (l + 1))

/-- `OFFS[L]` of R221, for L of 1 to 16. -/
def hufOffs (table : List Byte) : Nat → Nat
  | 0 => 0
  | 1 => 0
  | l + 2 => hufOffs table (l + 1) + hufCount table (l + 1)

/-- The symbols of code length L, in symbol order (R221). -/
def hufSymbolsOf (table : List Byte) (l : Nat) : List Nat :=
  (List.range table.length).filter fun s => decide ((table.getD s 0).toNat = l)

/-- `ORDER` of R221: the present symbols by length, then by symbol index. -/
def hufOrder (table : List Byte) : List Nat := (List.range' 1 Config.maxCodeLen).flatMap (hufSymbolsOf table)

/-- `CODE[s]` of R221 for a present symbol s. -/
def hufCodeOf (table : List Byte) (sym : Nat) : Nat :=
  hufFirst table (table.getD sym 0).toNat + (table.take sym).countP fun len => decide (len = table.getD sym 0)

/-- `HUF_SYMBOL` of R224 from code length L on, `turns` lengths remaining, with the bits read so far in `code` and the
next bit at `pos`: the symbol and the next position, or nothing when the stream ends. A valid table's codes end by
length 16 (R223); no valid table runs out of turns (assumption log 8). -/
def hufSymbolFrom (table : List Byte) (bo : Bool) (src : List Byte) : Nat → Nat → Nat → Nat → Option (Nat × Nat)
  | 0, _, _, _ => none
  | turns + 1, l, code, pos =>
    if pos < 8 * src.length then
      let code := 2 * code + (streamBit bo src pos).toNat
      if code - hufFirst table l < hufCount table l then
        some ((hufOrder table).getD (hufOffs table l + (code - hufFirst table l)) 0, pos + 1)
      else hufSymbolFrom table bo src turns (l + 1) code (pos + 1)
    else none

/-- `HUF_SYMBOL` of R224 at stream position `pos`. -/
def hufSymbol (table : List Byte) (bo : Bool) (src : List Byte) (pos : Nat) : Option (Nat × Nat) :=
  hufSymbolFrom table bo src Config.maxCodeLen 1 0 pos

/-- How HUF_DECODE's loop ends (R223): the symbols decoded, and the next position (`ended`) or the position where the
incomplete code began (`truncated`). -/
inductive HufEnd where
  | ended (syms : List Nat) (pos : Nat)
  | truncated (syms : List Nat) (start : Nat)
deriving DecidableEq, Repr

/-- A symbol before what the rest of a loop decodes. -/
def hufPrepend (sym : Nat) : HufEnd → HufEnd
  | .ended syms pos => .ended (sym :: syms) pos
  | .truncated syms start => .truncated (sym :: syms) start

/-- The loop of HUF_DECODE (R223): `count` symbols from `pos`. -/
def hufDecodeLoop (table : List Byte) (bo : Bool) (src : List Byte) : Nat → Nat → HufEnd
  | 0, pos => .ended [] pos
  | count + 1, pos =>
    match hufSymbol table bo src pos with
    | none => .truncated [] pos
    | some (sym, next) => hufPrepend sym (hufDecodeLoop table bo src count next)

/-- The bytes of decoded symbols: 16 bits each, little-endian (R224). -/
def symbolBytes (syms : List Nat) : List Byte := syms.flatMap fun sym => bytesLE sym 2

/-- HUF_LOAD (R222). The entries from n to `NSYM_MAX` - 1 are 0: the list holds n entries, and n is a 16-bit field, so at
most `NSYM_MAX` (`hufLoad_size` in Sys2Proof/Laws/Ops.lean). -/
def execHufLoad (s : State) : Result :=
  checked
    [ (decide (f1 s.a0 = 0), .illegalCommand),
      (!regionInBounds ⟨f0 s.a0, f1 s.a0⟩, .bounds) ]
    s fun s =>
      let table := regionRead s ⟨f0 s.a0, f1 s.a0⟩
      let t := { s with huf := ⟨table, BitVec.ofNat 16 (f1 s.a0), hufTableValid table⟩ }
      if hufTableValid table then complete t else raiseErr .codec t

/-- HUF_DECODE's source region (R223). -/
def hufSource (s : State) : Region := ⟨f0 s.a0, f1 s.a0⟩

/-- HUF_DECODE's destination region: two bytes a symbol (R223). -/
def hufDest (s : State) : Region := ⟨f2 s.a0, 2 * f3 s.a0⟩

/-- HUF_DECODE (R223). Source and destination do not overlap, so storing the symbols at the end is the rule's
order. -/
def execHufDecode (s : State) : Result :=
  checked
    [ (!s.huf.valid, .codec),
      (!regionInBounds (hufSource s), .bounds),
      (!regionInBounds (hufDest s), .bounds),
      (regionsOverlap (hufSource s) (hufDest s), .bounds),
      (decide (8 * f1 s.a0 < (low32 s.a1).toNat), .bounds) ]
    s fun s =>
      match hufDecodeLoop (hufTable s) (cfgParams s.cfg).bo (regionRead s (hufSource s)) (f3 s.a0)
          (low32 s.a1).toNat with
      | .ended syms pos => complete { memWrite s (f2 s.a0) (symbolBytes syms) with res := pair32 (f3 s.a0) pos }
      | .truncated syms start =>
        raiseErr .truncatedInput { memWrite s (f2 s.a0) (symbolBytes syms) with res := pair32 syms.length start }

/-- HUF_CODE (R225). -/
def execHufCode (sym : Half) (s : State) : Result :=
  checked
    [ (!s.huf.valid, .codec),
      (decide (s.huf.nsym.toNat ≤ sym.toNat), .illegalCommand) ]
    s fun s =>
      let len := (hufTable s).getD sym.toNat 0
      complete { s with res := if len = 0 then 0 else pair32 len.toNat (hufCodeOf (hufTable s) sym.toNat) }

end Sys2Proof.Machine
end

