-- ==== Sys2Proof/Machine/Hash.lean ====
section
/-! DEFINITION. What the two hash cores share (spec/42_md5.md R132, R133, R135; spec/43_sha1.md R152, R153, R155): the
64-byte block buffer, absorbing a byte, and the padding. Each core passes its own compression function and the order
of its length suffix. -/

namespace Sys2Proof.Machine

/-- Append one byte to the block buffer and compress when the 64th is in (R132, R152, R135), leaving the length
alone. -/
def hashPush {χ : Type} (compress : χ → List Byte → χ) (c : HashCore χ) (x : Byte) : HashCore χ :=
  let blk := c.blk.set c.blkLen.val x c.blkLen.isLt
  if c.blkLen.val = 63 then { c with chain := compress c.chain blk.toList, blk := blk, blkLen := 0 }
  else { c with blk := blk, blkLen := c.blkLen + 1 }

/-- `MD5_ABSORB` of R132 and `SHA_ABSORB` of R152: the length grows by 8 bits, modulo 2^64 (R156). -/
def hashAbsorb {χ : Type} (compress : χ → List Byte → χ) (c : HashCore χ) (x : Byte) : HashCore χ :=
  hashPush compress { c with len := c.len + 8 } x

/-- Absorb a byte sequence, first byte first (R133, R153). -/
def hashAbsorbAll {χ : Type} (compress : χ → List Byte → χ) (c : HashCore χ) (xs : List Byte) : HashCore χ :=
  xs.foldl (hashAbsorb compress) c

/-- The padding of R135: 0x80, then (55 - BLKLEN) mod 64 zero bytes, then the length suffix. -/
def hashPadding {χ : Type} (suffix : Nat → Nat → List Byte) (c : HashCore χ) : List Byte :=
  0x80#8 :: List.replicate ((119 - c.blkLen.val) % 64) 0 ++ suffix c.len.toNat 8

/-- `MD5_PAD` of R135 and `SHA_PAD` of R155: the padding goes in as ABSORB does, and the length stays. -/
def hashPad {χ : Type} (compress : χ → List Byte → χ) (suffix : Nat → Nat → List Byte) (c : HashCore χ) :
    HashCore χ :=
  (hashPadding suffix c).foldl (hashPush compress) c

/-- The first half of a FINAL command (R134, R154): pad once, and note that the message is finalised. -/
def hashFinish {χ : Type} (compress : χ → List Byte → χ) (suffix : Nat → Nat → List Byte) (c : HashCore χ) :
    HashCore χ :=
  if c.done then c else { hashPad compress suffix c with done := true }

/-- What a RESET command leaves (R131, R151): the seed, an empty block buffer, length 0, not done. The rules do not name
the buffer's old bytes, which stay and are never read. -/
def hashRestart {χ : Type} (seed : χ) (c : HashCore χ) : HashCore χ :=
  { c with chain := seed, blkLen := 0, len := 0, done := false }

end Sys2Proof.Machine
end

