-- ==== Sys2Proof/Machine/Md5.lean ====
section
/-! DEFINITION. The MD5 core (spec/42_md5.md): the compression function R130 with its tables, and MD5_RESET, MD5_BYTE,
MD5_BUF, MD5_FINAL. -/

namespace Sys2Proof.Machine

/-- The table `K` of R136, `K[0]` first. -/
def md5K : List Word :=
  [ 0xD76AA478, 0xE8C7B756, 0x242070DB, 0xC1BDCEEE, 0xF57C0FAF, 0x4787C62A, 0xA8304613, 0xFD469501,
    0x698098D8, 0x8B44F7AF, 0xFFFF5BB1, 0x895CD7BE, 0x6B901122, 0xFD987193, 0xA679438E, 0x49B40821 ]
  ++ [ 0xF61E2562, 0xC040B340, 0x265E5A51, 0xE9B6C7AA, 0xD62F105D, 0x02441453, 0xD8A1E681, 0xE7D3FBC8,
    0x21E1CDE6, 0xC33707D6, 0xF4D50D87, 0x455A14ED, 0xA9E3E905, 0xFCEFA3F8, 0x676F02D9, 0x8D2A4C8A ]
  ++ [ 0xFFFA3942, 0x8771F681, 0x6D9D6122, 0xFDE5380C, 0xA4BEEA44, 0x4BDECFA9, 0xF6BB4B60, 0xBEBFBC70,
    0x289B7EC6, 0xEAA127FA, 0xD4EF3085, 0x04881D05, 0xD9D4D039, 0xE6DB99E5, 0x1FA27CF8, 0xC4AC5665 ]
  ++ [ 0xF4292244, 0x432AFF97, 0xAB9423A7, 0xFC93A039, 0x655B59C3, 0x8F0CCC92, 0xFFEFF47D, 0x85845DD1,
    0x6FA87E4F, 0xFE2CE6E0, 0xA3014314, 0x4E0811A1, 0xF7537E82, 0xBD3AF235, 0x2AD7D2BB, 0xEB86D391 ]

/-- The shift amount `S[i]` of R130: four amounts for each group of sixteen rounds, repeated. -/
def md5Shift (i : Nat) : Nat :=
  let row := if i < 16 then [7, 12, 17, 22] else if i < 32 then [5, 9, 14, 20]
    else if i < 48 then [4, 11, 16, 23] else [6, 10, 15, 21]
  row.getD (i % 4) 0

/-- The round function `f` of R130. -/
def md5Mix (i : Nat) (b c d : Word) : Word :=
  if i < 16 then (b &&& c) ||| (~~~b &&& d)
  else if i < 32 then (b &&& d) ||| (c &&& ~~~d)
  else if i < 48 then b ^^^ c ^^^ d
  else c ^^^ (b ||| ~~~d)

/-- The message word index `g` of R130. -/
def md5Index (i : Nat) : Nat :=
  if i < 16 then i
  else if i < 32 then (5 * i + 1) % 16
  else if i < 48 then (3 * i + 5) % 16
  else (7 * i) % 16

/-- One of the 64 rounds of R130; the chain's fields stand for a, b, c, d. -/
def md5Round (x : List Word) (v : Md5Chain) (i : Nat) : Md5Chain :=
  let t := v.h0 + md5Mix i v.h1 v.h2 v.h3 + md5K.getD i 0 + x.getD (md5Index i) 0
  ⟨v.h3, v.h1 + rotl32 t (md5Shift i), v.h1, v.h2⟩

/-- `MD5_COMPRESS(H, blk)` of R130. -/
def md5Compress (h : Md5Chain) (blk : List Byte) : Md5Chain :=
  let v := (List.range 64).foldl (md5Round (wordsOf leNat blk)) h
  ⟨h.h0 + v.h0, h.h1 + v.h1, h.h2 + v.h2, h.h3 + v.h3⟩

/-- `MD5_ABSORB(x)` of R132. -/
def md5Absorb (c : HashCore Md5Chain) (x : Byte) : HashCore Md5Chain := hashAbsorb md5Compress c x

/-- `MD5_ABSORB` over a byte sequence (R133). -/
def md5AbsorbAll (c : HashCore Md5Chain) (xs : List Byte) : HashCore Md5Chain := hashAbsorbAll md5Compress c xs

/-- What MD5_FINAL does to the core (R134, R135): the length suffix is little-endian. -/
def md5Finish (c : HashCore Md5Chain) : HashCore Md5Chain := hashFinish md5Compress bytesLE c

/-- The 16-byte digest: each chaining word little-endian, word 0 first (R134). -/
def md5Digest (h : Md5Chain) : List Byte :=
  bytesLE h.h0.toNat 4 ++ bytesLE h.h1.toNat 4 ++ bytesLE h.h2.toNat 4 ++ bytesLE h.h3.toNat 4

/-- MD5_RESET (R131). -/
def execMd5Reset (s : State) : Result := .next (complete { s with md5 := hashRestart md5Seed s.md5 })

/-- MD5_BYTE (R132). -/
def execMd5Byte (b : Byte) (s : State) : Result :=
  checked [(s.md5.done, .illegalCommand)] s fun s => complete { s with md5 := md5Absorb s.md5 b }

/-- MD5_BUF (R133). -/
def execMd5Buf (s : State) : Result :=
  checked
    [ (s.md5.done, .illegalCommand),
      (!regionInBounds ⟨f0 s.a0, f1 s.a0⟩, .bounds) ]
    s fun s => complete { s with md5 := md5AbsorbAll s.md5 (regionRead s ⟨f0 s.a0, f1 s.a0⟩) }

/-- MD5_FINAL (R134). -/
def execMd5Final (s : State) : Result :=
  checked [(!regionInBounds ⟨f0 s.a0, 16⟩, .bounds)]
    s fun s => complete (memWrite { s with md5 := md5Finish s.md5 } (f0 s.a0) (md5Digest (md5Finish s.md5).chain))

end Sys2Proof.Machine
end

