-- ==== Sys2Proof/Machine/Pkware.lean ====
section
/-! DEFINITION. The PKWARE stream cipher (spec/47_pkware.md): the key update R241, the keystream byte R242, and ZC_INIT,
ZC_PWBYTE, ZC_PWBUF, ZC_ENC, ZC_DEC, ZC_HDRCHK, ZC_KEY, ZC_KSB. -/

namespace Sys2Proof.Machine

/-- KEY1's step (R241), fed with the new KEY0: the source's LCG after KEY0's low byte is added. -/
def zcKey1Step (key1 key0 : Word) : Word := (key1 + (key0.extractLsb' 0 8).setWidth 32) * 134775813 + 1

/-- `update_keys(p)` of R241; each step uses the key just computed. -/
def zcUpdate (k : ZcKeys) (p : Byte) : ZcKeys :=
  let key0 := crcStep k.key0 p
  let key1 := zcKey1Step k.key1 key0
  ⟨key0, key1, crcStep k.key2 (key1.extractLsb' 24 8)⟩

/-- `update_keys` over a byte sequence, first byte first (R245). -/
def zcUpdateAll (k : ZcKeys) (ps : List Byte) : ZcKeys := ps.foldl zcUpdate k

/-- `ksb()` of R242, the product taken on 32 bits. -/
def zcKsb (k : ZcKeys) : Byte :=
  let t : Word := (k.key2 ||| 2) &&& 0xFFFF
  (t * (t ^^^ 1)).extractLsb' 8 8

/-- ZC_ENC's loop (R246): read source byte i, store it encrypted, feed the plaintext byte; byte i before byte i + 1
(R243). -/
def zcEncLoop : Nat → Nat → Nat → State → State
  | 0, _, _, s => s
  | n + 1, src, dst, s =>
    let p := bufByte s src
    zcEncLoop n (src + 1) (dst + 1) { memWrite s dst [p ^^^ zcKsb s.keys] with keys := zcUpdate s.keys p }

/-- ZC_DEC's loop (R247): read source byte i, store it decrypted, feed the byte just decrypted. -/
def zcDecLoop : Nat → Nat → Nat → State → State
  | 0, _, _, s => s
  | n + 1, src, dst, s =>
    let p := bufByte s src ^^^ zcKsb s.keys
    zcDecLoop n (src + 1) (dst + 1) { memWrite s dst [p] with keys := zcUpdate s.keys p }

/-- The checks of R246 and R248 on a source and a destination of `n` bytes: bounds, and no overlap but the in-place
one (R243). -/
def zcChecks (s : State) (n : Nat) : List (Bool × Err) :=
  [ (!regionInBounds ⟨f0 s.a0, n⟩, .bounds),
    (!regionInBounds ⟨f2 s.a0, n⟩, .bounds),
    (decide (f0 s.a0 ≠ f2 s.a0) && regionsOverlap ⟨f0 s.a0, n⟩ ⟨f2 s.a0, n⟩, .bounds) ]

/-- The length of the encryption header (R248). -/
def zcHeaderLen : Nat := 12

/-- ZC_INIT (R240). -/
def execZcInit (s : State) : Result := .next (complete { s with keys := ⟨0x12345678, 0x23456789, 0x34567890⟩ })

/-- ZC_PWBYTE (R244). -/
def execZcPwByte (b : Byte) (s : State) : Result := .next (complete { s with keys := zcUpdate s.keys b })

/-- ZC_PWBUF (R245). -/
def execZcPwBuf (s : State) : Result :=
  checked [(!regionInBounds ⟨f0 s.a0, f1 s.a0⟩, .bounds)]
    s fun s => complete { s with keys := zcUpdateAll s.keys (regionRead s ⟨f0 s.a0, f1 s.a0⟩) }

/-- ZC_ENC (R246). -/
def execZcEnc (s : State) : Result :=
  checked (zcChecks s (f1 s.a0)) s fun s => complete (zcEncLoop (f1 s.a0) (f0 s.a0) (f2 s.a0) s)

/-- ZC_DEC (R247). -/
def execZcDec (s : State) : Result :=
  checked (zcChecks s (f1 s.a0)) s fun s => complete (zcDecLoop (f1 s.a0) (f0 s.a0) (f2 s.a0) s)

/-- ZC_HDRCHK (R248): the bytes stay written and the keys stay updated when the check fails. -/
def execZcHdrChk (check : Byte) (s : State) : Result :=
  checked (zcChecks s zcHeaderLen) s fun s =>
    let t := zcDecLoop zcHeaderLen (f0 s.a0) (f2 s.a0) s
    let last := bufByte t (f2 s.a0 + 11)
    if last = check then complete { t with res := last.setWidth 64 }
    else raiseErr .integrity { t with res := last.setWidth 64 }

/-- ZC_KEY (R249). -/
def execZcKey (idx : Byte) (s : State) : Result :=
  checked [(decide (2 < idx.toNat), .illegalCommand)] s fun s =>
    complete { s with
      res := (if idx = 0 then s.keys.key0 else if idx = 1 then s.keys.key1 else s.keys.key2).setWidth 64 }

/-- ZC_KSB (R250). -/
def execZcKsb (s : State) : Result := .next (complete { s with res := (zcKsb s.keys).setWidth 64 })

end Sys2Proof.Machine
end

