-- ==== Sys2Proof/Machine/Sha1.lean ====
section
/-! DEFINITION. The SHA-1 core (spec/43_sha1.md): the compression function R150, and SHA1_RESET, SHA1_BYTE, SHA1_BUF,
SHA1_FINAL. -/

namespace Sys2Proof.Machine

/-- The next word of the message schedule of R150 from the sixteen words before it, the newest first. -/
def sha1NextWord (recent : List Word) : Word :=
  rotl32 (recent.getD 2 0 ^^^ recent.getD 7 0 ^^^ recent.getD 13 0 ^^^ recent.getD 15 0) 1

/-- The message schedule of R150 with `n` words added to those given, the newest first. -/
def sha1Extend : Nat → List Word → List Word
  | 0, ws => ws
  | n + 1, ws => sha1Extend n (sha1NextWord ws :: ws)

/-- The message schedule `W[0..79]` of R150, `W[0]` first. -/
def sha1Schedule (blk : List Byte) : List Word := (sha1Extend 64 (wordsOf beNat blk).reverse).reverse

/-- The round function `f` of R150. -/
def sha1Mix (t : Nat) (b c d : Word) : Word :=
  if t < 20 then (b &&& c) ||| (~~~b &&& d)
  else if t < 40 then b ^^^ c ^^^ d
  else if t < 60 then (b &&& c) ||| (b &&& d) ||| (c &&& d)
  else b ^^^ c ^^^ d

/-- The round constant `k` of R150. -/
def sha1K (t : Nat) : Word :=
  if t < 20 then 0x5A827999 else if t < 40 then 0x6ED9EBA1 else if t < 60 then 0x8F1BBCDC else 0xCA62C1D6

/-- One of the 80 rounds of R150; the chain's fields stand for a, b, c, d, e. -/
def sha1Round (w : List Word) (v : Sha1Chain) (t : Nat) : Sha1Chain :=
  let tmp := rotl32 v.h0 5 + sha1Mix t v.h1 v.h2 v.h3 + v.h4 + sha1K t + w.getD t 0
  ⟨tmp, v.h0, rotl32 v.h1 30, v.h2, v.h3⟩

/-- `SHA_COMPRESS(H, blk)` of R150. -/
def sha1Compress (h : Sha1Chain) (blk : List Byte) : Sha1Chain :=
  let v := (List.range 80).foldl (sha1Round (sha1Schedule blk)) h
  ⟨h.h0 + v.h0, h.h1 + v.h1, h.h2 + v.h2, h.h3 + v.h3, h.h4 + v.h4⟩

/-- `SHA_ABSORB(x)` of R152. -/
def sha1Absorb (c : HashCore Sha1Chain) (x : Byte) : HashCore Sha1Chain := hashAbsorb sha1Compress c x

/-- `SHA_ABSORB` over a byte sequence (R153). -/
def sha1AbsorbAll (c : HashCore Sha1Chain) (xs : List Byte) : HashCore Sha1Chain := hashAbsorbAll sha1Compress c xs

/-- What SHA1_FINAL does to the core (R154, R155): the length suffix is big-endian. -/
def sha1Finish (c : HashCore Sha1Chain) : HashCore Sha1Chain := hashFinish sha1Compress bytesBE c

/-- The 20-byte digest: each chaining word big-endian, word 0 first (R154). -/
def sha1Digest (h : Sha1Chain) : List Byte :=
  bytesBE h.h0.toNat 4 ++ bytesBE h.h1.toNat 4 ++ bytesBE h.h2.toNat 4 ++ bytesBE h.h3.toNat 4
    ++ bytesBE h.h4.toNat 4

/-- SHA1_RESET (R151). -/
def execSha1Reset (s : State) : Result := .next (complete { s with sha := hashRestart sha1Seed s.sha })

/-- SHA1_BYTE (R152). -/
def execSha1Byte (b : Byte) (s : State) : Result :=
  checked [(s.sha.done, .illegalCommand)] s fun s => complete { s with sha := sha1Absorb s.sha b }

/-- SHA1_BUF (R153). -/
def execSha1Buf (s : State) : Result :=
  checked
    [ (s.sha.done, .illegalCommand),
      (!regionInBounds ⟨f0 s.a0, f1 s.a0⟩, .bounds) ]
    s fun s => complete { s with sha := sha1AbsorbAll s.sha (regionRead s ⟨f0 s.a0, f1 s.a0⟩) }

/-- SHA1_FINAL (R154). -/
def execSha1Final (s : State) : Result :=
  checked [(!regionInBounds ⟨f0 s.a0, 20⟩, .bounds)]
    s fun s => complete (memWrite { s with sha := sha1Finish s.sha } (f0 s.a0) (sha1Digest (sha1Finish s.sha).chain))

end Sys2Proof.Machine
end

