-- ==== Sys2Proof/Machine/Struct.lean ====
section
/-! DEFINITION. The binary struct codec (spec/41_struct_codec.md): SC_DEC, SC_ENC, SC_ADEC, SC_AENC. -/

namespace Sys2Proof.Machine

/-- The struct region `(base, rlen)` of every struct command: A0.f0 and A0.f1. -/
def structRegion (s : State) : Region := ⟨f0 s.a0, f1 s.a0⟩

/-- The buffer address of a field: base + off (R110). -/
def fieldAddr (s : State) (off : Half) : Nat := f0 s.a0 + off.toNat

/-- The unsigned value a field decodes to (R112), or nothing when a `require_match` dual field's copies differ. -/
def decodeField (s : State) (td : FieldDesc) (a : Nat) : Option Nat :=
  let n := widthBytes td.width
  match td.order with
  | .dual =>
    let lo := leNat (memRead s a n)
    let hi := beNat (memRead s (a + n) n)
    match td.policy with
    | .requireMatch => if lo = hi then some lo else none
    | .preferLittle => some lo
    | .preferBig => some hi
    | .reserved => none
  | .native => some (orderedNat (fieldByteOrder .native) (memRead s a n))
  | .little => some (orderedNat (fieldByteOrder .little) (memRead s a n))
  | .big => some (orderedNat (fieldByteOrder .big) (memRead s a n))

/-- What RES receives for the unsigned value u of a field (R112): sign- or zero-extended to 64 bits. -/
def fieldResult (td : FieldDesc) (u : Nat) : DWord :=
  if td.signed then sext64 (8 * widthBytes td.width) u else zext64 u

/-- SC_DEC (R112). -/
def execScDec (td : FieldDesc) (off : Half) (s : State) : Result :=
  checked
    [ (tdIllegal td, .illegalCommand),
      (!regionInBounds (structRegion s), .bounds),
      (decide (f1 s.a0 < off.toNat + fieldSize td), .truncatedInput) ]
    s fun s =>
      match decodeField s td (fieldAddr s off) with
      | some u => complete { s with res := fieldResult td u }
      | none => raiseErr .format s

/-- R113 check 4: v is out of the field's range. -/
def fieldOutOfRange (td : FieldDesc) (v : DWord) : Bool :=
  let w := 8 * widthBytes td.width
  if td.signed then decide (sext64 w v.toNat ≠ v) else decide (w < 64) && decide (2 ^ w ≤ v.toNat)

/-- The bytes SC_ENC stores for the value v (R113); both copies of a dual field. -/
def encodeField (td : FieldDesc) (v : DWord) : List Byte :=
  let n := widthBytes td.width
  let u := v.toNat % 2 ^ (8 * n)
  match td.order with
  | .dual => bytesLE u n ++ bytesBE u n
  | .native => orderedBytes (fieldByteOrder .native) u n
  | .little => orderedBytes (fieldByteOrder .little) u n
  | .big => orderedBytes (fieldByteOrder .big) u n

/-- SC_ENC (R113). -/
def execScEnc (td : FieldDesc) (off : Half) (s : State) : Result :=
  checked
    [ (tdIllegal td, .illegalCommand),
      (!regionInBounds (structRegion s), .bounds),
      (decide (f1 s.a0 < off.toNat + fieldSize td), .bounds),
      (fieldOutOfRange td s.a1, .format) ]
    s fun s => complete (memWrite s (fieldAddr s off) (encodeField td s.a1))

/-- The other region of SC_ADEC and SC_AENC: A1.f0 and A1.f1 (R114, R115). -/
def arrayRegion (s : State) : Region := ⟨f0 s.a1, f1 s.a1⟩

/-- The region of a char array inside the struct: (base + off, n) (R114, R115). -/
def arrayField (s : State) (off : Half) : Region := ⟨fieldAddr s off, f1 s.a1⟩

/-- SC_ADEC (R114). Only an overlap with the field itself is refused, so the copy may land elsewhere in the struct region,
as vector SC-20 of spec/95_test_vectors.md does, against R111's words that SC_ADEC writes no byte of that region. DESIGN
CHOICE, assumption log 14. -/
def execScAdec (off : Half) (s : State) : Result :=
  checked
    [ (!regionInBounds (structRegion s), .bounds),
      (!regionInBounds (arrayRegion s), .bounds),
      (decide (f1 s.a0 < off.toNat + f1 s.a1), .truncatedInput),
      (regionsOverlap (arrayField s off) (arrayRegion s), .bounds) ]
    s fun s => complete (memWrite s (f0 s.a1) (regionRead s (arrayField s off)))

/-- SC_AENC (R115). -/
def execScAenc (off : Half) (s : State) : Result :=
  checked
    [ (!regionInBounds (structRegion s), .bounds),
      (!regionInBounds (arrayRegion s), .bounds),
      (decide (f1 s.a0 < off.toNat + f1 s.a1), .bounds),
      (regionsOverlap (arrayField s off) (arrayRegion s), .bounds) ]
    s fun s => complete (memWrite s (fieldAddr s off) (regionRead s (arrayRegion s)))

end Sys2Proof.Machine
end

