-- ==== Sys2Proof/Machine/Dispatch.lean ====
section
/-! DEFINITION. The dispatch of spec/60_exceptions.md R265's EXECUTE: one arm for each command, each a direct call of its
meaning. -/

namespace Sys2Proof.Machine

def exec (i : Instr) (s : State) : Host.Outcome State Fault Refusal :=
  match i with
  | .nop => Sys2Proof.Machine.execNop s
  | .setCfg => Sys2Proof.Machine.execSetCfg s
  | .getCfg => Sys2Proof.Machine.execGetCfg s
  | .clrErr => Sys2Proof.Machine.execClrErr s
  | .sreset => Sys2Proof.Machine.execSreset s
  | .ident => Sys2Proof.Machine.execIdent s
  | .scDec td off => Sys2Proof.Machine.execScDec td off s
  | .scEnc td off => Sys2Proof.Machine.execScEnc td off s
  | .scAdec off => Sys2Proof.Machine.execScAdec off s
  | .scAenc off => Sys2Proof.Machine.execScAenc off s
  | .md5Reset => Sys2Proof.Machine.execMd5Reset s
  | .md5Byte b => Sys2Proof.Machine.execMd5Byte b s
  | .md5Buf => Sys2Proof.Machine.execMd5Buf s
  | .md5Final => Sys2Proof.Machine.execMd5Final s
  | .sha1Reset => Sys2Proof.Machine.execSha1Reset s
  | .sha1Byte b => Sys2Proof.Machine.execSha1Byte b s
  | .sha1Buf => Sys2Proof.Machine.execSha1Buf s
  | .sha1Final => Sys2Proof.Machine.execSha1Final s
  | .crcInit => Sys2Proof.Machine.execCrcInit s
  | .crcLoad => Sys2Proof.Machine.execCrcLoad s
  | .crcByte b => Sys2Proof.Machine.execCrcByte b s
  | .crcBuf => Sys2Proof.Machine.execCrcBuf s
  | .crcRead => Sys2Proof.Machine.execCrcRead s
  | .crcRaw => Sys2Proof.Machine.execCrcRaw s
  | .crcCheck => Sys2Proof.Machine.execCrcCheck s
  | .lzComp => Sys2Proof.Machine.execLzComp s
  | .lzDecomp => Sys2Proof.Machine.execLzDecomp s
  | .hufLoad => Sys2Proof.Machine.execHufLoad s
  | .hufDecode => Sys2Proof.Machine.execHufDecode s
  | .hufCode sym => Sys2Proof.Machine.execHufCode sym s
  | .zcInit => Sys2Proof.Machine.execZcInit s
  | .zcPwByte b => Sys2Proof.Machine.execZcPwByte b s
  | .zcPwBuf => Sys2Proof.Machine.execZcPwBuf s
  | .zcEnc => Sys2Proof.Machine.execZcEnc s
  | .zcDec => Sys2Proof.Machine.execZcDec s
  | .zcHdrChk check => Sys2Proof.Machine.execZcHdrChk check s
  | .zcKey idx => Sys2Proof.Machine.execZcKey idx s
  | .zcKsb => Sys2Proof.Machine.execZcKsb s

end Sys2Proof.Machine
end

