-- ==== Sys2Proof/Machine/HostIf.lean ====
section
/-! DEFINITION. The host interface (spec/10_state.md R20; spec/20_memory.md R50 to R57): which host accesses are allowed,
what a read returns, what a write does, and reset (spec/70_reset_and_hazards.md R290). A write to CMD is handed on: the
step executes it (Sys2Proof/Machine/Step.lean). -/

namespace Sys2Proof.Machine

/-- The BUF window begins here in the host space (R50, R51). -/
def bufWindow : Nat := 0x10000

/-- R54: a BUF access has 1, 2, 4 or 8 bytes at a multiple of its size. -/
def bufAccessAllowed (off n : Nat) : Bool :=
  decide (bufWindow ≤ off) && (decide (n = 1) || decide (n = 2) || decide (n = 4) || decide (n = 8))
    && decide (off % n = 0)

/-- Why an access that fits no register and no BUF cell is refused (R54, R56). -/
def refuseAccess (off : Nat) : Refusal :=
  if 0x24 ≤ off ∧ off < bufWindow then .reservedOffset else .widthOrAlignment

/-- What a host read of `n` bytes at offset `off` returns (R20, R51, R52, R54), zero-extended; or why it is refused. -/
def hostReadValue (s : State) (off n : Nat) : Except Refusal DWord :=
  if n = 4 ∧ off = 0x00 then .ok (s.cmd.setWidth 64)
  else if n = 4 ∧ off = 0x04 then .ok ((statusWord s).setWidth 64)
  else if n = 8 ∧ off = 0x08 then .ok s.a0
  else if n = 4 ∧ off = 0x08 then .ok ((s.a0.extractLsb' 0 32).setWidth 64)
  else if n = 4 ∧ off = 0x0C then .ok ((s.a0.extractLsb' 32 32).setWidth 64)
  else if n = 8 ∧ off = 0x10 then .ok s.a1
  else if n = 4 ∧ off = 0x10 then .ok ((s.a1.extractLsb' 0 32).setWidth 64)
  else if n = 4 ∧ off = 0x14 then .ok ((s.a1.extractLsb' 32 32).setWidth 64)
  else if n = 8 ∧ off = 0x18 then .ok s.res
  else if n = 4 ∧ off = 0x18 then .ok ((s.res.extractLsb' 0 32).setWidth 64)
  else if n = 4 ∧ off = 0x1C then .ok ((s.res.extractLsb' 32 32).setWidth 64)
  else if n = 4 ∧ off = 0x20 then .ok (s.cfg.setWidth 64)
  else if bufAccessAllowed off n then .ok (zext64 (leNat (memRead s (off - bufWindow) n)))
  else .error (refuseAccess off)

/-- What a host event does: a next state, a command to execute (R22) in a state, or a refusal. -/
inductive HostAction where
  | done (s : State)
  | command (w : Word) (s : State)
  | refuse (r : Refusal)
deriving DecidableEq, Repr

/-- What a host write of `n` bytes at offset `off` does (R22, R23, R51, R52, R54, R56). Only the low `8 * n` bits of `v`
count. -/
def hostWrite (s : State) (off n : Nat) (v : DWord) : HostAction :=
  if n = 4 ∧ off = 0x00 then .command (v.extractLsb' 0 32) s
  else if n = 8 ∧ off = 0x08 then .done { s with a0 := v }
  else if n = 4 ∧ off = 0x08 then .done { s with a0 := s.a0.extractLsb' 32 32 ++ v.extractLsb' 0 32 }
  else if n = 4 ∧ off = 0x0C then .done { s with a0 := v.extractLsb' 0 32 ++ s.a0.extractLsb' 0 32 }
  else if n = 8 ∧ off = 0x10 then .done { s with a1 := v }
  else if n = 4 ∧ off = 0x10 then .done { s with a1 := s.a1.extractLsb' 32 32 ++ v.extractLsb' 0 32 }
  else if n = 4 ∧ off = 0x14 then .done { s with a1 := v.extractLsb' 0 32 ++ s.a1.extractLsb' 0 32 }
  else if (n = 4 ∧ (off = 0x04 ∨ off = 0x18 ∨ off = 0x1C ∨ off = 0x20)) ∨ (n = 8 ∧ off = 0x18) then
    .refuse .readOnlyRegister
  else if bufAccessAllowed off n then .done (memWrite s (off - bufWindow) (bytesLE v.toNat n))
  else .refuse (refuseAccess off)

/-- Reset (R290): everything at its reset value, BUF a fresh draw for each byte. What the host is still to do, and what
it read last, are the host's and stay. -/
def resetEvent (s : State) : State :=
  { State.reset with resets := s.resets + 1, host := s.host, hostData := s.hostData }

/-- One host event. A read changes nothing but what the host holds (R57, R274). -/
def hostEvent (e : HostEvent) (s : State) : HostAction :=
  match e with
  | .read off n =>
    match hostReadValue s off.toNat n with
    | .ok v => .done { s with hostData := v }
    | .error r => .refuse r
  | .write off n v => hostWrite s off.toNat n v
  | .reset => .done (resetEvent s)

/-- The host's write of the word `w` to CMD (R22), which is how a command reaches the block. -/
def cmdWrite (w : Word) : HostEvent := .write 0 4 (w.setWidth 64)

end Sys2Proof.Machine
end

