-- ==== Sys2Proof/Machine/Step.lean ====
section
/-! DEFINITION. The step. The block fetches nothing (spec/10_state.md R21): it acts only when the host accesses it
(spec/60_exceptions.md R262), so a step performs the host's next event, and a write to CMD executes a command to
completion within the same step (R265). -/

namespace Sys2Proof.Machine

/-- R265: CMD <- w, then EXECUTE(w). A word that spells no command raises IllegalCommand (R76, R77, R78). -/
def issue (w : Word) (s : State) : Host.Outcome State Fault Refusal :=
  match decode w with
  | .ok i => exec i { s with cmd := w }
  | .error _ => .next (raiseErr .illegalCommand { s with cmd := w })

/-- One step: the host's next event. With none to come the block waits (spec/70_reset_and_hazards.md R292) and nothing
changes. -/
def step (s : State) : Host.Outcome State Fault Refusal :=
  match s.host with
  | [] => .next s
  | e :: rest =>
    match hostEvent e { s with host := rest } with
    | .done t => .next t
    | .command w t => issue w t
    | .refuse r => .refused r

/-- The state in which the host's next event writes the command word `w` (its low `nbits` bits) to CMD, so that the
very next step executes it. The events already to come follow it. -/
def State.withFetchWord (s : State) (nbits w : Nat) : State :=
  { s with host := cmdWrite (BitVec.ofNat 32 (w % 2 ^ nbits)) :: s.host }

end Sys2Proof.Machine
end

