-- ==== Sys2Proof/Safety.lean ====
section
/-! DEFINITION. The terms in which claims are stated: the invariant of the block, the rows of the opcode table as mask and
match, the host accesses that are allowed, the regions a command may read and write, the host feeding a message to a
unit piece by piece, and the block-wise form of the hash functions. -/

namespace Sys2Proof.Machine

/-- What holds of every state of the block. -/
structure Inv (s : State) : Prop where
  /-- BUF lists buffer addresses only, strictly rising (R35, R59). -/
  memWf : Memory.wf s.mem = true
  /-- CFG always holds a legal value (R27). -/
  cfgOk : cfgLegal s.cfg = true
  /-- Error codes 8 to 15 are never written (R264). -/
  errCodes : s.err.toNat ≤ 7
  /-- The error that ERR shows has its STICKY bit set (R267). -/
  errSticky : ∀ e, s.err = errCode e → s.sticky &&& stickyBit e = stickyBit e
  /-- `HUF_LEN` holds `HUF_NSYM` entries, the others being 0 (R222, R32). -/
  hufLens : s.huf.lens.length = s.huf.nsym.toNat
  /-- `HUF_LEN` has `NSYM_MAX` entries, and no more are listed (R6, R32). -/
  hufSize : s.huf.lens.length ≤ Config.nsymMax
  /-- `HUF_VALID` says whether the table is a complete prefix code (R25, R222). -/
  hufValid : s.huf.valid = hufTableValid (hufTable s)
  /-- Until MD5_FINAL, `MD5_BLKLEN` counts the message's bytes modulo 64 (R29, R132). -/
  md5Count : s.md5.done = false → s.md5.len.toNat % 512 = 8 * s.md5.blkLen.val
  /-- After MD5_FINAL the block buffer is empty (R135). -/
  md5Empty : s.md5.done = true → s.md5.blkLen = 0
  /-- Until SHA1_FINAL, `SHA_BLKLEN` counts the message's bytes modulo 64 (R30, R152). -/
  shaCount : s.sha.done = false → s.sha.len.toNat % 512 = 8 * s.sha.blkLen.val
  /-- After SHA1_FINAL the block buffer is empty (R155). -/
  shaEmpty : s.sha.done = true → s.sha.blkLen = 0

/-- The match and mask of each row of spec/opcode_table.json, in its order. -/
def opcodeTable : List (Word × Word) :=
  [ (0x00, 0xFFFFFFFF), (0x01, 0xFFFFFFFF), (0x02, 0xFFFFFFFF), (0x03, 0xFFFFFFFF), (0x04, 0xFFFFFFFF),
    (0x05, 0xFFFFFFFF), (0x10, 0x000000FF), (0x11, 0x000000FF), (0x12, 0x0000FFFF), (0x13, 0x0000FFFF) ]
  ++ [ (0x20, 0xFFFFFFFF), (0x21, 0xFFFF00FF), (0x22, 0xFFFFFFFF), (0x23, 0xFFFFFFFF),
    (0x30, 0xFFFFFFFF), (0x31, 0xFFFF00FF), (0x32, 0xFFFFFFFF), (0x33, 0xFFFFFFFF) ]
  ++ [ (0x40, 0xFFFFFFFF), (0x41, 0xFFFFFFFF), (0x42, 0xFFFF00FF), (0x43, 0xFFFFFFFF), (0x44, 0xFFFFFFFF),
    (0x45, 0xFFFFFFFF), (0x46, 0xFFFFFFFF), (0x50, 0xFFFFFFFF), (0x51, 0xFFFFFFFF) ]
  ++ [ (0x60, 0xFFFFFFFF), (0x61, 0xFFFFFFFF), (0x62, 0x0000FFFF), (0x70, 0xFFFFFFFF), (0x71, 0xFFFF00FF),
    (0x72, 0xFFFFFFFF), (0x73, 0xFFFFFFFF), (0x74, 0xFFFFFFFF), (0x75, 0xFFFF00FF), (0x76, 0xFFFF00FF),
    (0x77, 0xFFFFFFFF) ]

/-- A word matches a row (R78). -/
def matchesRow (w : Word) (row : Word × Word) : Prop := w &&& row.2 = row.1

/-- R54 for BUF: 1, 2, 4 or 8 bytes of the window at a multiple of the size. -/
def bufAccess (off n : Nat) : Prop := (n = 1 ∨ n = 2 ∨ n = 4 ∨ n = 8) ∧ 0x10000 ≤ off ∧ n ∣ off

/-- The host writes that R54 and R56 allow: CMD, A0, A1 and BUF. -/
def hostWriteAllowed (off n : Nat) : Prop :=
  (n = 4 ∧ off = 0x00) ∨ (n = 8 ∧ (off = 0x08 ∨ off = 0x10))
    ∨ (n = 4 ∧ (off = 0x08 ∨ off = 0x0C ∨ off = 0x10 ∨ off = 0x14)) ∨ bufAccess off n

/-- The host reads that R54 allows: those registers, STATUS, RES and CFG, and BUF. -/
def hostReadAllowed (off n : Nat) : Prop :=
  hostWriteAllowed off n ∨ (n = 4 ∧ (off = 0x04 ∨ off = 0x18 ∨ off = 0x1C ∨ off = 0x20)) ∨ (n = 8 ∧ off = 0x18)

/-- An address lies in a region (R13). -/
def Region.has (r : Region) (a : Nat) : Prop := r.base ≤ a ∧ a < r.base + r.len

/-- The empty region, of a command that names none. -/
def noRegion : Region := ⟨0, 0⟩

/-- A0's source region `(f0, f1)`. -/
def sourceRegion (s : State) : Region := ⟨f0 s.a0, f1 s.a0⟩

/-- The region of BUF a command reads (R59), by its rule. -/
def readRegion (i : Instr) (s : State) : Region :=
  match i with
  | .scDec td off => ⟨fieldAddr s off, fieldSize td⟩
  | .scAdec off => arrayField s off
  | .scAenc _ => arrayRegion s
  | .md5Buf => sourceRegion s
  | .sha1Buf => sourceRegion s
  | .crcBuf => sourceRegion s
  | .lzComp => sourceRegion s
  | .lzDecomp => sourceRegion s
  | .hufLoad => sourceRegion s
  | .hufDecode => sourceRegion s
  | .zcPwBuf => sourceRegion s
  | .zcEnc => sourceRegion s
  | .zcDec => sourceRegion s
  | .zcHdrChk _ => ⟨f0 s.a0, 12⟩
  | .nop | .setCfg | .getCfg | .clrErr | .sreset | .ident | .scEnc _ _ => noRegion
  | .md5Reset | .md5Byte _ | .md5Final | .sha1Reset | .sha1Byte _ | .sha1Final => noRegion
  | .crcInit | .crcLoad | .crcByte _ | .crcRead | .crcRaw | .crcCheck => noRegion
  | .hufCode _ | .zcInit | .zcPwByte _ | .zcKey _ | .zcKsb => noRegion

/-- The region of BUF a command may write (R59), by its rule. -/
def writeRegion (i : Instr) (s : State) : Region :=
  match i with
  | .scEnc td off => ⟨fieldAddr s off, fieldSize td⟩
  | .scAdec _ => arrayRegion s
  | .scAenc off => arrayField s off
  | .md5Final => ⟨f0 s.a0, 16⟩
  | .sha1Final => ⟨f0 s.a0, 20⟩
  | .lzComp => lzDest s
  | .lzDecomp => lzDest s
  | .hufDecode => hufDest s
  | .zcEnc => ⟨f2 s.a0, f1 s.a0⟩
  | .zcDec => ⟨f2 s.a0, f1 s.a0⟩
  | .zcHdrChk _ => ⟨f2 s.a0, 12⟩
  | .nop | .setCfg | .getCfg | .clrErr | .sreset | .ident | .scDec _ _ => noRegion
  | .md5Reset | .md5Byte _ | .md5Buf | .sha1Reset | .sha1Byte _ | .sha1Buf => noRegion
  | .crcInit | .crcLoad | .crcByte _ | .crcBuf | .crcRead | .crcRaw | .crcCheck => noRegion
  | .hufLoad | .hufCode _ | .zcInit | .zcPwByte _ | .zcPwBuf | .zcKey _ | .zcKsb => noRegion

/-- The host feeds the bytes of a message to a unit, by any mix of the unit's one-byte command and its region command,
each ending without an error, and the unit's state goes from `x` to `y`. Between two commands the host may write A0, BUF and
anything else that is not the unit's. -/
inductive Feed (byteCmd : Byte → Instr) (bufCmd : Instr) {α : Type} (unit : State → α) : α → List Byte → α → Prop where
  | done (x : α) : Feed byteCmd bufCmd unit x [] x
  | byte {s t : State} {b : Byte} {m : List Byte} {x y : α} (hx : unit s = x)
      (run : exec (byteCmd b) s = .next t) (good : t.err = 0) (rest : Feed byteCmd bufCmd unit (unit t) m y) :
      Feed byteCmd bufCmd unit x (b :: m) y
  | region {s t : State} {m : List Byte} {x y : α} (hx : unit s = x)
      (run : exec bufCmd s = .next t) (good : t.err = 0) (rest : Feed byteCmd bufCmd unit (unit t) m y) :
      Feed byteCmd bufCmd unit x (regionRead s (sourceRegion s) ++ m) y

/-- The plaintext bytes fed to the cipher's keys by any mix of the commands that feed them (R252). ZC_HDRCHK feeds its 12
plaintext bytes whether or not its check byte matches (R248). -/
inductive ZcFeed : ZcKeys → List Byte → ZcKeys → Prop where
  | done (k : ZcKeys) : ZcFeed k [] k
  | pwByte {s t : State} {b : Byte} {m : List Byte} {k l : ZcKeys} (hk : s.keys = k)
      (run : exec (.zcPwByte b) s = .next t) (rest : ZcFeed t.keys m l) : ZcFeed k (b :: m) l
  | pwBuf {s t : State} {m : List Byte} {k l : ZcKeys} (hk : s.keys = k) (run : exec .zcPwBuf s = .next t)
      (good : t.err = 0) (rest : ZcFeed t.keys m l) : ZcFeed k (memRead s (f0 s.a0) (f1 s.a0) ++ m) l
  | enc {s t : State} {m : List Byte} {k l : ZcKeys} (hk : s.keys = k) (run : exec .zcEnc s = .next t)
      (good : t.err = 0) (rest : ZcFeed t.keys m l) : ZcFeed k (memRead s (f0 s.a0) (f1 s.a0) ++ m) l
  | dec {s t : State} {m : List Byte} {k l : ZcKeys} (hk : s.keys = k) (run : exec .zcDec s = .next t)
      (good : t.err = 0) (rest : ZcFeed t.keys m l) : ZcFeed k (memRead t (f2 s.a0) (f1 s.a0) ++ m) l
  | hdrChk {s t : State} {check : Byte} {m : List Byte} {k l : ZcKeys} (hk : s.keys = k)
      (run : exec (.zcHdrChk check) s = .next t) (good : t.err = 0 ∨ t.err = errCode .integrity)
      (rest : ZcFeed t.keys m l) : ZcFeed k (memRead t (f2 s.a0) 12 ++ m) l

/-- The 64-byte blocks of a padded message, the first block first. -/
def blocks64 (m : List Byte) : List (List Byte) :=
  (List.range (m.length / 64)).map fun j => (m.drop (64 * j)).take 64

/-- A message with its padding: the byte 0x80, zero bytes up to 56 modulo 64, and the message's length in bits, modulo
2^64, in 8 bytes (R135, R156). -/
def paddedMessage (suffix : Nat → Nat → List Byte) (m : List Byte) : List Byte :=
  m ++ 0x80#8 :: List.replicate ((119 - m.length % 64) % 64) 0 ++ suffix (8 * m.length % 2 ^ 64) 8

/-- A hash of a whole message, block by block (R130, R135; R150, R155). -/
def hashMessage {χ : Type} (compress : χ → List Byte → χ) (suffix : Nat → Nat → List Byte) (seed : χ)
    (m : List Byte) : χ := (blocks64 (paddedMessage suffix m)).foldl compress seed

/-- The data at i repeats the data at j for `len` bytes, a match that R195 admits: at most LMAX bytes, within the input. -/
def lzMatches (p : LzParams) (inp : List Byte) (i j len : Nat) : Prop :=
  len ≤ lzMax p ∧ i + len ≤ inp.length ∧ ∀ t < len, inp.getD (j + t) 0 = inp.getD (i + t) 0

/-- The code of a symbol as bits, the first sent first (R221, R224). -/
def hufCodeBits (table : List Byte) (sym : Nat) : List Bool :=
  putBits false (hufCodeOf table sym) (table.getD sym 0).toNat

/-- A symbol is present in a table (R220, R221). -/
def hufPresent (table : List Byte) (sym : Nat) : Prop := sym < table.length ∧ table.getD sym 0 ≠ 0

/-- The code of a present symbol stands whole in the stream at `pos` (R224). -/
def hufCodeAt (table : List Byte) (bo : Bool) (src : List Byte) (pos sym : Nat) : Prop :=
  hufPresent table sym ∧ pos + (table.getD sym 0).toNat ≤ 8 * src.length
    ∧ streamBits bo src pos (table.getD sym 0).toNat = hufCodeBits table sym

/-- The stream ends inside the code that begins at `pos`, before its first bit included (R223): what is left is a proper
prefix of a present symbol's code. -/
def hufEndsInside (table : List Byte) (bo : Bool) (src : List Byte) (pos : Nat) : Prop :=
  ∃ sym, hufPresent table sym ∧ 8 * src.length - pos < (table.getD sym 0).toNat
    ∧ streamBits bo src pos (8 * src.length - pos) <+: hufCodeBits table sym

/-- The stream from `pos` to `next` is the codes of present symbols, one after another (R223, R224). -/
def hufSpells (table : List Byte) (bo : Bool) (src : List Byte) (pos : Nat) (syms : List Nat) (next : Nat) : Prop :=
  (∀ sym ∈ syms, hufPresent table sym) ∧ next = pos + (syms.map fun sym => (table.getD sym 0).toNat).sum
    ∧ next ≤ 8 * src.length ∧ streamBits bo src pos (next - pos) = syms.flatMap (hufCodeBits table)

/-- Commands whose rule writes RES (R75's RES column). -/
def writesRes : Instr → Bool
  | .getCfg | .ident | .scDec _ _ | .crcRead | .crcRaw | .crcCheck | .lzComp | .lzDecomp => true
  | .hufDecode | .hufCode _ | .zcHdrChk _ | .zcKey _ | .zcKsb => true
  | .nop | .setCfg | .clrErr | .sreset | .scEnc _ _ | .scAdec _ | .scAenc _ => false
  | .md5Reset | .md5Byte _ | .md5Buf | .md5Final | .sha1Reset | .sha1Byte _ | .sha1Buf | .sha1Final => false
  | .crcInit | .crcLoad | .crcByte _ | .crcBuf | .hufLoad | .zcInit | .zcPwByte _ | .zcPwBuf | .zcEnc | .zcDec => false

/-- UNIT of a command (R71). -/
def unitOf (i : Instr) : Nat := (encode i).toNat / 16 % 16

end Sys2Proof.Machine
end

