-- ==== Sys2Proof/Certificates/Slice0/Obligations.lean ====
section
/-! DEFINITION. The statements about the block, for the provers. OBLIGATIONS.json lists them with their tiers and the rules
they rest on. Where an equation gives the whole next state by a record update, it is the frame too: every field it does
not name, BUF among them, is unchanged. -/

open Sys2Proof Sys2Proof.Machine

/-! ## Encoding -/

/-- R70, R74, R75: decoding the encoding of any command gives it back, with every immediate at every value. -/
def Obligations.EncodeThenDecodeIsIdentity : Prop := ∀ i : Instr, decode (encode i) = .ok i

/-- R70, R79: a command word has one meaning, and a command stands for exactly one word. -/
def Obligations.DecodedWordIsTheEncoding : Prop := ∀ (w : Word) (i : Instr), decode w = .ok i → encode i = w

/-- R78: a word decodes exactly when it matches a row's mask. -/
def Obligations.WordDecodesExactlyWhenItMatchesARow : Prop :=
  ∀ w : Word, (∃ i, decode w = .ok i) ↔ ∃ row ∈ opcodeTable, matchesRow w row

/-- A word of each unit, written out from R70 and R75, decodes to the command it stands for. -/
def Obligations.SampleWordsDecode : Prop :=
  decode 0x00000001#32 = .ok .setCfg
    ∧ decode 0x00041A10#32 = .ok (.scDec ⟨.w32, false, .dual, .requireMatch, false⟩ 4)
    ∧ decode 0x00006121#32 = .ok (.md5Byte 0x61) ∧ decode 0x00000033#32 = .ok .sha1Final
    ∧ decode 0x00006342#32 = .ok (.crcByte 0x63) ∧ decode 0x00000051#32 = .ok .lzDecomp
    ∧ decode 0x00040062#32 = .ok (.hufCode 4) ∧ decode 0x00003575#32 = .ok (.zcHdrChk 0x35)

/-! ## The step and the host interface -/

/-- R265: a host write of a word to CMD sets CMD and executes the command the word decodes to, all in one step; the
host's later events wait. -/
def Obligations.StepExecutesTheDecodedCommand : Prop :=
  ∀ (s : State) (w : Word) (rest : List HostEvent) (i : Instr),
    s.host = cmdWrite w :: rest → decode w = .ok i → step s = exec i { s with host := rest, cmd := w }

/-- R76: executing a word whose opcode byte is unassigned raises IllegalCommand, and nothing but STATUS changes (CMD
takes the word, R22). -/
def Obligations.UnassignedOpcodesRaiseIllegalCommand : Prop :=
  ∀ (s : State) (w : Word) (rest : List HostEvent), s.host = cmdWrite w :: rest →
    let unit := w.toNat / 16 % 16
    let func := w.toNat % 16
    (unit = 0 ∧ 6 ≤ func) ∨ (unit = 1 ∧ 4 ≤ func) ∨ ((unit = 2 ∨ unit = 3) ∧ 4 ≤ func) ∨ (unit = 4 ∧ 7 ≤ func)
      ∨ (unit = 5 ∧ 2 ≤ func) ∨ (unit = 6 ∧ 3 ≤ func) ∨ (unit = 7 ∧ 8 ≤ func) ∨ 8 ≤ unit →
    step s = .next { s with host := rest, cmd := w, err := 6, sticky := s.sticky ||| 0x20 }

/-- R77: a non-zero must-be-zero field, and an illegal value of a used field (an illegal TD, or a ZC_KEY index above 2),
raise IllegalCommand and change nothing else; and 0x00000000 is the only NOP. -/
def Obligations.IllegalFieldsRaiseIllegalCommand : Prop :=
  (∀ (s : State) (w : Word) (rest : List HostEvent), s.host = cmdWrite w :: rest →
      (∃ row ∈ opcodeTable, w &&& 0xFF = row.1 ∧ ¬ matchesRow w row) ∨ (∃ i, decode w = .ok i ∧ i.wellFormed = false) →
      step s = .next { s with host := rest, cmd := w, err := 6, sticky := s.sticky ||| 0x20 })
    ∧ ∀ w : Word, decode w = .ok .nop ↔ w = 0

/-- R54, R56: a host access is refused exactly when its offset and width are not allowed to it: an access to 0x00024 to
0x0FFFF, a write to STATUS, RES or CFG, a misaligned or wrong-width access. -/
def Obligations.HostAccessRefusedExactlyWhenNotAllowed : Prop :=
  ∀ (s : State) (off : BitVec 17) (n : Nat) (v : DWord) (rest : List HostEvent),
    (s.host = .read off n :: rest → ((∃ r, step s = .refused r) ↔ ¬ hostReadAllowed off.toNat n))
    ∧ (s.host = .write off n v :: rest → ((∃ r, step s = .refused r) ↔ ¬ hostWriteAllowed off.toNat n))

/-- R20, R51, R52, R57: a host read of a register returns it, and of a 64-bit register's half that half; a host read of n
bytes of the BUF window returns them, the byte at the lowest address being the least significant. No read has a side
effect. -/
def Obligations.HostReadsReturnTheirBytesLittleEndian : Prop :=
  (∀ (s : State) (rest : List HostEvent) (off n : Nat) (v : DWord),
    (off, n, v) ∈
      [ (0x00, 4, s.cmd.setWidth 64), (0x04, 4, (statusWord s).setWidth 64), (0x20, 4, s.cfg.setWidth 64),
        (0x08, 8, s.a0), (0x08, 4, s.a0 &&& 0xFFFFFFFF), (0x0C, 4, s.a0 >>> 32),
        (0x10, 8, s.a1), (0x10, 4, s.a1 &&& 0xFFFFFFFF), (0x14, 4, s.a1 >>> 32),
        (0x18, 8, s.res), (0x18, 4, s.res &&& 0xFFFFFFFF), (0x1C, 4, s.res >>> 32) ] →
    s.host = .read (BitVec.ofNat 17 off) n :: rest → step s = .next { s with host := rest, hostData := v })
  ∧ ∀ (s : State) (rest : List HostEvent) (off : BitVec 17) (n : Nat),
    s.host = .read off n :: rest → bufAccess off.toNat n →
    ∃ v : DWord, step s = .next { s with host := rest, hostData := v }
      ∧ v.toNat = (Finset.range n).sum fun i => (bufByte s (off.toNat - 0x10000 + i)).toNat * 256 ^ i

/-- R23, R51, R52: the host writes A0 and A1 whole or by halves, a 32-bit write leaving the other half unchanged; a host
write of n bytes to the BUF window stores the value's bytes, least significant first, and changes no other byte and no
register. -/
def Obligations.HostWritesStoreTheirBytesLittleEndian : Prop :=
  (∀ (s : State) (rest : List HostEvent) (v : DWord),
    (s.host = .write 0x08 8 v :: rest → step s = .next { s with host := rest, a0 := v })
    ∧ (s.host = .write 0x08 4 v :: rest →
        step s = .next { s with host := rest, a0 := (s.a0 &&& 0xFFFFFFFF00000000) ||| (v &&& 0xFFFFFFFF) })
    ∧ (s.host = .write 0x0C 4 v :: rest →
        step s = .next { s with host := rest, a0 := (s.a0 &&& 0xFFFFFFFF) ||| (v <<< 32) })
    ∧ (s.host = .write 0x10 8 v :: rest → step s = .next { s with host := rest, a1 := v })
    ∧ (s.host = .write 0x10 4 v :: rest →
        step s = .next { s with host := rest, a1 := (s.a1 &&& 0xFFFFFFFF00000000) ||| (v &&& 0xFFFFFFFF) })
    ∧ (s.host = .write 0x14 4 v :: rest →
        step s = .next { s with host := rest, a1 := (s.a1 &&& 0xFFFFFFFF) ||| (v <<< 32) }))
  ∧ ∀ (s : State) (rest : List HostEvent) (off : BitVec 17) (n : Nat) (v : DWord),
    s.host = .write off n v :: rest → bufAccess off.toNat n →
    ∃ t, step s = .next t ∧ t = { s with host := rest, mem := t.mem }
      ∧ (∀ i < n, bufByte t (off.toNat - 0x10000 + i) = v.extractLsb' (8 * i) 8)
      ∧ ∀ a, ¬ (off.toNat - 0x10000 ≤ a ∧ a < off.toNat - 0x10000 + n) → bufByte t a = bufByte s a

/-- R25: STATUS as the host reads it, every reserved bit 0. -/
def Obligations.StatusFieldsStandWhereTheyShould : Prop :=
  ∀ s : State, (statusWord s).extractLsb' 0 4 = s.err ∧ (statusWord s).extractLsb' 4 4 = 0
    ∧ (statusWord s).extractLsb' 8 7 = s.sticky ∧ (statusWord s).getLsbD 15 = false
    ∧ (statusWord s).getLsbD 16 = s.md5.done ∧ (statusWord s).getLsbD 17 = s.sha.done
    ∧ (statusWord s).getLsbD 18 = s.huf.valid ∧ (statusWord s).extractLsb' 19 13 = 0

/-! ## Reset and the invariant -/

/-- R40, R290: reset, whatever the state before it, leaves every register and unit at its reset value. BUF's bytes and the
block buffers' bytes are unspecified, so nothing is said of them. -/
def Obligations.ResetLeavesTheValuesOfTheSpec : Prop :=
  ∀ (s : State) (rest : List HostEvent), s.host = .reset :: rest →
    ∃ t, step s = .next t ∧ t.cmd = 0 ∧ statusWord t = 0 ∧ t.a0 = 0 ∧ t.a1 = 0 ∧ t.res = 0
      ∧ t.cfg = 0x080D0D00 ∧ t.crcReg = 0xFFFFFFFF
      ∧ t.md5.chain = ⟨0x67452301, 0xEFCDAB89, 0x98BADCFE, 0x10325476⟩ ∧ t.md5.blkLen = 0 ∧ t.md5.len = 0
      ∧ t.sha.chain = ⟨0x67452301, 0xEFCDAB89, 0x98BADCFE, 0x10325476, 0xC3D2E1F0⟩ ∧ t.sha.blkLen = 0 ∧ t.sha.len = 0
      ∧ (∀ sym, t.huf.lens.getD sym 0 = 0) ∧ t.huf.nsym = 0
      ∧ t.keys = ⟨0x12345678, 0x23456789, 0x34567890⟩

/-- The invariant holds after reset. -/
def Obligations.ResetMeetsTheInvariant : Prop := Inv State.reset

/-- R27, R32, R35, R59, R132, R135, R264, R267: every step keeps the invariant, whatever the host does. -/
def Obligations.EveryStepKeepsTheInvariant : Prop := ∀ s t : State, Inv s → step s = .next t → Inv t

/-! ## Rules of every command -/

/-- R260: every command completes, with success or with an error; none faults and none is refused. -/
def Obligations.EveryCommandCompletes : Prop := ∀ (i : Instr) (s : State), ∃ t, exec i s = .next t

/-- R264, R267: a command ends with ERR = 0 and STICKY as it was, or with an error's code and that error's STICKY bit
set; only CLRERR and SRESET clear STICKY. -/
def Obligations.EveryCommandRecordsItsOutcome : Prop :=
  ∀ (i : Instr) (s t : State), exec i s = .next t →
    (t.err = 0 ∧ t.sticky = s.sticky ∧ i ≠ .clrErr ∧ i ≠ .sreset)
    ∨ (t.err = 0 ∧ t.sticky = 0 ∧ (i = .clrErr ∨ i = .sreset))
    ∨ ∃ k : Nat, 1 ≤ k ∧ k ≤ 7 ∧ t.err = BitVec.ofNat 4 k ∧ t.sticky = s.sticky ||| BitVec.ofNat 7 (2 ^ (k - 1))

/-- R266: a command that ends with IllegalCommand or UnsupportedFeatureError, which are check-phase errors of every
command, has changed nothing but STATUS; and so has one that ends with BoundsError, except that LZ_COMP writes RES. -/
def Obligations.CheckErrorsChangeOnlyStatus : Prop :=
  ∀ (i : Instr) (s t : State), exec i s = .next t →
    (t.err = 6 → t = { s with err := 6, sticky := s.sticky ||| 0x20 })
    ∧ (t.err = 5 → t = { s with err := 5, sticky := s.sticky ||| 0x10 })
    ∧ (t.err = 7 → t = { s with err := 7, sticky := s.sticky ||| 0x40, res := t.res })
    ∧ (t.err = 7 → i ≠ .lzComp → t.res = s.res)

/-- R22, R23, R24, R26, R38: no command writes CMD, A0 or A1 or acts for the host, and each unit's state changes only by that
unit's commands and SRESET. -/
def Obligations.CommandsWriteOnlyTheirOwnState : Prop :=
  ∀ (i : Instr) (s t : State), exec i s = .next t →
    t.cmd = s.cmd ∧ t.a0 = s.a0 ∧ t.a1 = s.a1 ∧ t.host = s.host ∧ t.hostData = s.hostData ∧ t.resets = s.resets
    ∧ (i ≠ .setCfg → i ≠ .sreset → t.cfg = s.cfg)
    ∧ (unitOf i ≠ 2 → i ≠ .sreset → t.md5 = s.md5)
    ∧ (unitOf i ≠ 3 → i ≠ .sreset → t.sha = s.sha)
    ∧ (unitOf i ≠ 4 → i ≠ .sreset → t.crcReg = s.crcReg)
    ∧ (i ≠ .hufLoad → i ≠ .sreset → t.huf = s.huf)
    ∧ (unitOf i ≠ 7 → i ≠ .sreset → t.keys = s.keys)
    ∧ (writesRes i = false → t.res = s.res)

/-- R59: a command changes no byte of BUF outside the region its rule names as destination, and none outside BUF. -/
def Obligations.CommandsWriteInsideTheirRegion : Prop :=
  ∀ (i : Instr) (s t : State) (a : Nat), exec i s = .next t → bufByte t a ≠ bufByte s a →
    (writeRegion i s).has a ∧ a < 65536

/-- R59, R227: a command reads no byte of BUF outside the region its rule names as source. Two runs whose BUFs agree
there end with every register and unit equal, and each byte either ends equal in both or is left alone by both. -/
def Obligations.CommandsReadInsideTheirRegion : Prop :=
  ∀ (i : Instr) (s t u : State) (m : Memory),
    (∀ a, (readRegion i s).has a → bufByte { s with mem := m } a = bufByte s a) →
    exec i s = .next t → exec i { s with mem := m } = .next u →
    u = { t with mem := u.mem }
    ∧ ∀ a, bufByte u a = bufByte t a ∨ (bufByte t a = bufByte s a ∧ bufByte u a = bufByte { s with mem := m } a)

/-- R13, R66, R243: a command whose region leaves BUF, or whose source and destination overlap where its rule refuses that,
raises BoundsError and changes only STATUS (the checks before it having passed). -/
def Obligations.RegionChecksRaiseBoundsError : Prop :=
  ∀ s : State,
    let refusedBy (i : Instr) : Prop := exec i s = .next { s with err := 7, sticky := s.sticky ||| 0x40 }
    (65536 < f0 s.a0 + f1 s.a0 →
        (s.md5.done = false → refusedBy .md5Buf) ∧ (s.sha.done = false → refusedBy .sha1Buf) ∧ refusedBy .crcBuf
        ∧ refusedBy .lzComp ∧ refusedBy .lzDecomp ∧ refusedBy .hufLoad
        ∧ (s.huf.valid = true → refusedBy .hufDecode) ∧ refusedBy .zcPwBuf ∧ refusedBy .zcEnc ∧ refusedBy .zcDec)
    ∧ (65536 < f0 s.a0 + 16 → refusedBy .md5Final)
    ∧ (65536 < f0 s.a0 + 20 → refusedBy .sha1Final)
    ∧ (65536 < f2 s.a0 + f3 s.a0 → refusedBy .lzComp ∧ refusedBy .lzDecomp)
    ∧ (s.huf.valid = true → 65536 < f2 s.a0 + 2 * f3 s.a0 → refusedBy .hufDecode)
    ∧ (s.huf.valid = true → 8 * f1 s.a0 < (low32 s.a1).toNat → refusedBy .hufDecode)
    ∧ (65536 < f2 s.a0 + f1 s.a0 → refusedBy .zcEnc ∧ refusedBy .zcDec)
    ∧ (65536 < f0 s.a0 + 12 ∨ 65536 < f2 s.a0 + 12 → ∀ check, refusedBy (.zcHdrChk check))
    ∧ (∀ a, (lzSource s).has a → (lzDest s).has a → refusedBy .lzComp ∧ refusedBy .lzDecomp)
    ∧ (s.huf.valid = true → ∀ a, (hufSource s).has a → (hufDest s).has a → refusedBy .hufDecode)
    ∧ (f0 s.a0 ≠ f2 s.a0 → ∀ a, (sourceRegion s).has a → (Region.mk (f2 s.a0) (f1 s.a0)).has a →
        refusedBy .zcEnc ∧ refusedBy .zcDec)
    ∧ (f0 s.a0 ≠ f2 s.a0 → ∀ a, (Region.mk (f0 s.a0) 12).has a → (Region.mk (f2 s.a0) 12).has a →
        ∀ check, refusedBy (.zcHdrChk check))

/-! ## Control unit -/

/-- R100, R102, R103, R105: NOP, GETCFG, CLRERR and ID complete in every state with these effects and no other. -/
def Obligations.PlainControlCommandsEffects : Prop :=
  ∀ s : State, exec .nop s = .next { s with err := 0 }
    ∧ exec .getCfg s = .next { s with res := s.cfg.setWidth 64, err := 0 }
    ∧ exec .clrErr s = .next { s with sticky := 0, err := 0 }
    ∧ exec .ident s = .next { s with res := 0x0000000148414D49, err := 0 }

/-- R101: SETCFG writes a legal value and no other state; a reserved bit or a misshapen value is IllegalCommand before a too
wide one is UnsupportedFeatureError, and neither changes CFG. -/
def Obligations.SetCfgAcceptsTheLegalValues : Prop :=
  ∀ s : State,
    let v := s.a0.toNat % 2 ^ 32
    let wb := v / 2 ^ 8 % 32
    let ob := v / 2 ^ 16 % 32
    let lb := v / 2 ^ 24 % 32
    let misfit : Prop := v &&& 0xE0E0E0FE ≠ 0 ∨ ob = 0 ∨ lb = 0 ∨ wb < ob
    (¬ misfit → wb ≤ 16 → lb ≤ 16 → exec .setCfg s = .next { s with cfg := BitVec.ofNat 32 v, err := 0 })
    ∧ (misfit → exec .setCfg s = .next { s with err := 6, sticky := s.sticky ||| 0x20 })
    ∧ (¬ misfit → 16 < wb ∨ 16 < lb → exec .setCfg s = .next { s with err := 5, sticky := s.sticky ||| 0x10 })

/-- R104, R291: SRESET sets every unit and STICKY to what reset sets, leaves CMD holding its own word, and leaves A0, A1, RES
and BUF unchanged. (Of the block buffers' bytes, which no rule reads before they are written, nothing is said.) -/
def Obligations.SresetRestoresTheUnits : Prop :=
  ∀ s : State, ∃ t, exec .sreset s = .next t
    ∧ t = { s with
        err := 0, sticky := 0, cfg := 0x080D0D00, crcReg := 0xFFFFFFFF, md5 := t.md5, sha := t.sha,
        huf := ⟨[], 0, false⟩, keys := ⟨0x12345678, 0x23456789, 0x34567890⟩ }
    ∧ t.md5.chain = ⟨0x67452301, 0xEFCDAB89, 0x98BADCFE, 0x10325476⟩
    ∧ t.md5.blkLen = 0 ∧ t.md5.len = 0 ∧ t.md5.done = false
    ∧ t.sha.chain = ⟨0x67452301, 0xEFCDAB89, 0x98BADCFE, 0x10325476, 0xC3D2E1F0⟩
    ∧ t.sha.blkLen = 0 ∧ t.sha.len = 0 ∧ t.sha.done = false

/-! ## Struct codec -/

/-- R110, R112: SC_DEC of a field that is not dual, legal and inside its region, sets RES to the field's bytes read little-
or big-endian (native being the open parameter) and extended to 64 bits, and changes nothing else. -/
def Obligations.ScDecReadsAPlainField : Prop :=
  ∀ (s : State) (td : FieldDesc) (off : Half),
    let n := widthBytes td.width
    let a := fieldAddr s off
    td.wellFormed = true → td.order ≠ .dual → f0 s.a0 + f1 s.a0 ≤ 65536 → off.toNat + n ≤ f1 s.a0 →
    ∃ u : Nat, exec (.scDec td off) s
        = .next { s with
            res := if td.signed then (BitVec.ofNat (8 * n) u).signExtend 64 else BitVec.ofNat 64 u, err := 0 }
      ∧ (td.order = .little ∨ (td.order = .native ∧ Config.nativeEndian = .little) →
          u = (Finset.range n).sum fun i => (bufByte s (a + i)).toNat * 256 ^ i)
      ∧ (td.order = .big ∨ (td.order = .native ∧ Config.nativeEndian = .big) →
          u = (Finset.range n).sum fun i => (bufByte s (a + i)).toNat * 256 ^ (n - 1 - i))

/-- R110, R112, R117: SC_DEC of a dual field takes the copy its policy prefers; under `require_match` it takes either when
they agree, and raises FormatError, changing nothing else, when they do not. -/
def Obligations.ScDecTreatsADualFieldByItsPolicy : Prop :=
  ∀ (s : State) (td : FieldDesc) (off : Half),
    let n := widthBytes td.width
    let a := fieldAddr s off
    let lo := (Finset.range n).sum fun i => (bufByte s (a + i)).toNat * 256 ^ i
    let hi := (Finset.range n).sum fun i => (bufByte s (a + n + i)).toNat * 256 ^ (n - 1 - i)
    let answer (u : Nat) : DWord :=
      if td.signed then (BitVec.ofNat (8 * n) u).signExtend 64 else BitVec.ofNat 64 u
    td.wellFormed = true → td.order = .dual → f0 s.a0 + f1 s.a0 ≤ 65536 → off.toNat + 2 * n ≤ f1 s.a0 →
    (td.policy = .requireMatch → lo = hi → exec (.scDec td off) s = .next { s with res := answer lo, err := 0 })
    ∧ (td.policy = .requireMatch → lo ≠ hi →
        exec (.scDec td off) s = .next { s with err := 1, sticky := s.sticky ||| 0x01 })
    ∧ (td.policy = .preferLittle → exec (.scDec td off) s = .next { s with res := answer lo, err := 0 })
    ∧ (td.policy = .preferBig → exec (.scDec td off) s = .next { s with res := answer hi, err := 0 })

/-- R113: SC_ENC of a value in the field's range stores its bytes at the field, least significant first, most significant
first, or both copies of a dual field, and changes no other byte and no register but ERR. -/
def Obligations.ScEncStoresTheField : Prop :=
  ∀ (s : State) (td : FieldDesc) (off : Half),
    let n := widthBytes td.width
    let a := fieldAddr s off
    td.wellFormed = true → f0 s.a0 + f1 s.a0 ≤ 65536 → off.toNat + fieldSize td ≤ f1 s.a0 →
    (if td.signed then (s.a1.setWidth (8 * n)).signExtend 64 = s.a1 else s.a1.toNat < 2 ^ (8 * n)) →
    ∃ t, exec (.scEnc td off) s = .next t ∧ t = { s with mem := t.mem, err := 0 }
      ∧ (∀ x, ¬ (a ≤ x ∧ x < a + fieldSize td) → bufByte t x = bufByte s x)
      ∧ (td.order = .little ∨ td.order = .dual ∨ (td.order = .native ∧ Config.nativeEndian = .little) →
          ∀ i < n, bufByte t (a + i) = s.a1.extractLsb' (8 * i) 8)
      ∧ (td.order = .big ∨ (td.order = .native ∧ Config.nativeEndian = .big) →
          ∀ i < n, bufByte t (a + i) = s.a1.extractLsb' (8 * (n - 1 - i)) 8)
      ∧ (td.order = .dual → ∀ i < n, bufByte t (a + n + i) = s.a1.extractLsb' (8 * (n - 1 - i)) 8)

/-- R112 to R115: the struct commands' checks in their order, each error changing only STATUS. -/
def Obligations.StructCommandsCheckInOrder : Prop :=
  ∀ (s : State) (td : FieldDesc) (off : Half),
    let illegal : Result := .next { s with err := 6, sticky := s.sticky ||| 0x20 }
    let outside : Result := .next { s with err := 7, sticky := s.sticky ||| 0x40 }
    let short : Result := .next { s with err := 4, sticky := s.sticky ||| 0x08 }
    (td.wellFormed = false → exec (.scDec td off) s = illegal ∧ exec (.scEnc td off) s = illegal)
    ∧ (65536 < f0 s.a0 + f1 s.a0 →
        (td.wellFormed = true → exec (.scDec td off) s = outside ∧ exec (.scEnc td off) s = outside)
        ∧ exec (.scAdec off) s = outside ∧ exec (.scAenc off) s = outside)
    ∧ (f0 s.a0 + f1 s.a0 ≤ 65536 →
        (td.wellFormed = true → f1 s.a0 < off.toNat + fieldSize td →
            exec (.scDec td off) s = short ∧ exec (.scEnc td off) s = outside)
        ∧ (td.wellFormed = true → off.toNat + fieldSize td ≤ f1 s.a0 →
            (if td.signed then (s.a1.setWidth (8 * widthBytes td.width)).signExtend 64 ≠ s.a1
              else 2 ^ (8 * widthBytes td.width) ≤ s.a1.toNat) →
            exec (.scEnc td off) s = .next { s with err := 1, sticky := s.sticky ||| 0x01 })
        ∧ (65536 < f0 s.a1 + f1 s.a1 → exec (.scAdec off) s = outside ∧ exec (.scAenc off) s = outside)
        ∧ (f0 s.a1 + f1 s.a1 ≤ 65536 → f1 s.a0 < off.toNat + f1 s.a1 →
            exec (.scAdec off) s = short ∧ exec (.scAenc off) s = outside)
        ∧ (f0 s.a1 + f1 s.a1 ≤ 65536 → off.toNat + f1 s.a1 ≤ f1 s.a0 →
            (∃ x, (arrayField s off).has x ∧ (arrayRegion s).has x) →
            exec (.scAdec off) s = outside ∧ exec (.scAenc off) s = outside))

/-- R114, R115: SC_ADEC and SC_AENC copy the array's bytes out of and into the struct region, and change no other byte and
no register but ERR. (SC_ADEC's destination may lie in the struct region apart from the field, as R114 and vector SC-20 have
it, against R111's words: the model's choice, log entry 14.) With the destination outside the struct region, as R111 takes
it, neither SC_DEC nor SC_ADEC changes a byte of the struct region, so a field decodes alike before and after another; and
a field of a sub-struct at offset o decodes as the field at o + off of the struct does. -/
def Obligations.ArrayCommandsCopyTheBytes : Prop :=
  (∀ (s : State) (off : Half),
    f0 s.a0 + f1 s.a0 ≤ 65536 → f0 s.a1 + f1 s.a1 ≤ 65536 → off.toNat + f1 s.a1 ≤ f1 s.a0 →
    (∀ x, ¬ ((arrayField s off).has x ∧ (arrayRegion s).has x)) →
    (∃ t, exec (.scAdec off) s = .next t ∧ t = { s with mem := t.mem, err := 0 }
      ∧ (∀ i < f1 s.a1, bufByte t (f0 s.a1 + i) = bufByte s (fieldAddr s off + i))
      ∧ ∀ x, ¬ (arrayRegion s).has x → bufByte t x = bufByte s x)
    ∧ ∃ t, exec (.scAenc off) s = .next t ∧ t = { s with mem := t.mem, err := 0 }
      ∧ (∀ i < f1 s.a1, bufByte t (fieldAddr s off + i) = bufByte s (f0 s.a1 + i))
      ∧ ∀ x, ¬ (arrayField s off).has x → bufByte t x = bufByte s x)
  ∧ (∀ (i : Instr) (s t : State) (x : DWord),
    ((∃ td off, i = .scDec td off)
      ∨ ((∃ off, i = .scAdec off) ∧ ∀ a, ¬ ((structRegion s).has a ∧ (arrayRegion s).has a))) →
    exec i s = .next t →
    (∀ a, (structRegion s).has a → bufByte t a = bufByte s a)
    ∧ (∀ td off u v, exec (.scDec td off) s = .next u → exec (.scDec td off) t = .next v →
      v.err = u.err ∧ (u.err = 0 → v.res = u.res))
    ∧ ∀ off u v, exec (.scAdec off) { s with a1 := x } = .next u → exec (.scAdec off) { t with a1 := x } = .next v →
      v.err = u.err ∧ (u.err = 0 → memRead v (f0 x) (f1 x) = memRead u (f0 x) (f1 x)))
  ∧ ∀ (s : State) (y : DWord) (td : FieldDesc) (o : Nat) (off : Half),
    let whole : Half := BitVec.ofNat 16 (o + off.toNat)
    f0 s.a0 + f1 s.a0 ≤ 65536 → f0 y = f0 s.a0 + o → o + f1 y ≤ f1 s.a0 →
    (off.toNat + fieldSize td ≤ f1 y →
        ∃ u, exec (.scDec td whole) s = .next u ∧ exec (.scDec td off) { s with a0 := y } = .next { u with a0 := y })
    ∧ (off.toNat + f1 s.a1 ≤ f1 y →
        ∃ u, exec (.scAdec whole) s = .next u ∧ exec (.scAdec off) { s with a0 := y } = .next { u with a0 := y })

/-- R116: SC_ENC of a value in range, then SC_DEC with the same TD, off and region, gives the value back, for dual fields
under all three policies; and SC_AENC, then SC_ADEC of the same field, returns the bytes written. -/
def Obligations.StructFieldsRoundTrip : Prop :=
  (∀ (s : State) (td : FieldDesc) (off : Half),
      td.wellFormed = true → f0 s.a0 + f1 s.a0 ≤ 65536 → off.toNat + fieldSize td ≤ f1 s.a0 →
      fieldOutOfRange td s.a1 = false →
      ∃ t u, exec (.scEnc td off) s = .next t ∧ exec (.scDec td off) t = .next u ∧ u.err = 0 ∧ u.res = s.a1
        ∧ ∀ p, td.order = .dual → p ≠ .reserved →
            ∃ v, exec (.scDec { td with policy := p } off) t = .next v ∧ v.err = 0 ∧ v.res = s.a1)
    ∧ ∀ (s t u : State) (off : Half) (x : DWord), exec (.scAenc off) s = .next t → t.err = 0 → f1 x = f1 s.a1 →
        exec (.scAdec off) { t with a1 := x } = .next u → u.err = 0 →
        memRead u (f0 x) (f1 x) = memRead s (f0 s.a1) (f1 s.a1)

/-! ## Hash cores -/

/-- R131, R151: MD5_RESET and SHA1_RESET start a new message and change nothing else. (Of the block buffer's bytes, which
the rules do not name, nothing is said.) -/
def Obligations.HashResetsStartAMessage : Prop :=
  ∀ s : State,
    (∃ t, exec .md5Reset s = .next t ∧ t = { s with md5 := t.md5, err := 0 }
      ∧ t.md5.chain = ⟨0x67452301, 0xEFCDAB89, 0x98BADCFE, 0x10325476⟩
      ∧ t.md5.blkLen = 0 ∧ t.md5.len = 0 ∧ t.md5.done = false)
    ∧ ∃ t, exec .sha1Reset s = .next t ∧ t = { s with sha := t.sha, err := 0 }
      ∧ t.sha.chain = ⟨0x67452301, 0xEFCDAB89, 0x98BADCFE, 0x10325476, 0xC3D2E1F0⟩
      ∧ t.sha.blkLen = 0 ∧ t.sha.len = 0 ∧ t.sha.done = false

/-- R132, R152: MD5_BYTE and SHA1_BYTE put the byte at the end of the block buffer and count 8 bits; the 64th byte
compresses the block into the chaining words. After FINAL they are refused with IllegalCommand. -/
def Obligations.HashByteCommandsAbsorbOneByte : Prop :=
  ∀ (s : State) (b : Byte),
    (s.md5.done = false → ∃ t, exec (.md5Byte b) s = .next t ∧ t = { s with md5 := t.md5, err := 0 }
      ∧ t.md5.len = s.md5.len + 8 ∧ t.md5.done = false
      ∧ t.md5.blk.toList = s.md5.blk.toList.set s.md5.blkLen.val b
      ∧ (s.md5.blkLen.val < 63 → t.md5.chain = s.md5.chain ∧ t.md5.blkLen.val = s.md5.blkLen.val + 1)
      ∧ (s.md5.blkLen.val = 63 → t.md5.chain = md5Compress s.md5.chain t.md5.blk.toList ∧ t.md5.blkLen = 0))
    ∧ (s.md5.done = true → exec (.md5Byte b) s = .next { s with err := 6, sticky := s.sticky ||| 0x20 })
    ∧ (s.sha.done = false → ∃ t, exec (.sha1Byte b) s = .next t ∧ t = { s with sha := t.sha, err := 0 }
      ∧ t.sha.len = s.sha.len + 8 ∧ t.sha.done = false
      ∧ t.sha.blk.toList = s.sha.blk.toList.set s.sha.blkLen.val b
      ∧ (s.sha.blkLen.val < 63 → t.sha.chain = s.sha.chain ∧ t.sha.blkLen.val = s.sha.blkLen.val + 1)
      ∧ (s.sha.blkLen.val = 63 → t.sha.chain = sha1Compress s.sha.chain t.sha.blk.toList ∧ t.sha.blkLen = 0))
    ∧ (s.sha.done = true → exec (.sha1Byte b) s = .next { s with err := 6, sticky := s.sticky ||| 0x20 })

/-- R133, R153: MD5_BUF and SHA1_BUF absorb the bytes of their region in order and change nothing else; an empty region
changes nothing, and after FINAL they are refused with IllegalCommand. -/
def Obligations.HashRegionCommandsAbsorbTheirRegion : Prop :=
  ∀ s : State,
    (s.md5.done = false → f0 s.a0 + f1 s.a0 ≤ 65536 → ∃ t, exec .md5Buf s = .next t
      ∧ t = { s with md5 := t.md5, err := 0 } ∧ t.md5.done = false
      ∧ t.md5 = (memRead s (f0 s.a0) (f1 s.a0)).foldl md5Absorb s.md5
      ∧ t.md5.len = s.md5.len + BitVec.ofNat 64 (8 * f1 s.a0)
      ∧ t.md5.blkLen.val = (s.md5.blkLen.val + f1 s.a0) % 64)
    ∧ (s.md5.done = true → exec .md5Buf s = .next { s with err := 6, sticky := s.sticky ||| 0x20 })
    ∧ (s.sha.done = false → f0 s.a0 + f1 s.a0 ≤ 65536 → ∃ t, exec .sha1Buf s = .next t
      ∧ t = { s with sha := t.sha, err := 0 } ∧ t.sha.done = false
      ∧ t.sha = (memRead s (f0 s.a0) (f1 s.a0)).foldl sha1Absorb s.sha
      ∧ t.sha.len = s.sha.len + BitVec.ofNat 64 (8 * f1 s.a0)
      ∧ t.sha.blkLen.val = (s.sha.blkLen.val + f1 s.a0) % 64)
    ∧ (s.sha.done = true → exec .sha1Buf s = .next { s with err := 6, sticky := s.sticky ||| 0x20 })

/-- R137, R153, R175, R245: any two ways of splitting one message over a unit's one-byte and region commands leave the
unit in the same state: MD5 (from MD5_RESET), and SHA-1, CRC_REG and the cipher's keys from any state. -/
def Obligations.UnitsDoNotDependOnTheSplitOfAMessage : Prop :=
  (∀ (s r : State) (m : List Byte) (x y : HashCore Md5Chain), exec .md5Reset s = .next r →
      Feed .md5Byte .md5Buf State.md5 r.md5 m x → Feed .md5Byte .md5Buf State.md5 r.md5 m y → x = y)
    ∧ (∀ (m : List Byte) (c x y : HashCore Sha1Chain),
        Feed .sha1Byte .sha1Buf State.sha c m x → Feed .sha1Byte .sha1Buf State.sha c m y → x = y)
    ∧ (∀ (m : List Byte) (c x y : Word),
        Feed .crcByte .crcBuf State.crcReg c m x → Feed .crcByte .crcBuf State.crcReg c m y → x = y)
    ∧ ∀ (m : List Byte) (c x y : ZcKeys),
        Feed .zcPwByte .zcPwBuf State.keys c m x → Feed .zcPwByte .zcPwBuf State.keys c m y → x = y

/-- R134, R154: MD5_FINAL and SHA1_FINAL write the digest, MD5's words little-endian and SHA-1's big-endian, word 0 first,
and set DONE; a repeated FINAL writes the same digest and changes no unit state. Nothing else changes. -/
def Obligations.FinalCommandsWriteTheDigest : Prop :=
  ∀ s : State,
    (f0 s.a0 + 16 ≤ 65536 → ∃ t, exec .md5Final s = .next t ∧ t = { s with mem := t.mem, md5 := t.md5, err := 0 }
      ∧ t.md5.done = true ∧ (s.md5.done = true → t.md5 = s.md5)
      ∧ (∀ k < 4, bufByte t (f0 s.a0 + k) = t.md5.chain.h0.extractLsb' (8 * k) 8
          ∧ bufByte t (f0 s.a0 + 4 + k) = t.md5.chain.h1.extractLsb' (8 * k) 8
          ∧ bufByte t (f0 s.a0 + 8 + k) = t.md5.chain.h2.extractLsb' (8 * k) 8
          ∧ bufByte t (f0 s.a0 + 12 + k) = t.md5.chain.h3.extractLsb' (8 * k) 8)
      ∧ ∀ a, ¬ (f0 s.a0 ≤ a ∧ a < f0 s.a0 + 16) → bufByte t a = bufByte s a)
    ∧ (f0 s.a0 + 20 ≤ 65536 → ∃ t, exec .sha1Final s = .next t
      ∧ t = { s with mem := t.mem, sha := t.sha, err := 0 }
      ∧ t.sha.done = true ∧ (s.sha.done = true → t.sha = s.sha)
      ∧ (∀ k < 4, bufByte t (f0 s.a0 + k) = t.sha.chain.h0.extractLsb' (8 * (3 - k)) 8
          ∧ bufByte t (f0 s.a0 + 4 + k) = t.sha.chain.h1.extractLsb' (8 * (3 - k)) 8
          ∧ bufByte t (f0 s.a0 + 8 + k) = t.sha.chain.h2.extractLsb' (8 * (3 - k)) 8
          ∧ bufByte t (f0 s.a0 + 12 + k) = t.sha.chain.h3.extractLsb' (8 * (3 - k)) 8
          ∧ bufByte t (f0 s.a0 + 16 + k) = t.sha.chain.h4.extractLsb' (8 * (3 - k)) 8)
      ∧ ∀ a, ¬ (f0 s.a0 ≤ a ∧ a < f0 s.a0 + 20) → bufByte t a = bufByte s a)

/-- R130, R135, R150, R155: reset a core, feed it a message in any pieces, and finalise it: the chaining words are those of
the padded message compressed block by block, the block buffer is empty and the length is the message's. A block is
compressed by the 64 rounds of R130 (with the table K of R136) or the 80 rounds of R150, and the digests of the empty
message and of "abc" are those of vectors S1 to S4. -/
def Obligations.DigestIsThatOfThePaddedMessage : Prop :=
  (∀ (s r u t : State) (m : List Byte), exec .md5Reset s = .next r →
      Feed .md5Byte .md5Buf State.md5 r.md5 m u.md5 → f0 u.a0 + 16 ≤ 65536 → exec .md5Final u = .next t →
      t.md5.chain = hashMessage md5Compress bytesLE ⟨0x67452301, 0xEFCDAB89, 0x98BADCFE, 0x10325476⟩ m
      ∧ t.md5.blkLen = 0 ∧ t.md5.len = BitVec.ofNat 64 (8 * m.length))
    ∧ (∀ (s r u t : State) (m : List Byte), exec .sha1Reset s = .next r →
      Feed .sha1Byte .sha1Buf State.sha r.sha m u.sha → f0 u.a0 + 20 ≤ 65536 → exec .sha1Final u = .next t →
      t.sha.chain = hashMessage sha1Compress bytesBE ⟨0x67452301, 0xEFCDAB89, 0x98BADCFE, 0x10325476, 0xC3D2E1F0⟩ m
      ∧ t.sha.blkLen = 0 ∧ t.sha.len = BitVec.ofNat 64 (8 * m.length))
    ∧ (∀ (h : Md5Chain) (blk : List Byte), blk.length = 64 →
      let x (j : Nat) : Word := BitVec.ofNat 32 ((Finset.range 4).sum fun k => (blk.getD (4 * j + k) 0).toNat * 256 ^ k)
      let amounts : List Nat := (List.replicate 4 [7, 12, 17, 22] ++ List.replicate 4 [5, 9, 14, 20]
        ++ List.replicate 4 [4, 11, 16, 23] ++ List.replicate 4 [6, 10, 15, 21]).flatten
      let round (v : Md5Chain) (i : Nat) : Md5Chain :=
        let f : Word := if i < 16 then (v.h1 &&& v.h2) ||| (~~~v.h1 &&& v.h3)
          else if i < 32 then (v.h1 &&& v.h3) ||| (v.h2 &&& ~~~v.h3)
          else if i < 48 then v.h1 ^^^ v.h2 ^^^ v.h3 else v.h2 ^^^ (v.h1 ||| ~~~v.h3)
        let g := if i < 16 then i else if i < 32 then (5 * i + 1) % 16 else if i < 48 then (3 * i + 5) % 16
          else 7 * i % 16
        let t := v.h0 + f + md5K.getD i 0 + x g
        let n := amounts.getD i 0
        ⟨v.h3, v.h1 + (t <<< n ||| t >>> (32 - n)), v.h1, v.h2⟩
      let v := (List.range 64).foldl round h
      md5Compress h blk = ⟨h.h0 + v.h0, h.h1 + v.h1, h.h2 + v.h2, h.h3 + v.h3⟩)
    ∧ (∀ (h : Sha1Chain) (blk : List Byte), blk.length = 64 → ∃ w : Nat → Word,
      (∀ t < 16, w t = BitVec.ofNat 32 ((Finset.range 4).sum fun k => (blk.getD (4 * t + k) 0).toNat * 256 ^ (3 - k)))
      ∧ (∀ t, 16 ≤ t → t < 80 → w t = rotl32 (w (t - 3) ^^^ w (t - 8) ^^^ w (t - 14) ^^^ w (t - 16)) 1)
      ∧ let round (v : Sha1Chain) (t : Nat) : Sha1Chain :=
          let fk : Word × Word :=
            if t < 20 then ((v.h1 &&& v.h2) ||| (~~~v.h1 &&& v.h3), 0x5A827999)
            else if t < 40 then (v.h1 ^^^ v.h2 ^^^ v.h3, 0x6ED9EBA1)
            else if t < 60 then ((v.h1 &&& v.h2) ||| (v.h1 &&& v.h3) ||| (v.h2 &&& v.h3), 0x8F1BBCDC)
            else (v.h1 ^^^ v.h2 ^^^ v.h3, 0xCA62C1D6)
          ⟨rotl32 v.h0 5 + fk.1 + v.h4 + fk.2 + w t, v.h0, rotl32 v.h1 30, v.h2, v.h3⟩
        let v := (List.range 80).foldl round h
        sha1Compress h blk = ⟨h.h0 + v.h0, h.h1 + v.h1, h.h2 + v.h2, h.h3 + v.h3, h.h4 + v.h4⟩)
    ∧ let md5 (m : List Byte) : List Byte :=
        md5Digest (hashMessage md5Compress bytesLE ⟨0x67452301, 0xEFCDAB89, 0x98BADCFE, 0x10325476⟩ m)
      let sha1 (m : List Byte) : List Byte :=
        sha1Digest (hashMessage sha1Compress bytesBE ⟨0x67452301, 0xEFCDAB89, 0x98BADCFE, 0x10325476, 0xC3D2E1F0⟩ m)
      md5 [] = [0xD4, 0x1D, 0x8C, 0xD9, 0x8F, 0x00, 0xB2, 0x04, 0xE9, 0x80, 0x09, 0x98, 0xEC, 0xF8, 0x42, 0x7E]
      ∧ md5 [0x61, 0x62, 0x63]
        = [0x90, 0x01, 0x50, 0x98, 0x3C, 0xD2, 0x4F, 0xB0, 0xD6, 0x96, 0x3F, 0x7D, 0x28, 0xE1, 0x7F, 0x72]
      ∧ sha1 [0x61, 0x62, 0x63] = [0xA9, 0x99, 0x3E, 0x36, 0x47, 0x06, 0x81, 0x6A, 0xBA, 0x3E, 0x25, 0x71, 0x78, 0x50,
          0xC2, 0x6C, 0x9C, 0xD0, 0xD8, 0x9D]
      ∧ sha1 [] = [0xDA, 0x39, 0xA3, 0xEE, 0x5E, 0x6B, 0x4B, 0x0D, 0x32, 0x55, 0xBF, 0xEF, 0x95, 0x60, 0x18, 0x90,
          0xAF, 0xD8, 0x07, 0x09]

/-! ## CRC-32 generator -/

/-- R172 to R178: the CRC commands and what each changes. CRC_CHECK puts the final CRC in RES either way, and raises
IntegrityError when it is not A0[31:0]. -/
def Obligations.CrcCommandsEffects : Prop :=
  ∀ s : State, exec .crcInit s = .next { s with crcReg := 0xFFFFFFFF, err := 0 }
    ∧ exec .crcLoad s = .next { s with crcReg := s.a0.setWidth 32, err := 0 }
    ∧ (∀ b, exec (.crcByte b) s = .next { s with crcReg := crcStep s.crcReg b, err := 0 })
    ∧ (f0 s.a0 + f1 s.a0 ≤ 65536 → exec .crcBuf s
        = .next { s with crcReg := (memRead s (f0 s.a0) (f1 s.a0)).foldl crcStep s.crcReg, err := 0 })
    ∧ exec .crcRead s = .next { s with res := (~~~s.crcReg).setWidth 64, err := 0 }
    ∧ exec .crcRaw s = .next { s with res := s.crcReg.setWidth 64, err := 0 }
    ∧ ((~~~s.crcReg).toNat = s.a0.toNat % 2 ^ 32 →
      exec .crcCheck s = .next { s with res := (~~~s.crcReg).setWidth 64, err := 0 })
    ∧ ((~~~s.crcReg).toNat ≠ s.a0.toNat % 2 ^ 32 →
      exec .crcCheck s
        = .next { s with res := (~~~s.crcReg).setWidth 64, err := 2, sticky := s.sticky ||| 0x02 })

/-- R179, R180: the table form of the CRC step, and its linearity in the data. -/
def Obligations.CrcStepHasItsTableFormAndIsLinear : Prop :=
  (∀ (r : Word) (x : Byte), crcStep r x = (r >>> 8) ^^^ crcStep 0 ((r ^^^ x.setWidth 32).extractLsb' 0 8))
    ∧ crcStep 0 1 = 0x77073096 ∧ crcStep 0 128 = 0xEDB88320 ∧ crcStep 0 255 = 0x2D02EF8D
    ∧ ∀ (r : Word) (x : Byte), crcStep r x = crcStep (r ^^^ x.setWidth 32) 0

/-- R171: FOLD, and that CRC_INIT, a message folded in any pieces, and CRC_READ give the CRC-32 of the message. -/
def Obligations.CrcReadGivesTheCrcOfTheMessage : Prop :=
  (∀ (s r u t : State) (m : List Byte), exec .crcInit s = .next r →
      Feed .crcByte .crcBuf State.crcReg r.crcReg m u.crcReg → exec .crcRead u = .next t →
      t.res = (crcFold 0xFFFFFFFF m ^^^ 0xFFFFFFFF).setWidth 64)
    ∧ (∀ r : Word, crcFold r [] = r)
    ∧ (∀ (r : Word) (x : Byte) (m : List Byte), crcFold r (x :: m) = crcFold (crcStep r x) m)
    ∧ crcFold 0xFFFFFFFF [] ^^^ 0xFFFFFFFF = 0
    ∧ crcFold 0xFFFFFFFF [0x31, 0x32, 0x33, 0x34, 0x35, 0x36, 0x37, 0x38, 0x39] ^^^ 0xFFFFFFFF = 0xCBF43926

/-! ## LZSS -/

/-- R190, R191: where stream bit k is, the order in which PUTBITS appends, and that GETBITS inverts PUTBITS in either bit
order, wherever the field stands in a packed stream; the stream occupies (nbits + 7) >> 3 bytes and zero bits pad the last
one. -/
def Obligations.PackedFieldsReadBack : Prop :=
  (∀ (bs : List Byte) (k : Nat), k / 8 < bs.length →
      streamBit false bs k = (bs.getD (k >>> 3) 0).getLsbD (7 - (k &&& 7))
      ∧ streamBit true bs k = (bs.getD (k >>> 3) 0).getLsbD (k &&& 7))
    ∧ (∀ v n i : Nat, i < n →
        (putBits false v n)[i]? = some (v.testBit (n - 1 - i)) ∧ (putBits true v n)[i]? = some (v.testBit i))
    ∧ (∀ (bo : Bool) (v n : Nat), (putBits bo v n).length = n)
    ∧ (∀ (bo : Bool) (before after : List Bool) (v n : Nat),
        getBits bo (packBits bo (before ++ putBits bo v n ++ after)) before.length n = some (v % 2 ^ n))
    ∧ ∀ (bo : Bool) (bits : List Bool), (packBits bo bits).length = (bits.length + 7) / 8
        ∧ ∀ k < 8 * (packBits bo bits).length, streamBit bo (packBits bo bits) k = bits.getD k false

/-- R192: MIN is the least length whose match token is shorter than its literals; LMAX and DMAX; the cost of the tokens; a
CFG that SETCFG accepts keeps DMAX within the window; and the spec's example. -/
def Obligations.LzParametersAreDerivedFromCfg : Prop :=
  (∀ p : LzParams, lzMin p = (1 + p.ob + p.lb) / 9 + 1
      ∧ 1 + p.ob + p.lb < 9 * lzMin p ∧ (∀ n < lzMin p, ¬ (1 + p.ob + p.lb < 9 * n))
      ∧ (∀ x, (tokenBits p (.lit x)).length = 9)
      ∧ (∀ dist len, (tokenBits p (.copy dist len)).length = 1 + p.ob + p.lb)
      ∧ lzMax p = lzMin p + 2 ^ p.lb - 1 ∧ lzDistMax p = 2 ^ p.ob)
    ∧ (∀ v : Word, cfgLegal v = true → lzDistMax (cfgParams v) ≤ 2 ^ (cfgParams v).wb)
    ∧ ∀ bo : Bool, lzMin ⟨bo, 13, 13, 8⟩ = 3 ∧ lzMax ⟨bo, 13, 13, 8⟩ = 258 ∧ lzDistMax ⟨bo, 13, 13, 8⟩ = 8192

/-- R200: LZ_COMP of regions that pass its checks puts the sizes of the encoding in RES; it writes the packed encoding to
(dst, nbytes) when it fits and changes no other byte, and raises BoundsError with BUF unchanged when it does not. -/
def Obligations.LzCompWritesAllOrNothing : Prop :=
  ∀ s : State,
    let bits := lzEncode (cfgParams s.cfg) (memRead s (f0 s.a0) (f1 s.a0))
    let nbytes := (bits.length + 7) / 8
    let sizes : DWord := BitVec.ofNat 64 (bits.length * 2 ^ 32 + nbytes)
    f0 s.a0 + f1 s.a0 ≤ 65536 → f2 s.a0 + f3 s.a0 ≤ 65536 → (∀ a, ¬ ((lzSource s).has a ∧ (lzDest s).has a)) →
    (nbytes ≤ f3 s.a0 → ∃ t, exec .lzComp s = .next t ∧ t = { s with mem := t.mem, res := sizes, err := 0 }
      ∧ memRead t (f2 s.a0) nbytes = packBits (cfgParams s.cfg).bo bits
      ∧ ∀ a, ¬ (f2 s.a0 ≤ a ∧ a < f2 s.a0 + nbytes) → bufByte t a = bufByte s a)
    ∧ (f3 s.a0 < nbytes → exec .lzComp s = .next { s with res := sizes, err := 7, sticky := s.sticky ||| 0x40 })

/-- R200: the encoding of n bytes has at most 9 n bits, under every CFG value SETCFG accepts. -/
def Obligations.LzEncodingIsBounded : Prop :=
  ∀ (v : Word) (inp : List Byte), cfgLegal v = true → (lzEncode (cfgParams v) inp).length ≤ 9 * inp.length

/-- R193, R194, R195: every match of a parse has a length of MIN to LMAX and a distance of 1 to DMAX. BEST(i) is the longest
match of at most LMAX bytes among the starts max(0, i - DMAX) to i - 1, at the smallest distance among equals, and of
length 0 where there is no start. At each position the parse emits that match, unless it is shorter than MIN or the one at
i + 1 is strictly longer; then it emits a literal. The encoding is the tokens' bits; and R203's 76 bits and 10 bytes. -/
def Obligations.LzMatchesFitTheirFields : Prop :=
  (∀ (p : LzParams) (inp : List Byte) (dist len : Nat), .copy dist len ∈ lzParse p inp inp.length 0 →
      lzMin p ≤ len ∧ len ≤ lzMax p ∧ 1 ≤ dist ∧ dist ≤ lzDistMax p ∧ dist + len ≤ inp.length)
    ∧ (∀ (p : LzParams) (inp : List Byte), (bestMatch p inp 0).1 = 0
      ∧ ∀ i, 0 < i → i ≤ inp.length →
        let best := bestMatch p inp i
        i - lzDistMax p ≤ best.2 ∧ best.2 < i ∧ lzMatches p inp i best.2 best.1
        ∧ ∀ j len, i - lzDistMax p ≤ j → j < i → lzMatches p inp i j len →
          len ≤ best.1 ∧ (len = best.1 → j ≤ best.2))
    ∧ (∀ (p : LzParams) (inp : List Byte),
      let rest (i : Nat) : List LzToken := lzParse p inp inp.length i
      let best (i : Nat) : Nat := (bestMatch p inp i).1
      let literal (i : Nat) : Prop := best i < lzMin p ∨ (i + 1 < inp.length ∧ best i < best (i + 1))
      lzEncode p inp = (rest 0).flatMap (tokenBits p)
      ∧ (∀ i, inp.length ≤ i → rest i = [])
      ∧ ∀ i < inp.length,
        (literal i → rest i = .lit (inp.getD i 0) :: rest (i + 1))
        ∧ (¬ literal i → rest i = .copy (i - (bestMatch p inp i).2) (best i) :: rest (i + best i)))
    ∧ (∀ (p : LzParams) (x : Byte) (dist len : Nat),
      tokenBits p (.lit x) = false :: putBits p.bo x.toNat 8
      ∧ tokenBits p (.copy dist len) = true :: putBits p.bo (dist - 1) p.ob ++ putBits p.bo (len - lzMin p) p.lb)
    ∧ ∀ (bo : Bool) (wb : Nat),
      let p : LzParams := ⟨bo, wb, 13, 8⟩
      let text : List Byte := [0x61, 0x62, 0x61, 0x62, 0x63, 0x62, 0x61, 0x62, 0x61, 0x62, 0x63]
      lzParse p text text.length 0 = [.lit 0x61, .lit 0x62, .lit 0x61, .lit 0x62, .lit 0x63, .lit 0x62, .copy 6 5]
      ∧ (lzEncode p text).length = 76 ∧ (packBits bo (lzEncode p text)).length = 10
      ∧ (bo = false →
        packBits bo (lzEncode p text) = [0x30, 0x98, 0x8C, 0x26, 0x23, 0x19, 0x8A, 0x00, 0x50, 0x20])

/-- R196, R201: LZ_DECOMP of regions that pass its checks completes with N bytes written and RES = {bits consumed, N}, or
raises CodecError or TruncatedInputError with RES = {start of the failing token, bytes written}; the bytes written are
the decoder's, and no other byte of BUF and no other register changes. The decoder reads a token at a time: it raises
TruncatedInputError exactly when the stream ends inside the token, and CodecError exactly when a match reaches back before
the stream's start (d > k) or runs beyond the bound (k + L > N), before any byte of the token; else it appends the literal,
or copies byte by byte from d back. -/
def Obligations.LzDecompWritesWhatItDecodes : Prop :=
  (∀ s : State,
    let run := lzDecode (cfgParams s.cfg) (memRead s (f0 s.a0) (f1 s.a0)) (f3 s.a0)
    f0 s.a0 + f1 s.a0 ≤ 65536 → f2 s.a0 + f3 s.a0 ≤ 65536 → (∀ a, ¬ ((lzSource s).has a ∧ (lzDest s).has a)) →
    (∀ pos out, run = .ok pos out → out.length = f3 s.a0 ∧ pos ≤ 8 * f1 s.a0
      ∧ ∃ t, exec .lzDecomp s = .next t
        ∧ t = { s with mem := t.mem, res := BitVec.ofNat 64 (pos * 2 ^ 32 + f3 s.a0), err := 0 }
        ∧ memRead t (f2 s.a0) (f3 s.a0) = out.reverse
        ∧ ∀ a, ¬ (lzDest s).has a → bufByte t a = bufByte s a)
    ∧ ∀ e start out, run = .failed e start out →
      ((e = .truncatedInput ∧ lzReadToken (cfgParams s.cfg) (memRead s (f0 s.a0) (f1 s.a0)) start = none)
        ∨ (e = .codec ∧ ∃ dist len next,
          lzReadToken (cfgParams s.cfg) (memRead s (f0 s.a0) (f1 s.a0)) start = some (.copy dist len, next)
          ∧ (out.length < dist ∨ f3 s.a0 < out.length + len)))
      ∧ out.length < f3 s.a0 ∧ start ≤ 8 * f1 s.a0
      ∧ ∃ t, exec .lzDecomp s = .next t
        ∧ t = { s with
            mem := t.mem, res := BitVec.ofNat 64 (start * 2 ^ 32 + out.length), err := errCode e,
            sticky := s.sticky ||| stickyBit e }
        ∧ memRead t (f2 s.a0) out.length = out.reverse
        ∧ ∀ a, ¬ (f2 s.a0 ≤ a ∧ a < f2 s.a0 + out.length) → bufByte t a = bufByte s a)
  ∧ (∀ (p : LzParams) (src : List Byte) (total : Nat),
    let go (pos : Nat) (out : List Byte) : LzEnd := lzDecodeLoop p src total total pos out
    lzDecode p src total = go 0 []
    ∧ ∀ (pos : Nat) (out : List Byte),
      (total ≤ out.length → go pos out = .ok pos out)
      ∧ (out.length < total →
        (lzReadToken p src pos = none → go pos out = .failed .truncatedInput pos out)
        ∧ (∀ x next, lzReadToken p src pos = some (.lit x, next) → go pos out = go next (x :: out))
        ∧ ∀ dist len next, lzReadToken p src pos = some (.copy dist len, next) →
          (out.length < dist ∨ total < out.length + len → go pos out = .failed .codec pos out)
          ∧ (dist ≤ out.length → out.length + len ≤ total →
            ∃ copied : List Byte, copied.length = len ∧ go pos out = go next (copied ++ out)
              ∧ ∀ t < len, (copied ++ out).reverse[out.length + t]?
                  = (copied ++ out).reverse[out.length + t - dist]?)))
  ∧ ∀ (p : LzParams) (src : List Byte) (pos : Nat),
    let ends := 8 * src.length
    (ends ≤ pos → lzReadToken p src pos = none)
    ∧ (pos < ends → streamBit p.bo src pos = false →
      (ends < pos + 9 → lzReadToken p src pos = none)
      ∧ (pos + 9 ≤ ends → ∃ x, getBits p.bo src (pos + 1) 8 = some x
        ∧ lzReadToken p src pos = some (.lit (BitVec.ofNat 8 x), pos + 9)))
    ∧ (pos < ends → streamBit p.bo src pos = true →
      (ends < pos + 1 + p.ob + p.lb → lzReadToken p src pos = none)
      ∧ (pos + 1 + p.ob + p.lb ≤ ends → ∃ d l, getBits p.bo src (pos + 1) p.ob = some d
        ∧ getBits p.bo src (pos + 1 + p.ob) p.lb = some l
        ∧ lzReadToken p src pos = some (.copy (d + 1) (l + lzMin p), pos + 1 + p.ob + p.lb)))

/-- R202: under every CFG value SETCFG accepts, LZ_DECOMP of a successful LZ_COMP's output, with N the input's length,
succeeds and writes exactly the input, and its bit position is LZ_COMP's nbits. -/
def Obligations.LzRoundTripIsLossless : Prop :=
  ∀ (s t u : State) (x : DWord), cfgLegal s.cfg = true → exec .lzComp s = .next t → t.err = 0 →
    f0 x = f2 s.a0 → f1 x = t.res.toNat % 2 ^ 32 → f3 x = f1 s.a0 →
    f2 x + f3 x ≤ 65536 → (∀ a, ¬ ((lzSource { t with a0 := x }).has a ∧ (lzDest { t with a0 := x }).has a)) →
    exec .lzDecomp { t with a0 := x } = .next u →
    u.err = 0 ∧ memRead u (f2 x) (f3 x) = memRead s (f0 s.a0) (f1 s.a0)
    ∧ u.res.toNat / 2 ^ 32 = t.res.toNat / 2 ^ 32

/-! ## Huffman decoder -/

/-- R220, R222: HUF_LOAD of a region in bounds, of at least one entry, replaces the table; it is valid exactly when every
entry is at most 16 and the Kraft sum is 2^16, and an invalid one stays loaded and raises CodecError. It has n entries, at
most NSYM_MAX (R6). -/
def Obligations.HufLoadReplacesAndValidatesTheTable : Prop :=
  ∀ s : State,
    let n := f1 s.a0
    let table := memRead s (f0 s.a0) n
    let complete : Prop := (∀ len ∈ table, len.toNat ≤ 16)
      ∧ ((table.filter (fun len => len ≠ 0)).map fun len => 2 ^ (16 - len.toNat)).sum = 65536
    table.length = n ∧ n ≤ Config.nsymMax
    ∧ (n = 0 → exec .hufLoad s = .next { s with err := 6, sticky := s.sticky ||| 0x20 })
    ∧ (n ≠ 0 → f0 s.a0 + n ≤ 65536 →
      (complete → exec .hufLoad s = .next { s with huf := ⟨table, BitVec.ofNat 16 n, true⟩, err := 0 })
      ∧ (¬ complete → exec .hufLoad s
          = .next { s with huf := ⟨table, BitVec.ofNat 16 n, false⟩, err := 3, sticky := s.sticky ||| 0x04 }))

/-- R221: the derived tables of a valid table, the canonical code of each present symbol, its bits with bit len[s] - 1 first,
the symbol of each code, the order of the codes, and the spec's examples. -/
def Obligations.HuffmanTablesAreCanonical : Prop :=
  (∀ table : List Byte, hufTableValid table = true →
    let len (s : Nat) : Nat := (table.getD s 0).toNat
    (∀ l, 1 ≤ l → l ≤ 16 → hufCount table l = ((Finset.range table.length).filter fun s => len s = l).card)
    ∧ hufFirst table 1 = 0 ∧ hufOffs table 1 = 0
    ∧ (∀ l, 2 ≤ l → l ≤ 16 → hufFirst table l = 2 * (hufFirst table (l - 1) + hufCount table (l - 1))
        ∧ hufOffs table l = hufOffs table (l - 1) + hufCount table (l - 1))
    ∧ (∀ s, s ∈ hufOrder table ↔ hufPresent table s)
    ∧ (hufOrder table).Pairwise (fun s t => len s < len t ∨ (len s = len t ∧ s < t))
    ∧ ∀ s, hufPresent table s →
      hufCodeOf table s = hufFirst table (len s) + ((Finset.range s).filter fun t => len t = len s).card
      ∧ hufCodeOf table s < 2 ^ len s
      ∧ (hufCodeBits table s).length = len s
      ∧ (∀ i < len s, (hufCodeBits table s)[i]? = some ((hufCodeOf table s).testBit (len s - 1 - i)))
      ∧ (hufOrder table)[hufOffs table (len s) + (hufCodeOf table s - hufFirst table (len s))]? = some s
      ∧ ∀ t, hufPresent table t → len s < len t → hufCodeOf table s < hufCodeOf table t / 2 ^ (len t - len s))
  ∧ (List.range 5).map (hufCodeOf [2, 2, 2, 3, 3]) = [0, 1, 2, 6, 7]
  ∧ (List.range 8).map (hufCodeOf [3, 3, 3, 3, 3, 2, 4, 4]) = [2, 3, 4, 5, 6, 0, 14, 15]

/-- R221, R225: HUF_CODE puts the length and the canonical code of a present symbol in RES, and 0 for an absent one; with no
valid table it is CodecError, and for a symbol beyond the alphabet IllegalCommand. -/
def Obligations.HufCodeReportsTheCode : Prop :=
  ∀ (s : State) (sym : Half),
    let table := hufTable s
    let len := (table.getD sym.toNat 0).toNat
    (s.huf.valid = true → sym.toNat < s.huf.nsym.toNat →
      (len ≠ 0 → exec (.hufCode sym) s
        = .next { s with res := BitVec.ofNat 32 len ++ BitVec.ofNat 32 (hufCodeOf table sym.toNat), err := 0 })
      ∧ (len = 0 → exec (.hufCode sym) s = .next { s with res := 0, err := 0 }))
    ∧ (s.huf.valid = false →
      exec (.hufCode sym) s = .next { s with err := 3, sticky := s.sticky ||| 0x04 }
      ∧ exec .hufDecode s = .next { s with err := 3, sticky := s.sticky ||| 0x04 })
    ∧ (s.huf.valid = true → s.huf.nsym.toNat ≤ sym.toNat →
      exec (.hufCode sym) s = .next { s with err := 6, sticky := s.sticky ||| 0x20 })

/-- R223: HUF_DECODE of operands that pass its checks decodes `count` symbols and stores each in two bytes, little-endian,
with RES = {count, next bit}; when the stream ends inside a code it raises TruncatedInputError with the symbols before it
stored and RES = {symbols, start of the code}. No other byte of BUF and no other register changes. With a valid table,
HUF_SYMBOL answers the one symbol whose code stands at the position, and fails exactly when the stream ends inside a code;
the loop ends with the symbols the stream spells, or, truncated, with all the symbols before the incomplete code and the
position where that code begins. -/
def Obligations.HufDecodeStoresTheSymbols : Prop :=
  (∀ s : State,
    let run := hufDecodeLoop (hufTable s) (cfgParams s.cfg).bo (memRead s (f0 s.a0) (f1 s.a0)) (f3 s.a0)
      (low32 s.a1).toNat
    s.huf.valid = true → f0 s.a0 + f1 s.a0 ≤ 65536 → f2 s.a0 + 2 * f3 s.a0 ≤ 65536 →
    (∀ a, ¬ ((hufSource s).has a ∧ (hufDest s).has a)) → (low32 s.a1).toNat ≤ 8 * f1 s.a0 →
    (∀ syms pos, run = .ended syms pos → syms.length = f3 s.a0 ∧ pos ≤ 8 * f1 s.a0
      ∧ ∃ t, exec .hufDecode s = .next t
        ∧ t = { s with mem := t.mem, res := BitVec.ofNat 64 (f3 s.a0 * 2 ^ 32 + pos), err := 0 }
        ∧ (∀ i < f3 s.a0, ∀ k < 2, bufByte t (f2 s.a0 + 2 * i + k) = BitVec.ofNat 8 (syms.getD i 0 / 256 ^ k))
        ∧ ∀ a, ¬ (hufDest s).has a → bufByte t a = bufByte s a)
    ∧ ∀ syms start, run = .truncated syms start → syms.length < f3 s.a0 ∧ start ≤ 8 * f1 s.a0
      ∧ ∃ t, exec .hufDecode s = .next t
        ∧ t = { s with
            mem := t.mem, res := BitVec.ofNat 64 (syms.length * 2 ^ 32 + start), err := 4,
            sticky := s.sticky ||| 0x08 }
        ∧ (∀ i < syms.length, ∀ k < 2, bufByte t (f2 s.a0 + 2 * i + k) = BitVec.ofNat 8 (syms.getD i 0 / 256 ^ k))
        ∧ ∀ a, ¬ (f2 s.a0 ≤ a ∧ a < f2 s.a0 + 2 * syms.length) → bufByte t a = bufByte s a)
  ∧ ∀ (table : List Byte) (bo : Bool) (src : List Byte) (pos : Nat),
    hufTableValid table = true → pos ≤ 8 * src.length →
    (∀ sym next, hufSymbol table bo src pos = some (sym, next)
      ↔ hufCodeAt table bo src pos sym ∧ next = pos + (table.getD sym 0).toNat)
    ∧ (hufSymbol table bo src pos = none ↔ hufEndsInside table bo src pos)
    ∧ ∀ count syms,
      (∀ next, hufDecodeLoop table bo src count pos = .ended syms next
        ↔ syms.length = count ∧ hufSpells table bo src pos syms next)
      ∧ ∀ start, hufDecodeLoop table bo src count pos = .truncated syms start
        ↔ syms.length < count ∧ hufSpells table bo src pos syms start ∧ hufEndsInside table bo src start

/-- R223, R224: with a valid table, HUF_SYMBOL never fails for want of a code: with 16 bits left it always reads one, of the
length the table gives the symbol. -/
def Obligations.ValidTablesAlwaysDecodeASymbol : Prop :=
  ∀ (table : List Byte) (bo : Bool) (src : List Byte) (pos : Nat),
    hufTableValid table = true → pos + 16 ≤ 8 * src.length →
    ∃ sym, hufPresent table sym ∧ hufSymbol table bo src pos = some (sym, pos + (table.getD sym 0).toNat)

/-- R226: for a valid table no code is a prefix of another's, and decoding the concatenated codes of any symbols returns
exactly those symbols, at the bit position after them. -/
def Obligations.HuffmanCodesArePrefixFreeAndDecode : Prop :=
  (∀ (table : List Byte) (x y : Nat), hufTableValid table = true → hufPresent table x → hufPresent table y → x ≠ y →
      ¬ hufCodeBits table x <+: hufCodeBits table y)
    ∧ (∀ table : List Byte, hufTableValid table = true →
        ((table.filter (fun len => len ≠ 0)).map fun len => (1 : ℚ) / 2 ^ len.toNat).sum = 1)
    ∧ ∀ (s : State) (syms : List Nat),
        let table := hufTable s
        let bits := syms.flatMap (hufCodeBits table)
        let src := memRead s (f0 s.a0) (f1 s.a0)
        s.huf.valid = true → hufTableValid table = true → (∀ x ∈ syms, hufPresent table x) → f3 s.a0 = syms.length →
        f0 s.a0 + f1 s.a0 ≤ 65536 → f2 s.a0 + 2 * f3 s.a0 ≤ 65536 →
        (∀ a, ¬ ((hufSource s).has a ∧ (hufDest s).has a)) →
        (low32 s.a1).toNat + bits.length ≤ 8 * f1 s.a0 →
        streamBits (cfgParams s.cfg).bo src (low32 s.a1).toNat bits.length = bits →
        ∃ t, exec .hufDecode s = .next t ∧ t.err = 0 ∧ memRead t (f2 s.a0) (2 * f3 s.a0) = symbolBytes syms
          ∧ t.res.toNat % 2 ^ 32 = (low32 s.a1).toNat + (syms.map fun x => (table.getD x 0).toNat).sum

/-! ## PKWARE cipher -/

/-- R240, R244, R245, R249, R250: the cipher commands that touch no byte of BUF, and what each changes. -/
def Obligations.CipherKeyCommandsEffects : Prop :=
  ∀ s : State, exec .zcInit s = .next { s with keys := ⟨0x12345678, 0x23456789, 0x34567890⟩, err := 0 }
    ∧ (∀ b, exec (.zcPwByte b) s = .next { s with keys := zcUpdate s.keys b, err := 0 })
    ∧ (f0 s.a0 + f1 s.a0 ≤ 65536 → exec .zcPwBuf s
        = .next { s with keys := (memRead s (f0 s.a0) (f1 s.a0)).foldl zcUpdate s.keys, err := 0 })
    ∧ exec (.zcKey 0) s = .next { s with res := s.keys.key0.setWidth 64, err := 0 }
    ∧ exec (.zcKey 1) s = .next { s with res := s.keys.key1.setWidth 64, err := 0 }
    ∧ exec (.zcKey 2) s = .next { s with res := s.keys.key2.setWidth 64, err := 0 }
    ∧ (∀ idx : Byte, 2 < idx.toNat → exec (.zcKey idx) s = .next { s with err := 6, sticky := s.sticky ||| 0x20 })
    ∧ exec .zcKsb s = .next { s with res := (zcKsb s.keys).setWidth 64, err := 0 }

/-- R241: the key update in integers modulo 2^32, each step fed with the key just computed; and the spec's example. -/
def Obligations.KeyUpdateFollowsItsOrder : Prop :=
  (∀ (k : ZcKeys) (p : Byte),
    (zcUpdate k p).key0 = crcStep k.key0 p
    ∧ (zcUpdate k p).key1.toNat
      = ((k.key1.toNat + (zcUpdate k p).key0.toNat % 256) * 134775813 + 1) % 2 ^ 32
    ∧ (zcUpdate k p).key2 = crcStep k.key2 (BitVec.ofNat 8 ((zcUpdate k p).key1.toNat / 2 ^ 24)))
  ∧ zcUpdate ⟨0x12345678, 0x23456789, 0x34567890⟩ 0 = ⟨0x5ECCCD58, 0xC0F30B66, 0x6B5F078C⟩

/-- R242: the keystream byte in integers, that it reads only KEY2[15:0], and the spec's examples. -/
def Obligations.KeystreamByteIsThatOfKey2 : Prop :=
  (∀ k : ZcKeys, let t := (k.key2.toNat ||| 2) % 65536
      (zcKsb k).toNat = t * (t ^^^ 1) / 256 % 256 ∧ t / 2 = (t ^^^ 1) / 2)
    ∧ (∀ k l : ZcKeys, k.key2.toNat % 65536 = l.key2.toNat % 65536 → zcKsb k = zcKsb l)
    ∧ (∀ s t : State, exec .zcKsb s = .next t → t = { s with res := t.res, err := 0 })
    ∧ ∀ key0 key1 : Word, zcKsb ⟨key0, key1, 0⟩ = 0 ∧ zcKsb ⟨key0, key1, 0x34567890⟩ = 0xAB
      ∧ zcKsb ⟨key0, key1, 0xFFFF⟩ = 0

/-- R243, R246: ZC_ENC of disjoint or equal regions in bounds XORs each plaintext byte with the keystream byte of the keys
that the plaintext before it has made, feeds the keys the plaintext, and changes no other byte and no other register. -/
def Obligations.ZcEncEncryptsTheRegion : Prop :=
  ∀ s : State,
    let n := f1 s.a0
    let plain := memRead s (f0 s.a0) n
    f0 s.a0 + n ≤ 65536 → f2 s.a0 + n ≤ 65536 →
    (f0 s.a0 = f2 s.a0 ∨ ∀ a, ¬ ((sourceRegion s).has a ∧ (Region.mk (f2 s.a0) n).has a)) →
    ∃ t, exec .zcEnc s = .next t ∧ t = { s with mem := t.mem, keys := plain.foldl zcUpdate s.keys, err := 0 }
      ∧ (∀ i < n, bufByte t (f2 s.a0 + i)
          = bufByte s (f0 s.a0 + i) ^^^ zcKsb ((plain.take i).foldl zcUpdate s.keys))
      ∧ ∀ a, ¬ (f2 s.a0 ≤ a ∧ a < f2 s.a0 + n) → bufByte t a = bufByte s a

/-- R243, R247: ZC_DEC of disjoint or equal regions in bounds XORs each ciphertext byte with the keystream byte of the keys
that the plaintext before it has made, feeds the keys the plaintext, and changes no other byte and no other register. -/
def Obligations.ZcDecDecryptsTheRegion : Prop :=
  ∀ s : State,
    let n := f1 s.a0
    f0 s.a0 + n ≤ 65536 → f2 s.a0 + n ≤ 65536 →
    (f0 s.a0 = f2 s.a0 ∨ ∀ a, ¬ ((sourceRegion s).has a ∧ (Region.mk (f2 s.a0) n).has a)) →
    ∃ t, exec .zcDec s = .next t
      ∧ t = { s with mem := t.mem, keys := (memRead t (f2 s.a0) n).foldl zcUpdate s.keys, err := 0 }
      ∧ (∀ i < n, bufByte t (f2 s.a0 + i)
          = bufByte s (f0 s.a0 + i) ^^^ zcKsb ((memRead t (f2 s.a0) i).foldl zcUpdate s.keys))
      ∧ ∀ a, ¬ (f2 s.a0 ≤ a ∧ a < f2 s.a0 + n) → bufByte t a = bufByte s a

/-- R248: ZC_HDRCHK decrypts the 12-byte header as ZC_DEC would and puts its last byte in RES; it completes when that byte is
the check byte and raises IntegrityError, undoing nothing, when it is not. -/
def Obligations.ZcHdrChkDecryptsAndChecksTheHeader : Prop :=
  ∀ (s : State) (check : Byte),
    f0 s.a0 + 12 ≤ 65536 → f2 s.a0 + 12 ≤ 65536 →
    (f0 s.a0 = f2 s.a0 ∨ ∀ a, ¬ ((Region.mk (f0 s.a0) 12).has a ∧ (Region.mk (f2 s.a0) 12).has a)) →
    ∃ t, exec (.zcHdrChk check) s = .next t
      ∧ t = { s with
          mem := t.mem, keys := (memRead t (f2 s.a0) 12).foldl zcUpdate s.keys, res := t.res, err := t.err,
          sticky := t.sticky }
      ∧ (∀ i < 12, bufByte t (f2 s.a0 + i)
          = bufByte s (f0 s.a0 + i) ^^^ zcKsb ((memRead t (f2 s.a0) i).foldl zcUpdate s.keys))
      ∧ (∀ a, ¬ (f2 s.a0 ≤ a ∧ a < f2 s.a0 + 12) → bufByte t a = bufByte s a)
      ∧ t.res = (bufByte t (f2 s.a0 + 11)).setWidth 64
      ∧ (bufByte t (f2 s.a0 + 11) = check → t.err = 0 ∧ t.sticky = s.sticky)
      ∧ (bufByte t (f2 s.a0 + 11) ≠ check → t.err = 2 ∧ t.sticky = s.sticky ||| 0x02)

/-- R251: ZC_DEC of ZC_ENC's output from the same keys gives the plaintext back and leaves the same keys. -/
def Obligations.ZcDecInvertsZcEnc : Prop :=
  ∀ (s t u : State) (x : DWord), exec .zcEnc s = .next t → t.err = 0 →
    f0 x = f2 s.a0 → f1 x = f1 s.a0 → exec .zcDec { t with a0 := x, keys := s.keys } = .next u → u.err = 0 →
    memRead u (f2 x) (f1 x) = memRead s (f0 s.a0) (f1 s.a0) ∧ u.keys = t.keys

/-- R252: after ZC_INIT and any plaintext fed by any mix of the cipher's commands, KEY0 is the CRC_REG that CRC_LOAD of
0x12345678 and the same bytes give. -/
def Obligations.Key0IsARawCrc : Prop :=
  ∀ (s r c d : State) (m : List Byte) (k : ZcKeys) (y : Word), exec .zcInit s = .next r → ZcFeed r.keys m k →
    c.a0.toNat % 2 ^ 32 = 0x12345678 → exec .crcLoad c = .next d →
    Feed .crcByte .crcBuf State.crcReg d.crcReg m y → k.key0 = y
end

