-- ==== Sys2Proof/Laws/State.lean ====
section
/-! SUPPORT. What each field of the state is after each shared update of the whole state: one lemma for each field and
update, each by rfl. -/

namespace Sys2Proof.Machine

@[simp] theorem complete_cmd (s : State) : (complete s).cmd = s.cmd := rfl
@[simp] theorem complete_err (s : State) : (complete s).err = 0 := rfl
@[simp] theorem complete_sticky (s : State) : (complete s).sticky = s.sticky := rfl
@[simp] theorem complete_a0 (s : State) : (complete s).a0 = s.a0 := rfl
@[simp] theorem complete_a1 (s : State) : (complete s).a1 = s.a1 := rfl
@[simp] theorem complete_res (s : State) : (complete s).res = s.res := rfl
@[simp] theorem complete_cfg (s : State) : (complete s).cfg = s.cfg := rfl
@[simp] theorem complete_crcReg (s : State) : (complete s).crcReg = s.crcReg := rfl
@[simp] theorem complete_md5 (s : State) : (complete s).md5 = s.md5 := rfl
@[simp] theorem complete_sha (s : State) : (complete s).sha = s.sha := rfl
@[simp] theorem complete_huf (s : State) : (complete s).huf = s.huf := rfl
@[simp] theorem complete_keys (s : State) : (complete s).keys = s.keys := rfl
@[simp] theorem complete_mem (s : State) : (complete s).mem = s.mem := rfl
@[simp] theorem complete_resets (s : State) : (complete s).resets = s.resets := rfl
@[simp] theorem complete_host (s : State) : (complete s).host = s.host := rfl
@[simp] theorem complete_hostData (s : State) : (complete s).hostData = s.hostData := rfl

@[simp] theorem raiseErr_cmd (e : Err) (s : State) : (raiseErr e s).cmd = s.cmd := rfl
@[simp] theorem raiseErr_err (e : Err) (s : State) : (raiseErr e s).err = errCode e := rfl
@[simp] theorem raiseErr_sticky (e : Err) (s : State) : (raiseErr e s).sticky = s.sticky ||| stickyBit e := rfl
@[simp] theorem raiseErr_a0 (e : Err) (s : State) : (raiseErr e s).a0 = s.a0 := rfl
@[simp] theorem raiseErr_a1 (e : Err) (s : State) : (raiseErr e s).a1 = s.a1 := rfl
@[simp] theorem raiseErr_res (e : Err) (s : State) : (raiseErr e s).res = s.res := rfl
@[simp] theorem raiseErr_cfg (e : Err) (s : State) : (raiseErr e s).cfg = s.cfg := rfl
@[simp] theorem raiseErr_crcReg (e : Err) (s : State) : (raiseErr e s).crcReg = s.crcReg := rfl
@[simp] theorem raiseErr_md5 (e : Err) (s : State) : (raiseErr e s).md5 = s.md5 := rfl
@[simp] theorem raiseErr_sha (e : Err) (s : State) : (raiseErr e s).sha = s.sha := rfl
@[simp] theorem raiseErr_huf (e : Err) (s : State) : (raiseErr e s).huf = s.huf := rfl
@[simp] theorem raiseErr_keys (e : Err) (s : State) : (raiseErr e s).keys = s.keys := rfl
@[simp] theorem raiseErr_mem (e : Err) (s : State) : (raiseErr e s).mem = s.mem := rfl
@[simp] theorem raiseErr_resets (e : Err) (s : State) : (raiseErr e s).resets = s.resets := rfl
@[simp] theorem raiseErr_host (e : Err) (s : State) : (raiseErr e s).host = s.host := rfl
@[simp] theorem raiseErr_hostData (e : Err) (s : State) : (raiseErr e s).hostData = s.hostData := rfl

@[simp] theorem memWrite_cmd (s : State) (a : Nat) (bs : List Byte) : (memWrite s a bs).cmd = s.cmd := rfl
@[simp] theorem memWrite_err (s : State) (a : Nat) (bs : List Byte) : (memWrite s a bs).err = s.err := rfl
@[simp] theorem memWrite_sticky (s : State) (a : Nat) (bs : List Byte) : (memWrite s a bs).sticky = s.sticky := rfl
@[simp] theorem memWrite_a0 (s : State) (a : Nat) (bs : List Byte) : (memWrite s a bs).a0 = s.a0 := rfl
@[simp] theorem memWrite_a1 (s : State) (a : Nat) (bs : List Byte) : (memWrite s a bs).a1 = s.a1 := rfl
@[simp] theorem memWrite_res (s : State) (a : Nat) (bs : List Byte) : (memWrite s a bs).res = s.res := rfl
@[simp] theorem memWrite_cfg (s : State) (a : Nat) (bs : List Byte) : (memWrite s a bs).cfg = s.cfg := rfl
@[simp] theorem memWrite_crcReg (s : State) (a : Nat) (bs : List Byte) : (memWrite s a bs).crcReg = s.crcReg := rfl
@[simp] theorem memWrite_md5 (s : State) (a : Nat) (bs : List Byte) : (memWrite s a bs).md5 = s.md5 := rfl
@[simp] theorem memWrite_sha (s : State) (a : Nat) (bs : List Byte) : (memWrite s a bs).sha = s.sha := rfl
@[simp] theorem memWrite_huf (s : State) (a : Nat) (bs : List Byte) : (memWrite s a bs).huf = s.huf := rfl
@[simp] theorem memWrite_keys (s : State) (a : Nat) (bs : List Byte) : (memWrite s a bs).keys = s.keys := rfl
@[simp] theorem memWrite_mem (s : State) (a : Nat) (bs : List Byte) : (memWrite s a bs).mem = memPut s.mem a bs := rfl
@[simp] theorem memWrite_resets (s : State) (a : Nat) (bs : List Byte) : (memWrite s a bs).resets = s.resets := rfl
@[simp] theorem memWrite_host (s : State) (a : Nat) (bs : List Byte) : (memWrite s a bs).host = s.host := rfl
@[simp] theorem memWrite_hostData (s : State) (a : Nat) (bs : List Byte) : (memWrite s a bs).hostData = s.hostData := rfl

@[simp] theorem resetUnits_cmd (s : State) : (resetUnits s).cmd = s.cmd := rfl
@[simp] theorem resetUnits_err (s : State) : (resetUnits s).err = s.err := rfl
@[simp] theorem resetUnits_sticky (s : State) : (resetUnits s).sticky = 0 := rfl
@[simp] theorem resetUnits_a0 (s : State) : (resetUnits s).a0 = s.a0 := rfl
@[simp] theorem resetUnits_a1 (s : State) : (resetUnits s).a1 = s.a1 := rfl
@[simp] theorem resetUnits_res (s : State) : (resetUnits s).res = s.res := rfl
@[simp] theorem resetUnits_cfg (s : State) : (resetUnits s).cfg = Config.cfgReset := rfl
@[simp] theorem resetUnits_crcReg (s : State) : (resetUnits s).crcReg = 0xFFFFFFFF := rfl
@[simp] theorem resetUnits_md5 (s : State) : (resetUnits s).md5 = HashCore.atReset md5Seed := rfl
@[simp] theorem resetUnits_sha (s : State) : (resetUnits s).sha = HashCore.atReset sha1Seed := rfl
@[simp] theorem resetUnits_huf (s : State) : (resetUnits s).huf = HufState.atReset := rfl
@[simp] theorem resetUnits_keys (s : State) : (resetUnits s).keys = ZcKeys.atReset := rfl
@[simp] theorem resetUnits_mem (s : State) : (resetUnits s).mem = s.mem := rfl
@[simp] theorem resetUnits_resets (s : State) : (resetUnits s).resets = s.resets := rfl
@[simp] theorem resetUnits_host (s : State) : (resetUnits s).host = s.host := rfl
@[simp] theorem resetUnits_hostData (s : State) : (resetUnits s).hostData = s.hostData := rfl

@[simp] theorem resetEvent_cmd (s : State) : (resetEvent s).cmd = 0 := rfl
@[simp] theorem resetEvent_err (s : State) : (resetEvent s).err = 0 := rfl
@[simp] theorem resetEvent_sticky (s : State) : (resetEvent s).sticky = 0 := rfl
@[simp] theorem resetEvent_a0 (s : State) : (resetEvent s).a0 = 0 := rfl
@[simp] theorem resetEvent_a1 (s : State) : (resetEvent s).a1 = 0 := rfl
@[simp] theorem resetEvent_res (s : State) : (resetEvent s).res = 0 := rfl
@[simp] theorem resetEvent_cfg (s : State) : (resetEvent s).cfg = Config.cfgReset := rfl
@[simp] theorem resetEvent_crcReg (s : State) : (resetEvent s).crcReg = 0xFFFFFFFF := rfl
@[simp] theorem resetEvent_md5 (s : State) : (resetEvent s).md5 = HashCore.atReset md5Seed := rfl
@[simp] theorem resetEvent_sha (s : State) : (resetEvent s).sha = HashCore.atReset sha1Seed := rfl
@[simp] theorem resetEvent_huf (s : State) : (resetEvent s).huf = HufState.atReset := rfl
@[simp] theorem resetEvent_keys (s : State) : (resetEvent s).keys = ZcKeys.atReset := rfl
@[simp] theorem resetEvent_mem (s : State) : (resetEvent s).mem = [] := rfl
@[simp] theorem resetEvent_resets (s : State) : (resetEvent s).resets = s.resets + 1 := rfl
@[simp] theorem resetEvent_host (s : State) : (resetEvent s).host = s.host := rfl
@[simp] theorem resetEvent_hostData (s : State) : (resetEvent s).hostData = s.hostData := rfl

@[simp] theorem withFetchWord_host (s : State) (nbits w : Nat) :
    (s.withFetchWord nbits w).host = cmdWrite (BitVec.ofNat 32 (w % 2 ^ nbits)) :: s.host := rfl
@[simp] theorem withFetchWord_mem (s : State) (nbits w : Nat) : (s.withFetchWord nbits w).mem = s.mem := rfl
@[simp] theorem withFetchWord_cmd (s : State) (nbits w : Nat) : (s.withFetchWord nbits w).cmd = s.cmd := rfl

end Sys2Proof.Machine
end

