-- ==== Sys2Proof/Laws/Memory.lean ====
section
/-! SUPPORT. BUF: what a byte reads as after a write, what a read of several bytes returns, and the canonical form, which
every memory operation keeps. -/

namespace Sys2Proof.Machine

@[simp] theorem cellsFrom_length (a : Nat) (bs : List Byte) : (cellsFrom a bs).length = bs.length := by
  induction bs generalizing a with
  | nil => rfl
  | cons b bs ih => simp [cellsFrom, ih]

theorem mem_cellsFrom_addr {a : Nat} {bs : List Byte} {c : Host.Cell} (h : c ∈ cellsFrom a bs) :
    a ≤ c.1 ∧ c.1 < a + bs.length := by
  induction bs generalizing a with
  | nil => simp [cellsFrom] at h
  | cons b bs ih =>
    rcases List.mem_cons.mp h with rfl | h
    · simp
    · have := ih h
      simp only [List.length_cons]
      omega

theorem memGet_nil (a : Nat) : memGet [] a = none := rfl

theorem memGet_cons (c : Host.Cell) (m : Memory) (a : Nat) :
    memGet (c :: m) a = if a = c.1 then some c.2 else memGet m a := by
  simp only [memGet, List.lookup]
  by_cases h : a = c.1
  · simp [h]
  · have hb : (a == c.1) = false := by simp [h]
    simp [h, hb]

theorem memGet_append (m k : Memory) (a : Nat) : memGet (m ++ k) a = (memGet m a).or (memGet k a) := by
  induction m with
  | nil => simp [memGet_nil]
  | cons c m ih =>
    rw [List.cons_append, memGet_cons, memGet_cons, ih]
    split <;> simp

theorem memGet_cellsFrom (b : Nat) (bs : List Byte) (a : Nat) :
    memGet (cellsFrom b bs) a = if b ≤ a then bs[a - b]? else none := by
  induction bs generalizing b with
  | nil => simp [cellsFrom, memGet_nil]
  | cons x bs ih =>
    rw [cellsFrom, memGet_cons, ih]
    by_cases h : a = b
    · simp [h]
    · by_cases hb : b ≤ a
      · have h1 : b + 1 ≤ a := by omega
        have h2 : a - b = (a - (b + 1)) + 1 := by omega
        simp [h, hb, h1, h2]
      · have h1 : ¬ b + 1 ≤ a := by omega
        simp [h, hb, h1]

theorem memGet_filter (m : Memory) (p : Nat → Bool) (a : Nat) :
    memGet (m.filter fun c => p c.1) a = if p a then memGet m a else none := by
  induction m with
  | nil => simp [memGet_nil]
  | cons c m ih =>
    rw [List.filter_cons]
    by_cases hc : p c.1
    · simp only [hc, if_true, memGet_cons, ih]
      by_cases h : a = c.1
      · simp [h, hc]
      · simp [h]
    · simp only [hc, Bool.false_eq_true, if_false, ih, memGet_cons]
      by_cases h : a = c.1
      · subst h
        simp [hc]
      · simp [h]

/-- Everything a write does to what a memory lists. It holds of every memory, canonical or not. -/
theorem memGet_memPut (m : Memory) (b : Nat) (bs : List Byte) (a : Nat) :
    memGet (memPut m b bs) a = if b ≤ a ∧ a < b + bs.length then bs[a - b]? else memGet m a := by
  have h1 := memGet_filter m (fun x => decide (x < b)) a
  have h2 := memGet_filter m (fun x => decide (b + bs.length ≤ x)) a
  simp only [decide_eq_true_eq] at h1 h2
  rw [memPut, memGet_append, memGet_append, h1, h2, memGet_cellsFrom]
  by_cases hlo : a < b
  · have n1 : ¬ b ≤ a := by omega
    have n2 : ¬ b + bs.length ≤ a := by omega
    simp [hlo, n1, n2]
  · by_cases hhi : a < b + bs.length
    · have n1 : b ≤ a := by omega
      have n2 : ¬ b + bs.length ≤ a := by omega
      simp [hlo, hhi, n1, n2]
    · have n1 : b ≤ a := by omega
      have n2 : b + bs.length ≤ a := by omega
      have n3 : bs[a - b]? = none := List.getElem?_eq_none (by omega)
      simp [hlo, hhi, n2, n3]

/-- The read-after-write law of BUF: a written byte reads as written, and every other byte is unchanged. -/
theorem bufByte_memWrite (s : State) (b : Nat) (bs : List Byte) (a : Nat) :
    bufByte (memWrite s b bs) a = if b ≤ a ∧ a < b + bs.length then bs.getD (a - b) 0 else bufByte s a := by
  simp only [bufByte, memWrite_mem, memWrite_resets, memGet_memPut]
  split
  · rename_i h
    have : a - b < bs.length := by omega
    simp [List.getD, this]
  · rfl

/-- What a byte reads as depends on the memory and the number of resets alone. -/
theorem bufByte_congr {s t : State} (hm : t.mem = s.mem) (hr : t.resets = s.resets) (a : Nat) :
    bufByte t a = bufByte s a := by
  simp [bufByte, hm, hr]

@[simp] theorem bufByte_complete (s : State) (a : Nat) : bufByte (complete s) a = bufByte s a := rfl

@[simp] theorem bufByte_raiseErr (e : Err) (s : State) (a : Nat) : bufByte (raiseErr e s) a = bufByte s a := rfl

@[simp] theorem memRead_length (s : State) (a n : Nat) : (memRead s a n).length = n := by
  induction n generalizing a with
  | zero => rfl
  | succ n ih => simp [memRead, ih]

/-- Everything a read of several bytes returns. -/
theorem memRead_getElem? (s : State) (a n i : Nat) :
    (memRead s a n)[i]? = if i < n then some (bufByte s (a + i)) else none := by
  induction n generalizing a i with
  | zero => simp [memRead]
  | succ n ih =>
    cases i with
    | zero => simp [memRead]
    | succ i =>
      rw [memRead, List.getElem?_cons_succ, ih]
      have : a + 1 + i = a + (i + 1) := by omega
      simp [this]

theorem memRead_append (s : State) (a m n : Nat) :
    memRead s a (m + n) = memRead s a m ++ memRead s (a + m) n := by
  induction m generalizing a with
  | zero => simp [memRead]
  | succ m ih =>
    have h1 : m + 1 + n = (m + n) + 1 := by omega
    have h2 : a + 1 + m = a + (m + 1) := by omega
    rw [h1, memRead, memRead, ih, h2, List.cons_append]

theorem memRead_congr {s t : State} {a n : Nat} (h : ∀ x, a ≤ x → x < a + n → bufByte t x = bufByte s x) :
    memRead t a n = memRead s a n := by
  induction n generalizing a with
  | zero => rfl
  | succ n ih =>
    rw [memRead, memRead, h a (by omega) (by omega), ih fun x h1 h2 => h x (by omega) (by omega)]

/-- What was just written reads back. -/
theorem memRead_memWrite_self (s : State) (a : Nat) (bs : List Byte) :
    memRead (memWrite s a bs) a bs.length = bs := by
  apply List.ext_getElem?
  intro i
  rw [memRead_getElem?, bufByte_memWrite]
  by_cases h : i < bs.length
  · simp [h, List.getD]
  · simp [h]

/-- The canonical form, as a proposition. -/
theorem memory_wf_iff (m : Memory) :
    Memory.wf m = true ↔ (∀ c ∈ m, c.1 < Config.bufSize) ∧ m.Pairwise (fun c d => c.1 < d.1) := by
  simp [Memory.wf, List.all_eq_true]

theorem cellsFrom_pairwise (a : Nat) (bs : List Byte) : (cellsFrom a bs).Pairwise (fun c d => c.1 < d.1) := by
  induction bs generalizing a with
  | nil => exact List.Pairwise.nil
  | cons b bs ih =>
    refine List.Pairwise.cons (fun c hc => ?_) (ih (a + 1))
    have := mem_cellsFrom_addr hc
    simp only
    omega

/-- A write of bytes that all lie in BUF keeps the canonical form. -/
theorem memPut_wf {m : Memory} (hm : Memory.wf m = true) {a : Nat} {bs : List Byte}
    (h : a + bs.length ≤ Config.bufSize) : Memory.wf (memPut m a bs) = true := by
  rw [memory_wf_iff] at hm ⊢
  obtain ⟨hlt, hp⟩ := hm
  constructor
  · intro c hc
    rw [memPut, List.mem_append, List.mem_append] at hc
    rcases hc with (hc | hc) | hc
    · exact hlt c (List.mem_filter.mp hc).1
    · have := mem_cellsFrom_addr hc
      omega
    · exact hlt c (List.mem_filter.mp hc).1
  · rw [memPut, List.pairwise_append, List.pairwise_append]
    refine ⟨⟨hp.filter _, cellsFrom_pairwise a bs, fun c hc d hd => ?_⟩, hp.filter _, fun c hc d hd => ?_⟩
    · have h1 := (List.mem_filter.mp hc).2
      have h2 := mem_cellsFrom_addr hd
      simp only [decide_eq_true_eq] at h1
      omega
    · have h2 := (List.mem_filter.mp hd).2
      simp only [decide_eq_true_eq] at h2
      rcases List.mem_append.mp hc with hc | hc
      · have h1 := (List.mem_filter.mp hc).2
        simp only [decide_eq_true_eq] at h1
        omega
      · have h1 := mem_cellsFrom_addr hc
        omega

theorem memWrite_wf {s : State} (hm : Memory.wf s.mem = true) {a : Nat} {bs : List Byte}
    (h : a + bs.length ≤ Config.bufSize) : Memory.wf (memWrite s a bs).mem = true := memPut_wf hm h

theorem reset_mem_wf : Memory.wf State.reset.mem = true := by decide

end Sys2Proof.Machine
end

