-- ==== Sys2Proof/Laws/Ops.lean ====
section
/-! SUPPORT. What the shared operations can do, each said once: the check phase, completion and errors, regions, the hash
block buffer, the cipher's loops, the parse and the decoder of LZSS, and HUF_LOAD's table. -/

namespace Sys2Proof.Machine

/-- Everything the check phase can do (R266): it answers a next state, which is the first failing check's error and
nothing else, or the operation's. -/
theorem checked_next {checks : List (Bool × Err)} {s t : State} {op : State → State}
    (h : checked checks s op = .next t) :
    (∃ e, firstError checks = some e ∧ t = raiseErr e s) ∨ (firstError checks = none ∧ t = op s) := by
  unfold checked at h
  split at h
  · exact .inl ⟨_, ‹_›, by injection h with h; exact h.symm⟩
  · exact .inr ⟨‹_›, by injection h with h; exact h.symm⟩

theorem checked_of_none {checks : List (Bool × Err)} (h : firstError checks = none) (s : State) (op : State → State) :
    checked checks s op = .next (op s) := by simp [checked, h]

theorem checked_of_some {checks : List (Bool × Err)} {e : Err} (h : firstError checks = some e) (s : State)
    (op : State → State) : checked checks s op = .next (raiseErr e s) := by simp [checked, h]

/-- The check phase always answers a next state (R260). -/
theorem checked_total (checks : List (Bool × Err)) (s : State) (op : State → State) :
    ∃ t, checked checks s op = .next t := by
  unfold checked
  split <;> exact ⟨_, rfl⟩

@[simp] theorem firstError_nil : firstError [] = none := rfl

theorem firstError_cons (fails : Bool) (e : Err) (cs : List (Bool × Err)) :
    firstError ((fails, e) :: cs) = if fails then some e else firstError cs := rfl

theorem firstError_none_iff (cs : List (Bool × Err)) : firstError cs = none ↔ ∀ c ∈ cs, c.1 = false := by
  induction cs with
  | nil => simp
  | cons c cs ih =>
    obtain ⟨fails, e⟩ := c
    cases fails <;> simp [firstError_cons, ih]

theorem errCode_ne_zero (e : Err) : errCode e ≠ 0 := by cases e <;> decide

theorem errCode_injective {e e' : Err} (h : errCode e = errCode e') : e = e' := by
  cases e <;> cases e' <;> first | rfl | exact absurd h (by decide)

theorem errCode_le_seven (e : Err) : (errCode e).toNat ≤ 7 := by cases e <;> decide

theorem regionInBounds_iff (r : Region) : regionInBounds r = true ↔ r.base + r.len ≤ 65536 := by
  exact decide_eq_true_iff

theorem regionsOverlap_iff (r q : Region) :
    regionsOverlap r q = true ↔ ∃ a, (r.base ≤ a ∧ a < r.base + r.len) ∧ q.base ≤ a ∧ a < q.base + q.len := by
  simp only [regionsOverlap, Bool.and_eq_true, decide_eq_true_eq]
  constructor
  · rintro ⟨⟨⟨h1, h2⟩, h3⟩, h4⟩
    exact ⟨max r.base q.base, by omega, by omega⟩
  · rintro ⟨a, h1, h2⟩
    omega

theorem f0_lt (v : DWord) : f0 v < 65536 := (v.extractLsb' 0 16).isLt
theorem f1_lt (v : DWord) : f1 v < 65536 := (v.extractLsb' 16 16).isLt
theorem f2_lt (v : DWord) : f2 v < 65536 := (v.extractLsb' 32 16).isLt
theorem f3_lt (v : DWord) : f3 v < 65536 := (v.extractLsb' 48 16).isLt

/-- The two statements of R74 about a descriptor agree: WellFormed's, and the one the meanings check. -/
theorem tdIllegal_eq_not_wellFormed (td : FieldDesc) : tdIllegal td = !td.wellFormed := by
  obtain ⟨w, sg, o, p, tp⟩ := td
  cases w <;> cases o <;> cases p <;> cases tp <;> rfl

/-- SC_DEC reads no byte of BUF outside its field (R110, R112). -/
theorem decodeField_congr {s t : State} (td : FieldDesc) {a : Nat}
    (h : ∀ x, a ≤ x → x < a + fieldSize td → bufByte t x = bufByte s x) : decodeField t td a = decodeField s td a := by
  obtain ⟨w, sg, o, p, top⟩ := td
  cases o with
  | dual =>
    have lo : memRead t a (widthBytes w) = memRead s a (widthBytes w) :=
      memRead_congr fun x h1 h2 => h x h1 (by simp only [fieldSize]; omega)
    have hi : memRead t (a + widthBytes w) (widthBytes w) = memRead s (a + widthBytes w) (widthBytes w) :=
      memRead_congr fun x h1 h2 => h x (by omega) (by simp only [fieldSize]; omega)
    simp only [decodeField, lo, hi]
  | native | little | big =>
    have field : memRead t a (widthBytes w) = memRead s a (widthBytes w) := memRead_congr h
    simp only [decodeField, field]

@[simp] theorem bytesLE_length (v n : Nat) : (bytesLE v n).length = n := by
  induction n generalizing v with
  | zero => rfl
  | succ n ih => simp [bytesLE, ih]

@[simp] theorem bytesBE_length (v n : Nat) : (bytesBE v n).length = n := by simp [bytesBE]

@[simp] theorem md5Digest_length (h : Md5Chain) : (md5Digest h).length = 16 := by simp [md5Digest]

@[simp] theorem sha1Digest_length (h : Sha1Chain) : (sha1Digest h).length = 20 := by simp [sha1Digest]

/-- `LE` inverts `bytesLE` (R10). -/
theorem leNat_bytesLE (v n : Nat) : leNat (bytesLE v n) = v % 256 ^ n := by
  induction n generalizing v with
  | zero => simp [bytesLE, leNat, Nat.mod_one]
  | succ n ih =>
    have h : 256 ^ (n + 1) = 256 * 256 ^ n := by rw [Nat.pow_succ, Nat.mul_comm]
    rw [bytesLE, leNat, ih, BitVec.toNat_ofNat, h, Nat.mod_mul]

/-- `BE` inverts `bytesBE` (R10). -/
theorem beNat_bytesBE (v n : Nat) : beNat (bytesBE v n) = v % 256 ^ n := by
  rw [beNat, bytesBE, List.reverse_reverse, leNat_bytesLE]

theorem leNat_lt (bs : List Byte) : leNat bs < 256 ^ bs.length := by
  induction bs with
  | nil => simp [leNat]
  | cons b bs ih =>
    have h : 256 ^ (bs.length + 1) = 256 * 256 ^ bs.length := by rw [Nat.pow_succ, Nat.mul_comm]
    have hb := b.isLt
    rw [leNat, List.length_cons, h]
    omega

/-- Everything a push into the block buffer does short of a full block (R132, R152). -/
theorem hashPush_partial {χ : Type} (compress : χ → List Byte → χ) (c : HashCore χ) (x : Byte)
    (h : c.blkLen.val ≠ 63) :
    hashPush compress c x = { c with blk := c.blk.set c.blkLen.val x c.blkLen.isLt, blkLen := c.blkLen + 1 } := by
  simp [hashPush, h]

/-- Everything a push of the 64th byte does (R132, R152). -/
theorem hashPush_full {χ : Type} (compress : χ → List Byte → χ) (c : HashCore χ) (x : Byte) (h : c.blkLen.val = 63) :
    hashPush compress c x =
      { c with
        chain := compress c.chain (c.blk.set c.blkLen.val x c.blkLen.isLt).toList
        blk := c.blk.set c.blkLen.val x c.blkLen.isLt
        blkLen := 0 } := by
  simp [hashPush, h]

@[simp] theorem hashPush_len {χ : Type} (compress : χ → List Byte → χ) (c : HashCore χ) (x : Byte) :
    (hashPush compress c x).len = c.len := by
  unfold hashPush
  split <;> rfl

@[simp] theorem hashPush_done {χ : Type} (compress : χ → List Byte → χ) (c : HashCore χ) (x : Byte) :
    (hashPush compress c x).done = c.done := by
  unfold hashPush
  split <;> rfl

theorem hashPush_blkLen {χ : Type} (compress : χ → List Byte → χ) (c : HashCore χ) (x : Byte) :
    (hashPush compress c x).blkLen.val = (c.blkLen.val + 1) % 64 := by
  unfold hashPush
  split
  · rename_i h
    simp [h]
  · simp only [Fin.val_add]
    rfl

theorem hashAbsorb_len {χ : Type} (compress : χ → List Byte → χ) (c : HashCore χ) (x : Byte) :
    (hashAbsorb compress c x).len = c.len + 8 := by simp [hashAbsorb]

theorem hashAbsorb_done {χ : Type} (compress : χ → List Byte → χ) (c : HashCore χ) (x : Byte) :
    (hashAbsorb compress c x).done = c.done := by simp [hashAbsorb]

theorem hashAbsorb_blkLen {χ : Type} (compress : χ → List Byte → χ) (c : HashCore χ) (x : Byte) :
    (hashAbsorb compress c x).blkLen.val = (c.blkLen.val + 1) % 64 := by simp [hashAbsorb, hashPush_blkLen]

/-- The padding's length (R135): 0x80, the zero bytes, and 8 bytes of length. -/
theorem hashPadding_length {χ : Type} (suffix : Nat → Nat → List Byte) (hs : ∀ v n, (suffix v n).length = n)
    (c : HashCore χ) : (hashPadding suffix c).length = 9 + (119 - c.blkLen.val) % 64 := by
  simp [hashPadding, hs]
  omega

/-- Everything the cipher's loops leave alone: all but BUF and the keys. -/
theorem zcEncLoop_frame (n src dst : Nat) (s : State) :
    zcEncLoop n src dst s
      = { s with mem := (zcEncLoop n src dst s).mem, keys := (zcEncLoop n src dst s).keys } := by
  induction n generalizing src dst s with
  | zero => rfl
  | succ n ih =>
    rw [zcEncLoop]
    conv_lhs => rw [ih]
    rfl

theorem zcDecLoop_frame (n src dst : Nat) (s : State) :
    zcDecLoop n src dst s
      = { s with mem := (zcDecLoop n src dst s).mem, keys := (zcDecLoop n src dst s).keys } := by
  induction n generalizing src dst s with
  | zero => rfl
  | succ n ih =>
    rw [zcDecLoop]
    conv_lhs => rw [ih]
    rfl

/-- The cipher's loops write their destination alone (R59). -/
theorem zcEncLoop_outside (n src dst : Nat) (s : State) (a : Nat) (h : ¬(dst ≤ a ∧ a < dst + n)) :
    bufByte (zcEncLoop n src dst s) a = bufByte s a := by
  induction n generalizing src dst s with
  | zero => rfl
  | succ n ih =>
    rw [zcEncLoop, ih _ _ _ (by omega)]
    have h1 := bufByte_memWrite s dst [bufByte s src ^^^ zcKsb s.keys] a
    have h2 : ¬(dst ≤ a ∧ a < dst + [bufByte s src ^^^ zcKsb s.keys].length) := by
      simp only [List.length_singleton]
      omega
    rw [if_neg h2] at h1
    exact h1

theorem zcDecLoop_outside (n src dst : Nat) (s : State) (a : Nat) (h : ¬(dst ≤ a ∧ a < dst + n)) :
    bufByte (zcDecLoop n src dst s) a = bufByte s a := by
  induction n generalizing src dst s with
  | zero => rfl
  | succ n ih =>
    rw [zcDecLoop, ih _ _ _ (by omega)]
    have h1 := bufByte_memWrite s dst [bufByte s src ^^^ zcKsb s.keys] a
    have h2 : ¬(dst ≤ a ∧ a < dst + [bufByte s src ^^^ zcKsb s.keys].length) := by
      simp only [List.length_singleton]
      omega
    rw [if_neg h2] at h1
    exact h1

/-- The cipher's loops keep memory's canonical form. -/
theorem zcEncLoop_wf (n src dst : Nat) (s : State) (hm : Memory.wf s.mem = true) (h : dst + n ≤ Config.bufSize) :
    Memory.wf (zcEncLoop n src dst s).mem = true := by
  induction n generalizing src dst s with
  | zero => exact hm
  | succ n ih =>
    rw [zcEncLoop]
    refine ih _ _ _ ?_ (by omega)
    refine memPut_wf hm ?_
    rw [List.length_singleton]
    omega

theorem zcDecLoop_wf (n src dst : Nat) (s : State) (hm : Memory.wf s.mem = true) (h : dst + n ≤ Config.bufSize) :
    Memory.wf (zcDecLoop n src dst s).mem = true := by
  induction n generalizing src dst s with
  | zero => exact hm
  | succ n ih =>
    rw [zcDecLoop]
    refine ih _ _ _ ?_ (by omega)
    refine memPut_wf hm ?_
    rw [List.length_singleton]
    omega

@[simp] theorem packBits_length (bo : Bool) (bits : List Bool) : (packBits bo bits).length = packedLen bits.length := by
  simp [packBits]

@[simp] theorem putBits_length (bo : Bool) (v n : Nat) : (putBits bo v n).length = n := by simp [putBits]

theorem copyBack_length (dist n : Nat) (out : List Byte) : (copyBack dist n out).length = out.length + n := by
  induction n generalizing out with
  | zero => rfl
  | succ n ih =>
    rw [copyBack, ih, List.length_cons]
    omega

/-- The bytes a decoder produced, the newest first. -/
def lzEndBytes : LzEnd → List Byte
  | .ok _ out => out
  | .failed _ _ out => out

/-- The decompressor never produces more than it was asked for (R59, R196). -/
theorem lzDecodeLoop_out_le (p : LzParams) (src : List Byte) (total turns pos : Nat) (out : List Byte)
    (h : out.length ≤ total) : (lzEndBytes (lzDecodeLoop p src total turns pos out)).length ≤ total := by
  induction turns generalizing pos out with
  | zero => exact h
  | succ turns ih =>
    unfold lzDecodeLoop
    by_cases hlt : out.length < total
    · rw [if_pos hlt]
      cases lzReadToken p src pos with
      | none => exact h
      | some r =>
        obtain ⟨tok, next⟩ := r
        cases tok with
        | lit x => exact ih _ _ (by rw [List.length_cons]; omega)
        | copy dist len =>
          simp only
          split
          · exact h
          · exact ih _ _ (by rw [copyBack_length]; omega)
    · rw [if_neg hlt]
      exact h

/-- The least shortest match is one byte (R192), so every token makes progress. -/
theorem lzMin_pos (p : LzParams) : 0 < lzMin p := Nat.succ_pos _

/-- `commonLen` is the longest common prefix of at most `limit` bytes. -/
theorem le_commonLen_iff (limit len : Nat) (xs ys : List Byte) :
    len ≤ commonLen limit xs ys
      ↔ len ≤ limit ∧ len ≤ xs.length ∧ len ≤ ys.length ∧ ∀ t < len, xs.getD t 0 = ys.getD t 0 := by
  induction limit generalizing len xs ys with
  | zero => simp only [commonLen]; exact ⟨fun h => by simp_all, fun h => h.1⟩
  | succ n ih =>
    cases len with
    | zero => simp
    | succ len =>
      match xs, ys with
      | [], _ => simp [commonLen]
      | _ :: _, [] => simp [commonLen]
      | x :: xs, y :: ys =>
        have split : (∀ t < len + 1, (x :: xs).getD t 0 = (y :: ys).getD t 0)
            ↔ x = y ∧ ∀ t < len, xs.getD t 0 = ys.getD t 0 :=
          ⟨fun h => ⟨h 0 (Nat.succ_pos _), fun t ht => h (t + 1) (Nat.succ_lt_succ ht)⟩,
            fun ⟨h0, h⟩ t ht => by cases t with
              | zero => exact h0
              | succ t => exact h t (Nat.lt_of_succ_lt_succ ht)⟩
        rw [split, commonLen]
        by_cases h : x = y
        · simp only [h, if_true, Nat.add_le_add_iff_right, ih, List.length_cons, true_and]
        · simp [h]

/-- The inner loop of BEST (R195): a length is a match's exactly when it is at most `matchLen`. -/
theorem le_matchLen_iff (p : LzParams) (inp : List Byte) {i j : Nat} (len : Nat) (hj : j < i) (hi : i ≤ inp.length) :
    len ≤ matchLen p inp i j ↔ lzMatches p inp i j len := by
  rw [matchLen, le_commonLen_iff, lzMatches]
  simp only [List.length_drop, List.getD_eq_getElem?_getD, List.getElem?_drop]
  constructor
  · rintro ⟨h1, -, h3, h4⟩
    exact ⟨h1, by omega, h4⟩
  · rintro ⟨h1, h2, h3⟩
    exact ⟨h1, by omega, by omega, h3⟩

/-- Enough turns are as good as any: every token of a parse takes at least one byte (R195). -/
theorem lzParse_turns (p : LzParams) (inp : List Byte) {m n : Nat} (i : Nat) (hm : inp.length ≤ m + i)
    (hn : inp.length ≤ n + i) : lzParse p inp m i = lzParse p inp n i := by
  induction m generalizing n i with
  | zero =>
    cases n with
    | zero => rfl
    | succ n => rw [lzParse, lzParse, if_neg (by omega)]
  | succ m ih =>
    cases n with
    | zero => rw [lzParse, lzParse, if_neg (by omega)]
    | succ n =>
      have pos := lzMin_pos p
      rw [lzParse, lzParse]
      split
      · split
        · rw [ih (n := n) _ (by omega) (by omega)]
        · rw [ih (n := n) _ (by omega) (by omega)]
      · rfl

/-- The parse does not read WB: SETCFG keeps DMAX within the window (R192, R194). -/
theorem lzParse_wb (p : LzParams) (wb : Nat) (inp : List Byte) (turns i : Nat) :
    lzParse { p with wb := wb } inp turns i = lzParse p inp turns i := by
  have best : bestMatch { p with wb := wb } inp = bestMatch p inp := rfl
  have least : lzMin { p with wb := wb } = lzMin p := rfl
  have defers : lazyDefers { p with wb := wb } inp = lazyDefers p inp := rfl
  induction turns generalizing i with
  | zero => rfl
  | succ turns ih => rw [lzParse, lzParse, best, least, defers, ih, ih]

/-- A match that is read has a distance of at least 1 and a length of at least MIN (R193, R196). -/
theorem lzReadToken_copy {p : LzParams} {src : List Byte} {pos dist len next : Nat}
    (h : lzReadToken p src pos = some (.copy dist len, next)) : 1 ≤ dist ∧ lzMin p ≤ len := by
  unfold lzReadToken at h
  split at h
  · cases h
  · split at h
    · simp at h
    · split at h
      · cases h
      · simp only [Option.map_eq_some_iff, Prod.mk.injEq, LzToken.copy.injEq] at h
        omega

/-- Enough turns are as good as any: every token decoded gives at least one byte (R196). -/
theorem lzDecodeLoop_turns (p : LzParams) (src : List Byte) (total : Nat) {m n : Nat} (pos : Nat) (out : List Byte)
    (hm : total ≤ m + out.length) (hn : total ≤ n + out.length) :
    lzDecodeLoop p src total m pos out = lzDecodeLoop p src total n pos out := by
  induction m generalizing n pos out with
  | zero =>
    cases n with
    | zero => rfl
    | succ n => rw [lzDecodeLoop, lzDecodeLoop, if_neg (by omega)]
  | succ m ih =>
    cases n with
    | zero => rw [lzDecodeLoop, lzDecodeLoop, if_neg (by omega)]
    | succ n =>
      rw [lzDecodeLoop, lzDecodeLoop]
      split
      · cases h : lzReadToken p src pos with
        | none => rfl
        | some r =>
          obtain ⟨tok, next⟩ := r
          cases tok with
          | lit x => exact ih _ _ (by rw [List.length_cons]; omega) (by rw [List.length_cons]; omega)
          | copy dist len =>
            have := (lzReadToken_copy h).2
            have := lzMin_pos p
            simp only
            split
            · rfl
            · exact ih _ _ (by rw [copyBack_length]; omega) (by rw [copyBack_length]; omega)
      · rfl

/-- HUF_LOAD's table has n entries, at most `NSYM_MAX` (R6, R222). -/
theorem hufLoad_size (s : State) :
    (regionRead s ⟨f0 s.a0, f1 s.a0⟩).length = f1 s.a0 ∧ f1 s.a0 ≤ Config.nsymMax :=
  ⟨memRead_length _ _ _, Nat.le_of_lt_succ (f1_lt _)⟩

/-- Everything the loop of HUF_DECODE can answer (R223): `count` symbols, or fewer, at a position where no symbol can be
read. -/
theorem hufDecodeLoop_cases (table : List Byte) (bo : Bool) (src : List Byte) (count pos : Nat) :
    (∃ syms next, hufDecodeLoop table bo src count pos = .ended syms next ∧ syms.length = count)
      ∨ ∃ syms start, hufDecodeLoop table bo src count pos = .truncated syms start ∧ syms.length < count
          ∧ hufSymbol table bo src start = none := by
  induction count generalizing pos with
  | zero => exact .inl ⟨[], pos, rfl, rfl⟩
  | succ count ih =>
    rw [hufDecodeLoop]
    cases h : hufSymbol table bo src pos with
    | none => exact .inr ⟨[], pos, rfl, Nat.succ_pos _, h⟩
    | some r =>
      obtain ⟨sym, next⟩ := r
      obtain ⟨syms, p, run, len⟩ | ⟨syms, p, run, len, stop⟩ := ih next
      · exact .inl ⟨sym :: syms, p, by simp only [run, hufPrepend], congrArg Nat.succ len⟩
      · exact .inr ⟨sym :: syms, p, by simp only [run, hufPrepend], Nat.succ_lt_succ len, stop⟩

theorem symbolBytes_length (syms : List Nat) : (symbolBytes syms).length = 2 * syms.length := by
  induction syms with
  | nil => rfl
  | cons x xs ih =>
    simp only [symbolBytes, List.flatMap_cons, List.length_append, bytesLE_length, List.length_cons] at ih ⊢
    omega

end Sys2Proof.Machine
end

