-- ==== Sys2Proof/Laws/PerInstr.lean ====
section
/-! SUPPORT. One lemma for each command: its opcode has a row in the map R75, the row marks the immediates the command
does not use as must-be-zero, and the row builds the command from its immediates. -/

namespace Sys2Proof.Laws

theorem decodeTd_encodeTd (td : FieldDesc) : decodeTd (encodeTd td) = td := by
  obtain ⟨w, sg, o, p, tp⟩ := td
  cases w <;> cases sg <;> cases o <;> cases p <;> cases tp <;> rfl

/-- The row of a command's opcode fits the command (R75). -/
def RowFits.Statement (i : Instr) : Prop :=
  ∃ row, opcodeRow (instrOpcode i) = some row ∧ (row.usesB = false → instrB i = 0) ∧
    (row.usesH = false → instrH i = 0) ∧ row.build (instrB i) (instrH i) = i

theorem RowFits.nop : RowFits.Statement .nop :=
  ⟨_, rfl, by simp [instrB], by simp [instrH], rfl⟩

theorem RowFits.setCfg : RowFits.Statement .setCfg :=
  ⟨_, rfl, by simp [instrB], by simp [instrH], rfl⟩

theorem RowFits.getCfg : RowFits.Statement .getCfg :=
  ⟨_, rfl, by simp [instrB], by simp [instrH], rfl⟩

theorem RowFits.clrErr : RowFits.Statement .clrErr :=
  ⟨_, rfl, by simp [instrB], by simp [instrH], rfl⟩

theorem RowFits.sreset : RowFits.Statement .sreset :=
  ⟨_, rfl, by simp [instrB], by simp [instrH], rfl⟩

theorem RowFits.ident : RowFits.Statement .ident :=
  ⟨_, rfl, by simp [instrB], by simp [instrH], rfl⟩

theorem RowFits.scDec (td : FieldDesc) (off : Half) : RowFits.Statement (.scDec td off) :=
  ⟨_, rfl, nofun, nofun, by
    simp only [instrB, instrH, decodeTd_encodeTd]⟩

theorem RowFits.scEnc (td : FieldDesc) (off : Half) : RowFits.Statement (.scEnc td off) :=
  ⟨_, rfl, nofun, nofun, by
    simp only [instrB, instrH, decodeTd_encodeTd]⟩

theorem RowFits.scAdec (off : Half) : RowFits.Statement (.scAdec off) :=
  ⟨_, rfl, by simp [instrB], by simp [instrH], rfl⟩

theorem RowFits.scAenc (off : Half) : RowFits.Statement (.scAenc off) :=
  ⟨_, rfl, by simp [instrB], by simp [instrH], rfl⟩

theorem RowFits.md5Reset : RowFits.Statement .md5Reset :=
  ⟨_, rfl, by simp [instrB], by simp [instrH], rfl⟩

theorem RowFits.md5Byte (b : Byte) : RowFits.Statement (.md5Byte b) :=
  ⟨_, rfl, by simp [instrB], by simp [instrH], rfl⟩

theorem RowFits.md5Buf : RowFits.Statement .md5Buf :=
  ⟨_, rfl, by simp [instrB], by simp [instrH], rfl⟩

theorem RowFits.md5Final : RowFits.Statement .md5Final :=
  ⟨_, rfl, by simp [instrB], by simp [instrH], rfl⟩

theorem RowFits.sha1Reset : RowFits.Statement .sha1Reset :=
  ⟨_, rfl, by simp [instrB], by simp [instrH], rfl⟩

theorem RowFits.sha1Byte (b : Byte) : RowFits.Statement (.sha1Byte b) :=
  ⟨_, rfl, by simp [instrB], by simp [instrH], rfl⟩

theorem RowFits.sha1Buf : RowFits.Statement .sha1Buf :=
  ⟨_, rfl, by simp [instrB], by simp [instrH], rfl⟩

theorem RowFits.sha1Final : RowFits.Statement .sha1Final :=
  ⟨_, rfl, by simp [instrB], by simp [instrH], rfl⟩

theorem RowFits.crcInit : RowFits.Statement .crcInit :=
  ⟨_, rfl, by simp [instrB], by simp [instrH], rfl⟩

theorem RowFits.crcLoad : RowFits.Statement .crcLoad :=
  ⟨_, rfl, by simp [instrB], by simp [instrH], rfl⟩

theorem RowFits.crcByte (b : Byte) : RowFits.Statement (.crcByte b) :=
  ⟨_, rfl, by simp [instrB], by simp [instrH], rfl⟩

theorem RowFits.crcBuf : RowFits.Statement .crcBuf :=
  ⟨_, rfl, by simp [instrB], by simp [instrH], rfl⟩

theorem RowFits.crcRead : RowFits.Statement .crcRead :=
  ⟨_, rfl, by simp [instrB], by simp [instrH], rfl⟩

theorem RowFits.crcRaw : RowFits.Statement .crcRaw :=
  ⟨_, rfl, by simp [instrB], by simp [instrH], rfl⟩

theorem RowFits.crcCheck : RowFits.Statement .crcCheck :=
  ⟨_, rfl, by simp [instrB], by simp [instrH], rfl⟩

theorem RowFits.lzComp : RowFits.Statement .lzComp :=
  ⟨_, rfl, by simp [instrB], by simp [instrH], rfl⟩

theorem RowFits.lzDecomp : RowFits.Statement .lzDecomp :=
  ⟨_, rfl, by simp [instrB], by simp [instrH], rfl⟩

theorem RowFits.hufLoad : RowFits.Statement .hufLoad :=
  ⟨_, rfl, by simp [instrB], by simp [instrH], rfl⟩

theorem RowFits.hufDecode : RowFits.Statement .hufDecode :=
  ⟨_, rfl, by simp [instrB], by simp [instrH], rfl⟩

theorem RowFits.hufCode (sym : Half) : RowFits.Statement (.hufCode sym) :=
  ⟨_, rfl, by simp [instrB], by simp [instrH], rfl⟩

theorem RowFits.zcInit : RowFits.Statement .zcInit :=
  ⟨_, rfl, by simp [instrB], by simp [instrH], rfl⟩

theorem RowFits.zcPwByte (b : Byte) : RowFits.Statement (.zcPwByte b) :=
  ⟨_, rfl, by simp [instrB], by simp [instrH], rfl⟩

theorem RowFits.zcPwBuf : RowFits.Statement .zcPwBuf :=
  ⟨_, rfl, by simp [instrB], by simp [instrH], rfl⟩

theorem RowFits.zcEnc : RowFits.Statement .zcEnc :=
  ⟨_, rfl, by simp [instrB], by simp [instrH], rfl⟩

theorem RowFits.zcDec : RowFits.Statement .zcDec :=
  ⟨_, rfl, by simp [instrB], by simp [instrH], rfl⟩

theorem RowFits.zcHdrChk (check : Byte) : RowFits.Statement (.zcHdrChk check) :=
  ⟨_, rfl, by simp [instrB], by simp [instrH], rfl⟩

theorem RowFits.zcKey (idx : Byte) : RowFits.Statement (.zcKey idx) :=
  ⟨_, rfl, by simp [instrB], by simp [instrH], rfl⟩

theorem RowFits.zcKsb : RowFits.Statement .zcKsb :=
  ⟨_, rfl, by simp [instrB], by simp [instrH], rfl⟩

end Sys2Proof.Laws
end

