-- ==== Sys2Proof/Tests/Slice0.lean ====
section
/-! SUPPORT. The model's own tests: the well-formedness smoke test, the decoding of one written-out word for every
command, single commands on small states with the values of spec/95_test_vectors.md, and for every obligation with
hypotheses a state that meets them. -/

namespace Sys2Proof.Tests

set_option Elab.async false

open Sys2Proof Sys2Proof.Machine

/-! ## Helpers -/

/-- `{x3, x2, x1, x0}` of spec/30_encoding.md R80. -/
def slices (x3 x2 x1 x0 : Nat) : DWord := BitVec.ofNat 64 (((x3 * 65536 + x2) * 65536 + x1) * 65536 + x0)

/-- The reset state with A0, A1 and the bytes `bs` at buffer address `a`. -/
def machine (a0 a1 : DWord) (a : Nat) (bs : List Byte) : State := { memWrite State.reset a bs with a0 := a0, a1 := a1 }

/-- The state a command ends in. -/
def after (i : Instr) (s : State) : Option State :=
  match exec i s with
  | .next t => some t
  | .fault _ => none
  | .refused _ => none

/-- RES, and ERR with STICKY, after a command. -/
def outcome (i : Instr) (s : State) : Option (DWord × Word) := (after i s).map fun t => (t.res, statusWord t)

/-- The bytes at an address, and STATUS, after a command. -/
def stored (i : Instr) (s : State) (a n : Nat) : Option (List Byte × Word) :=
  (after i s).map fun t => (memRead t a n, statusWord t)

/-! ## Well-formedness: each check refuses a term -/

theorem test_wf_accepts_a_dual_field :
    (Instr.scDec ⟨.w32, false, .dual, .preferBig, false⟩ 4).wellFormed = true := by decide

theorem test_wf_refuses_td_top_bit : (Instr.scDec ⟨.w32, false, .little, .requireMatch, true⟩ 0).wellFormed = false := by
  decide

theorem test_wf_refuses_reserved_policy : (Instr.scEnc ⟨.w32, false, .dual, .reserved, false⟩ 0).wellFormed = false := by
  decide

theorem test_wf_refuses_policy_without_dual :
    (Instr.scEnc ⟨.w16, true, .big, .preferLittle, false⟩ 0).wellFormed = false := by decide

theorem test_wf_refuses_dual_byte : (Instr.scDec ⟨.w8, false, .dual, .requireMatch, false⟩ 0).wellFormed = false := by
  decide

theorem test_wf_accepts_key_2 : (Instr.zcKey 2).wellFormed = true := by decide

theorem test_wf_refuses_key_3 : (Instr.zcKey 3).wellFormed = false := by decide

/-! ## Decoding: a word of every command, written out from R70, R74 and R75 -/

theorem test_decode_nop : decode 0x00000000#32 = .ok .nop := by rfl
theorem test_decode_setCfg : decode 0x00000001#32 = .ok .setCfg := by rfl
theorem test_decode_getCfg : decode 0x00000002#32 = .ok .getCfg := by rfl
theorem test_decode_clrErr : decode 0x00000003#32 = .ok .clrErr := by rfl
theorem test_decode_sreset : decode 0x00000004#32 = .ok .sreset := by rfl
theorem test_decode_ident : decode 0x00000005#32 = .ok .ident := by rfl
/-- TD 0x1A: dual, unsigned, 32 bits, require_match (R112's example). -/
theorem test_decode_scDec : decode 0x00041A10#32 = .ok (.scDec ⟨.w32, false, .dual, .requireMatch, false⟩ 4) := by rfl
/-- TD 0x57 is 0101 0111: P = 2, E = 2, S = 1, WC = 3. -/
theorem test_decode_scEnc : decode 0x12345711#32 = .ok (.scEnc ⟨.w64, true, .big, .preferBig, false⟩ 0x1234) := by rfl
theorem test_decode_scAdec : decode 0xFFFF0012#32 = .ok (.scAdec 0xFFFF) := by rfl
theorem test_decode_scAenc : decode 0x80010013#32 = .ok (.scAenc 0x8001) := by rfl
theorem test_decode_md5Reset : decode 0x00000020#32 = .ok .md5Reset := by rfl
theorem test_decode_md5Byte : decode 0x00006121#32 = .ok (.md5Byte 0x61) := by rfl
theorem test_decode_md5Buf : decode 0x00000022#32 = .ok .md5Buf := by rfl
theorem test_decode_md5Final : decode 0x00000023#32 = .ok .md5Final := by rfl
theorem test_decode_sha1Reset : decode 0x00000030#32 = .ok .sha1Reset := by rfl
theorem test_decode_sha1Byte : decode 0x0000FF31#32 = .ok (.sha1Byte 0xFF) := by rfl
theorem test_decode_sha1Buf : decode 0x00000032#32 = .ok .sha1Buf := by rfl
theorem test_decode_sha1Final : decode 0x00000033#32 = .ok .sha1Final := by rfl
theorem test_decode_crcInit : decode 0x00000040#32 = .ok .crcInit := by rfl
theorem test_decode_crcLoad : decode 0x00000041#32 = .ok .crcLoad := by rfl
theorem test_decode_crcByte : decode 0x00006342#32 = .ok (.crcByte 0x63) := by rfl
theorem test_decode_crcBuf : decode 0x00000043#32 = .ok .crcBuf := by rfl
theorem test_decode_crcRead : decode 0x00000044#32 = .ok .crcRead := by rfl
theorem test_decode_crcRaw : decode 0x00000045#32 = .ok .crcRaw := by rfl
theorem test_decode_crcCheck : decode 0x00000046#32 = .ok .crcCheck := by rfl
theorem test_decode_lzComp : decode 0x00000050#32 = .ok .lzComp := by rfl
theorem test_decode_lzDecomp : decode 0x00000051#32 = .ok .lzDecomp := by rfl
theorem test_decode_hufLoad : decode 0x00000060#32 = .ok .hufLoad := by rfl
theorem test_decode_hufDecode : decode 0x00000061#32 = .ok .hufDecode := by rfl
theorem test_decode_hufCode : decode 0x00030062#32 = .ok (.hufCode 3) := by rfl
theorem test_decode_zcInit : decode 0x00000070#32 = .ok .zcInit := by rfl
theorem test_decode_zcPwByte : decode 0x00007071#32 = .ok (.zcPwByte 0x70) := by rfl
theorem test_decode_zcPwBuf : decode 0x00000072#32 = .ok .zcPwBuf := by rfl
theorem test_decode_zcEnc : decode 0x00000073#32 = .ok .zcEnc := by rfl
theorem test_decode_zcDec : decode 0x00000074#32 = .ok .zcDec := by rfl
theorem test_decode_zcHdrChk : decode 0x00003575#32 = .ok (.zcHdrChk 0x35) := by rfl
theorem test_decode_zcKey : decode 0x00000276#32 = .ok (.zcKey 2) := by rfl
theorem test_decode_zcKsb : decode 0x00000077#32 = .ok .zcKsb := by rfl

/-- R78: the rejections, by name. -/
theorem test_decode_rejects :
    decode 0x00000006#32 = .error .unassignedOpcode ∧ decode 0x00000080#32 = .error .unassignedOpcode
      ∧ decode 0x00000100#32 = .error .nonZeroB ∧ decode 0x00016342#32 = .error .nonZeroH := by
  exact ⟨rfl, rfl, rfl, rfl⟩

theorem test_decodeTableWord : decodeTableWord 32 0x00003575 = some (.zcHdrChk 0x35) ∧ decodeTableWord 32 0x06 = none := by
  exact ⟨rfl, rfl⟩

/-! ## Single commands, with the values of spec/95_test_vectors.md and of the rules' examples -/



/-- The state after the host writes a word to CMD. -/
def afterWord (w : Nat) (s : State) : Option State :=
  match step (s.withFetchWord 32 w) with
  | .next t => some t
  | .fault _ => none
  | .refused _ => none

/-- Vectors C-1, C-3, C-4 and C-13, through the step: RES, STATUS and CMD. -/
theorem test_step_words :
    (afterWord 0x05 State.reset).map (fun t => (t.res, statusWord t, t.cmd)) = some (0x0000000148414D49, 0, 0x05)
      ∧ (afterWord 0x0100 State.reset).map (fun t => (statusWord t, t.cmd)) = some (0x2006, 0x0100)
      ∧ (afterWord 0x06 State.reset).map statusWord = some 0x2006
      ∧ ((afterWord 0x06 State.reset).bind (afterWord 0x0103)).map statusWord = some 0x2006 := by decide +kernel

/-- Vectors C-14 and C-15: CLRERR clears STICKY, NOP keeps it. -/
theorem test_clrErr_nop :
    ((afterWord 0x06 State.reset).bind (afterWord 0x03)).map statusWord = some 0
      ∧ ((afterWord 0x06 State.reset).bind (afterWord 0x00)).map statusWord = some 0x2000 := by decide +kernel

/-- Vectors C-5 to C-11. -/
theorem test_setCfg :
    ([0x01000000, 0x08151400, 0x080D1400, 0x11101000, 0x080D0D02, 0x01010100, 0x10101001].map fun v : DWord =>
        (after .setCfg { State.reset with a0 := v }).map fun t => (t.cfg, t.err))
      = [some (0x080D0D00, 6), some (0x080D0D00, 6), some (0x080D0D00, 5), some (0x080D0D00, 5),
          some (0x080D0D00, 6), some (0x01010100, 0), some (0x10101001, 0)] := by decide +kernel

/-- Vector C-2. -/
theorem test_getCfg : outcome .getCfg State.reset = some (0x080D0D00, 0) := by decide +kernel

/-- Vector C-12 and R104: the units and STICKY are reset, A0 is not. -/
theorem test_sreset :
    (after .sreset { State.reset with cfg := 0x10101001, crcReg := 7, a0 := 9, sticky := 1 }).map
        (fun t => (t.cfg, t.crcReg, t.a0, statusWord t)) = some (0x080D0D00, 0xFFFFFFFF, 9, 0) := by decide +kernel

/-- Vectors SC-1, SC-4 and SC-8: a signed byte, a big-endian 64-bit field, a field past its region. -/
theorem test_scDec :
    ([(⟨.w8, true, .little, .requireMatch, false⟩, 0), (⟨.w64, false, .big, .requireMatch, false⟩, 0),
        (⟨.w64, false, .little, .requireMatch, false⟩, 1)].map fun (c : FieldDesc × Half) =>
        outcome (.scDec c.1 c.2) (machine (slices 0 0 8 0) 0 0 [0x80, 1, 2, 3, 4, 5, 6, 7]))
      = [some (0xFFFFFFFFFFFFFF80, 0), some (0x8001020304050607, 0), some (0, 0x0804)] := by decide +kernel

/-- Program P4b: a dual field whose copies differ, under the three policies. -/
theorem test_scDec_dual :
    ([.requireMatch, .preferLittle, .preferBig].map fun p : DualPolicy =>
        outcome (.scDec ⟨.w32, false, .dual, p, false⟩ 4)
          (machine (slices 0 0 12 0x40) 0 0x44 [0x78, 0x56, 0x34, 0x12, 0x12, 0x34, 0x56, 0x79]))
      = [some (0, 0x0101), some (0x12345678, 0), some (0x12345679, 0)] := by decide +kernel

/-- Program P4, line 8: both copies of a dual field. -/
theorem test_scEnc_dual :
    stored (.scEnc ⟨.w32, false, .dual, .requireMatch, false⟩ 4) (machine (slices 0 0 12 0x40) 0x12345678 0 []) 0x44 8
      = some ([0x78, 0x56, 0x34, 0x12, 0x12, 0x34, 0x56, 0x78], 0) := by decide +kernel

/-- Vectors SC-13, SC-14 and SC-16: the signed range and the field's fit. -/
theorem test_scEnc_range :
    (stored (.scEnc ⟨.w8, true, .little, .requireMatch, false⟩ 7) (machine (slices 0 0 8 0) 0xFFFFFFFFFFFFFF80 7 [0]) 7 1,
      stored (.scEnc ⟨.w8, true, .little, .requireMatch, false⟩ 7) (machine (slices 0 0 8 0) 0x80 7 [0]) 7 1,
      stored (.scEnc ⟨.w16, false, .little, .requireMatch, false⟩ 7) (machine (slices 0 0 8 0) 0xFFFF 7 [0]) 7 1)
      = (some ([0x80], 0), some ([0], 0x0101), some ([0], 0x4007)) := by decide +kernel

/-- Vectors SC-18 and SC-19. -/
theorem test_scAdec :
    (stored (.scAdec 0) (machine (slices 0 0 5 0x20) (slices 0 0 5 0x30) 0x20 [0x48, 0x45, 0x4C, 0x4C, 0x4F]) 0x30 5,
      (after (.scAdec 0) (machine (slices 0 0 5 0x20) (slices 0 0 6 0x30) 0x20 [])).map statusWord)
      = (some ([0x48, 0x45, 0x4C, 0x4C, 0x4F], 0), some 0x0804) := by decide +kernel

/-- Vectors SC-21 and SC-22. -/
theorem test_scAenc :
    (stored (.scAenc 2) (machine (slices 0 0 5 0x20) (slices 0 0 3 0x30) 0x30 [0x48, 0x45, 0x4C]) 0x22 3,
      (after (.scAenc 3) (machine (slices 0 0 5 0x20) (slices 0 0 3 0x30) 0x30 [])).map statusWord)
      = (some ([0x48, 0x45, 0x4C], 0), some 0x4007) := by decide +kernel

/-- Vector M-1, and R135: a new message after FINAL. -/
theorem test_md5Byte :
    ((after (.md5Byte 0x61) State.reset).bind (after (.md5Byte 0x62))).map
        (fun t => (t.md5.chain, t.md5.blkLen, t.md5.len)) = some (md5Seed, 2, 16) := by decide +kernel

/-- Vectors M-2 and M-3: MD5 of "abc", and use after FINAL. -/
theorem test_md5_abc :
    (((after .md5Buf (machine (slices 0 0 3 0) 0 0 [0x61, 0x62, 0x63])).bind (after .md5Final)).map
        (fun t => (memRead t 0 16, statusWord t)),
      (((after .md5Reset State.reset).bind (after .md5Final)).bind (after (.md5Byte 0x61))).map statusWord)
      = (some ([0x90, 0x01, 0x50, 0x98, 0x3C, 0xD2, 0x4F, 0xB0, 0xD6, 0x96, 0x3F, 0x7D, 0x28, 0xE1, 0x7F, 0x72], 0x10000),
          some 0x12006) := by decide +kernel

/-- R135: the 56-byte message needs a second padding block. -/
theorem test_md5_two_blocks :
    ((after .md5Buf (machine (slices 0 0 56 0) 0 0 (List.replicate 56 0x61))).bind (after .md5Final)).map
        (fun t => memRead t 0 16)
      = some [0x3B, 0x0C, 0x8A, 0xC7, 0x03, 0xF8, 0x28, 0xB0, 0x4C, 0x6C, 0x19, 0x70, 0x06, 0xD1, 0x72, 0x18] := by
  decide +kernel

/-- R152's example: four bytes counted. -/
theorem test_sha1Byte :
    ((after .sha1Reset State.reset).bind (after (.sha1Byte 0x61))).map (fun t => (t.sha.chain, t.sha.blkLen, t.sha.len))
      = some (sha1Seed, 1, 8) := by decide +kernel

/-- Vector SH-1: SHA-1 of "abc". -/
theorem test_sha1_abc :
    ((after .sha1Buf (machine (slices 0 0 3 0) 0 0 [0x61, 0x62, 0x63])).bind (after .sha1Final)).map
        (fun t => (memRead t 0 20, statusWord t))
      = some ([0xA9, 0x99, 0x3E, 0x36, 0x47, 0x06, 0x81, 0x6A, 0xBA, 0x3E, 0x25, 0x71, 0x78, 0x50, 0xC2, 0x6C, 0x9C, 0xD0,
          0xD8, 0x9D], 0x20000) := by decide +kernel

/-- Vectors SH-4 and SH-3: the empty digest in BUF's last 20 bytes, and one byte too far. -/
theorem test_sha1_empty :
    (stored .sha1Final { State.reset with a0 := 0xFFEC } 0xFFEC 20,
      (after .sha1Final { State.reset with a0 := 0xFFED }).map statusWord)
      = (some ([0xDA, 0x39, 0xA3, 0xEE, 0x5E, 0x6B, 0x4B, 0x0D, 0x32, 0x55, 0xBF, 0xEF, 0x95, 0x60, 0x18, 0x90, 0xAF,
          0xD8, 0x07, 0x09], 0x20000), some 0x4007) := by decide +kernel

/-- Vectors CRC-1 and CRC-2. -/
theorem test_crcByte_crcRead :
    (((after (.crcByte 0x61) State.reset).bind (after (.crcByte 0x62))).bind (outcome .crcRead),
      (after .crcInit { State.reset with crcReg := 0 }).bind (outcome .crcRead))
      = (some (0x9E83486D, 0), some (0, 0)) := by decide +kernel

/-- Vector CRC-4: A0[63:32] is ignored. -/
theorem test_crcLoad_crcRaw :
    ((after .crcLoad { State.reset with a0 := 0xFFFFFFFF9E83486D }).bind (after (.crcByte 0x63))).bind (outcome .crcRaw)
      = some (0xE726AE4F, 0) := by decide +kernel

/-- The check value of R171, and vector CRC-6. -/
theorem test_crcBuf :
    ((after .crcBuf (machine (slices 0 0 9 0) 0 0 [0x31, 0x32, 0x33, 0x34, 0x35, 0x36, 0x37, 0x38, 0x39])).bind
        (outcome .crcRead),
      (after .crcBuf { State.reset with a0 := slices 0 0 2 0xFFFF }).map (fun t => (t.crcReg, statusWord t)))
      = (some (0xCBF43926, 0), some (0xFFFFFFFF, 0x4007)) := by decide +kernel

/-- Vectors CRC-8 and CRC-9. -/
theorem test_crcCheck :
    (outcome .crcCheck { State.reset with crcReg := 0xCADBBE3D, a0 := 0x352441C2 },
      outcome .crcCheck { State.reset with crcReg := 0xCADBBE3D })
      = (some (0x352441C2, 0), some (0x352441C2, 0x0202)) := by decide +kernel

/-- The regression bound of R203, with the bytes of vector LZ-5; and LZ-1, one byte too few. -/
theorem test_lzComp :
    (stored .lzComp (machine (slices 10 0x1000 11 0) 0 0
        [0x61, 0x62, 0x61, 0x62, 0x63, 0x62, 0x61, 0x62, 0x61, 0x62, 0x63]) 0x1000 10,
      outcome .lzComp (machine (slices 9 0x1000 11 0) 0 0
        [0x61, 0x62, 0x61, 0x62, 0x63, 0x62, 0x61, 0x62, 0x61, 0x62, 0x63]))
      = (some ([0x30, 0x98, 0x8C, 0x26, 0x23, 0x19, 0x8A, 0x00, 0x50, 0x20], 0), some (0x0000004C0000000A, 0x4007)) := by
  decide +kernel

/-- "aabaaaa" under (BO, WB, OB, LB) = (0, 4, 4, 4): the lazy check fires (spec/95_test_vectors.md section 6). -/
theorem test_lzComp_lazy :
    stored .lzComp { machine (slices 6 0x1000 7 0) 0 0 [0x61, 0x61, 0x62, 0x61, 0x61, 0x61, 0x61] with cfg := 0x04040400 }
        0x1000 6 = some ([0x30, 0x98, 0x4C, 0x46, 0x18, 0x08], 0) := by decide +kernel

/-- Vectors LZ-7 and LZ-8. -/
theorem test_lzDecomp :
    ([11, 12].map fun n => (after .lzDecomp
        (machine (slices n 0x2000 10 0x1000) 0 0x1000 [0x30, 0x98, 0x8C, 0x26, 0x23, 0x19, 0x8A, 0x00, 0x50, 0x20])).map
        fun t => (memRead t 0x2000 11, t.res, t.err))
      = [some ([0x61, 0x62, 0x61, 0x62, 0x63, 0x62, 0x61, 0x62, 0x61, 0x62, 0x63], 0x0000004C0000000B, 0),
          some ([0x61, 0x62, 0x61, 0x62, 0x63, 0x62, 0x61, 0x62, 0x61, 0x62, 0x63], 0x0000004C0000000B, 4)] := by
  decide +kernel

/-- Corrupt streams Z-1, Z-3 and Z-4. -/
theorem test_lzDecomp_corrupt :
    ([([0x80, 0, 0], 3), ([0x30, 0xC0, 0, 0x02], 3), ([0x30, 0xC0, 0, 0x02], 10)].map fun c : List Byte × Nat =>
        outcome .lzDecomp (machine (slices c.2 0x2000 c.1.length 0x1000) 0 0x1000 c.1))
      = [some (0, 0x0403), some (0x0000000900000001, 0x0403), some (0x0000001F00000005, 0x0804)] := by decide +kernel

/-- Tables of spec/95_test_vectors.md section 7 (H-4, H-8, H-10, H-3 among them). -/
theorem test_hufLoad :
    ([[2, 2, 2, 3, 3], [0, 1, 0, 1], [1, 2, 2, 2], [17], [1, 2], []].map fun table : List Byte =>
        (after .hufLoad (machine (slices 0 0 table.length 0) 0 0 table)).map fun t => (t.huf.nsym, t.huf.valid, t.err))
      = [some (5, true, 0), some (4, true, 0), some (4, false, 3), some (1, false, 3), some (2, false, 3),
          some (0, false, 6)] := by decide +kernel

/-- Vectors HD-1, HD-2 and HD-6. -/
theorem test_hufDecode :
    ([([0x1B, 0xC0], 0x080D0D00, 0, 5), ([0xD8, 0x03], 0x080D0D01, 0, 5), ([0xFF], 0x080D0D00, 6, 1)].map
        fun c : List Byte × Word × DWord × Nat =>
        outcome .hufDecode { machine (slices c.2.2.2 0x20 c.1.length 0x10) c.2.2.1 0x10 c.1 with
          cfg := c.2.1, huf := ⟨[2, 2, 2, 3, 3], 5, true⟩ })
      = [some (0x000000050000000B, 0x40000), some (0x000000050000000B, 0x40000), some (6, 0x40804)] := by decide +kernel

/-- Program P5, line 5: the bytes stored. -/
theorem test_hufDecode_bytes :
    stored .hufDecode { machine (slices 5 0x20 2 0x10) 0 0x10 [0x1B, 0xC0] with huf := ⟨[2, 2, 2, 3, 3], 5, true⟩ } 0x20 10
      = some ([0, 0, 1, 0, 2, 0, 4, 0, 2, 0], 0x40000) := by decide +kernel

/-- Vectors H-1, H-5, H-6 and H-7. -/
theorem test_hufCode :
    (outcome (.hufCode 0) State.reset,
      [0, 3, 4].map fun sym : Half => outcome (.hufCode sym) { State.reset with huf := ⟨[0, 1, 0, 1], 4, true⟩ })
      = (some (0, 0x0403), [some (0, 0x40000), some (0x0000000100000001, 0x40000), some (0, 0x42006)]) := by decide +kernel

/-- Vectors ZC-7 and ZC-1. -/
theorem test_zcPwByte_zcKey_zcKsb :
    (((after .zcInit { State.reset with keys := ⟨0, 0, 0⟩ }).bind (after (.zcPwByte 0))).map fun t =>
        [0, 1, 2].map fun idx : Byte => (outcome (.zcKey idx) t).map Prod.fst,
      outcome .zcKsb State.reset, outcome (.zcKey 3) State.reset)
      = (some [some 0x5ECCCD58, some 0xC0F30B66, some 0x6B5F078C], some (0xAB, 0), some (0, 0x2006)) := by decide +kernel

/-- Vector ZC-2: the keystream byte after "password". -/
theorem test_zcPwBuf :
    (after .zcPwBuf (machine (slices 0 0 8 0x40) 0 0x40 [0x70, 0x61, 0x73, 0x73, 0x77, 0x6F, 0x72, 0x64])).bind
        (outcome .zcKsb) = some (0xEE, 0) := by decide +kernel

/-- Vector ZC-3: "Hello" in place, and ZC-5: an overlap that is refused. -/
theorem test_zcEnc :
    (stored .zcEnc { machine (slices 0 0 5 0) 0 0 [0x48, 0x65, 0x6C, 0x6C, 0x6F] with
        keys := ⟨0xEA9B4E4D, 0xBA789085, 0x5FF8707D⟩ } 0 5,
      (after .zcEnc (machine (slices 0 2 5 0) 0 0 [])).map statusWord)
      = (some ([0xA6, 0x89, 0xB2, 0x4A, 0xC5], 0), some 0x4007) := by decide +kernel

/-- R247's example: "Hello" back, and the keys afterwards. -/
theorem test_zcDec :
    (after .zcDec { machine (slices 0 0x80 5 0) 0 0 [0xA6, 0x89, 0xB2, 0x4A, 0xC5] with
        keys := ⟨0xEA9B4E4D, 0xBA789085, 0x5FF8707D⟩ }).map (fun t => (memRead t 0x80 5, t.keys))
      = some ([0x48, 0x65, 0x6C, 0x6C, 0x6F], ⟨0xBF8C811E, 0x93ED1ED6, 0x65AB2AA4⟩) := by decide +kernel

/-- Program P3, line 10, and the same header with a check byte it does not have. -/
theorem test_zcHdrChk :
    ([0x35, 0x36].map fun check : Byte => outcome (.zcHdrChk check)
        { machine (slices 0 0x200 0 0x100) 0 0x100
            [0xE2, 0xE7, 0x17, 0xCF, 0x72, 0x24, 0x32, 0x06, 0x6B, 0xF6, 0x05, 0x03] with
          keys := ⟨0x84B08862, 0xA9D03C15, 0x0C0A49ED⟩ })
      = [some (0x35, 0), some (0x35, 0x0202)] := by decide +kernel

/-- R52: a 64-bit host write to BUF and a one-byte read of its lowest address; and R23: a half of A0. -/
theorem test_host_access :
    (match step { State.reset with host := [.write 0x10008 8 0x1122334455667788] } with
      | .next t => hostReadValue t 0x10008 1
      | _ => .error .widthOrAlignment) = .ok 0x88
    ∧ (match step { State.reset with a0 := 0xAAAAAAAABBBBBBBB, host := [.write 0x0C 4 0x12345678] } with
      | .next t => t.a0
      | _ => 0) = 0x12345678BBBBBBBB := ⟨by rfl, by decide +kernel⟩

/-! ## A state that meets the hypotheses of each obligation -/


/-- Two regions one after the other share no address. -/
theorem regions_apart (r q : Region) (h : r.base + r.len ≤ q.base) (a : Nat) : ¬ (r.has a ∧ q.has a) := by
  unfold Region.has; omega

/-- A command ends in a next state with a property that evaluation shows. -/
theorem ends_with {i : Instr} {s : State} (p : State → Bool) (h : (after i s).any p = true) :
    ∃ t, exec i s = .next t ∧ p t = true := by
  unfold after at h
  cases hr : exec i s with
  | next t => rw [hr] at h; exact ⟨t, rfl, h⟩
  | fault f => exact nomatch f
  | refused r => rw [hr] at h; exact nomatch h

/-- The reset state with these host events to come. -/
def hostDoing (events : List HostEvent) : State := { State.reset with host := events }

theorem witness_DecodedWordIsTheEncoding : decode 0x00003575#32 = .ok (.zcHdrChk 0x35) := by rfl

theorem witness_StepExecutesTheDecodedCommand :
    (State.reset.withFetchWord 32 0x00006342).host = cmdWrite 0x00006342 :: [] ∧ decode 0x00006342 = .ok (.crcByte 0x63) :=
  ⟨by decide +kernel, rfl⟩

/-- The first and last function of every clause. -/
theorem witness_UnassignedOpcodesRaiseIllegalCommand :
    (State.reset.withFetchWord 32 0x06).host = cmdWrite 0x06 :: []
      ∧ ∀ w ∈ [0x06, 0x0F, 0x14, 0x1F, 0x24, 0x2F, 0x34, 0x3F, 0x47, 0x4F, 0x52, 0x5F, 0x63, 0x6F, 0x78, 0x7F, 0x80, 0xFF],
        let unit := w / 16 % 16
        let func := w % 16
        (unit = 0 ∧ 6 ≤ func) ∨ (unit = 1 ∧ 4 ≤ func) ∨ ((unit = 2 ∨ unit = 3) ∧ 4 ≤ func) ∨ (unit = 4 ∧ 7 ≤ func)
          ∨ (unit = 5 ∧ 2 ≤ func) ∨ (unit = 6 ∧ 3 ≤ func) ∨ (unit = 7 ∧ 8 ≤ func) ∨ 8 ≤ unit := by decide +kernel

theorem witness_IllegalFieldsRaiseIllegalCommand :
    (hostDoing [cmdWrite 0x80000077]).host = cmdWrite 0x80000077 :: []
      ∧ (∃ row ∈ opcodeTable, (0x80000077 : Word) &&& 0xFF = row.1 ∧ ¬ matchesRow 0x80000077 row)
      ∧ (∃ row ∈ opcodeTable, (0x00000100 : Word) &&& 0xFF = row.1 ∧ ¬ matchesRow 0x00000100 row)
      ∧ (∃ i, decode 0x00008010 = .ok i ∧ i.wellFormed = false) ∧ (∃ i, decode 0x00000376 = .ok i ∧ i.wellFormed = false) :=
  ⟨rfl, ⟨(0x77, 0xFFFFFFFF), by simp [opcodeTable], by decide, by unfold matchesRow; decide⟩,
    ⟨(0x00, 0xFFFFFFFF), by simp [opcodeTable], by decide, by unfold matchesRow; decide⟩,
    ⟨_, rfl, by decide⟩, ⟨_, rfl, by decide⟩⟩

/-- Accesses that are allowed and refused, at the edges of the map. -/
theorem witness_HostAccessRefusedExactlyWhenNotAllowed :
    (hostDoing [.read 0x1FFF8 8]).host = .read 0x1FFF8 8 :: []
      ∧ (hostDoing [.write 0x20 4 0]).host = .write 0x20 4 0 :: []
      ∧ hostReadAllowed 0x1FFF8 8 ∧ ¬ hostWriteAllowed 0x20 4 ∧ hostReadAllowed 0x20 4 ∧ ¬ hostReadAllowed 0x24 4
      ∧ ¬ hostReadAllowed 0xFFFC 4 ∧ ¬ hostReadAllowed 0x10001 2 := by
  unfold hostReadAllowed hostWriteAllowed bufAccess
  exact ⟨rfl, rfl, by decide, by decide, by decide, by decide, by decide, by decide⟩

theorem witness_HostReadsReturnTheirBytesLittleEndian :
    (hostDoing [.read 0x1C 4]).host = .read (BitVec.ofNat 17 0x1C) 4 :: []
      ∧ (hostDoing [.read 0x1FFFF 1]).host = .read 0x1FFFF 1 :: []
      ∧ bufAccess (0x1FFFF#17).toNat 1 ∧ bufAccess (0x10000#17).toNat 8 := by
  unfold bufAccess
  decide +kernel

theorem witness_HostWritesStoreTheirBytesLittleEndian :
    (∀ e ∈ [HostEvent.write 0x08 8 7, .write 0x08 4 7, .write 0x0C 4 7, .write 0x10 8 7, .write 0x10 4 7, .write 0x14 4 7],
        (hostDoing [e]).host = e :: [])
      ∧ (hostDoing [.write 0x1FFF8 8 7]).host = .write 0x1FFF8 8 7 :: []
      ∧ bufAccess (0x1FFF8#17).toNat 8 ∧ bufAccess (0x10002#17).toNat 2 := by
  unfold bufAccess
  decide +kernel

theorem witness_ResetLeavesTheValuesOfTheSpec :
    ({ State.reset with cmd := 7, cfg := 0x10101001, host := [.reset] } : State).host = .reset :: [] := rfl

/-- A state that is not reset's, meets the invariant, and steps on. -/
def working : State :=
  { machine 0x35 0 0xFFFF [0x61] with
    err := 2, sticky := 2, huf := ⟨[1, 1], 2, true⟩, md5 := md5Absorb State.reset.md5 0x61, host := [cmdWrite 0x41] }

theorem witness_EveryStepKeepsTheInvariant : Inv working ∧ ∃ t, step working = .next t := by
  refine ⟨⟨by decide +kernel, by decide +kernel, by decide +kernel, ?_, by decide +kernel, by decide +kernel, by decide +kernel, ?_, by decide +kernel, by decide +kernel, by decide +kernel⟩, _, rfl⟩
  · intro e; cases e <;> decide +kernel
  · decide +kernel

/-- Each of the three outcomes. -/
theorem witness_EveryCommandRecordsItsOutcome :
    (∃ t, exec .nop State.reset = .next t ∧ t.err = 0) ∧ (∃ t, exec .clrErr State.reset = .next t ∧ t.sticky = 0)
      ∧ ∃ t, exec .hufDecode State.reset = .next t ∧ t.err = 3 :=
  ⟨⟨_, rfl, rfl⟩, ⟨_, rfl, rfl⟩, ⟨_, rfl, rfl⟩⟩

theorem witness_CheckErrorsChangeOnlyStatus :
    (∃ t, exec (.zcKey 3) State.reset = .next t ∧ t.err = 6)
      ∧ (∃ t, exec .setCfg { State.reset with a0 := 0x080D1100 } = .next t ∧ (t.err == 5) = true)
      ∧ (∃ t, exec .lzComp (machine (slices 1 0x1000 1 0) 0 0 [0x61]) = .next t ∧ (t.err == 7) = true)
      ∧ ∃ t, exec .crcBuf { State.reset with a0 := slices 0 0 2 0xFFFF } = .next t ∧ (t.err == 7) = true :=
  ⟨⟨_, rfl, rfl⟩, ends_with (fun t => t.err == 5) (by decide +kernel), ends_with (fun t => t.err == 7) (by decide +kernel),
    ends_with (fun t => t.err == 7) (by decide +kernel)⟩

theorem witness_CommandsWriteOnlyTheirOwnState :
    (∃ t, exec .nop State.reset = .next t) ∧ unitOf .nop ≠ 2 ∧ unitOf .nop ≠ 3 ∧ unitOf .nop ≠ 4 ∧ unitOf .nop ≠ 7
      ∧ writesRes .nop = false := ⟨⟨_, rfl⟩, by decide +kernel, by decide +kernel, by decide +kernel, by decide +kernel, rfl⟩

/-- The last byte of BUF changes. -/
theorem witness_CommandsWriteInsideTheirRegion :
    ∃ t, exec (.scEnc ⟨.w8, false, .little, .requireMatch, false⟩ 0) (machine (slices 0 0 1 0xFFFF) 0x42 0xFFFF [0x41]) = .next t
      ∧ (bufByte t 0xFFFF != bufByte (machine (slices 0 0 1 0xFFFF) 0x42 0xFFFF [0x41]) 0xFFFF) = true :=
  ends_with (fun t => bufByte t 0xFFFF != bufByte (machine (slices 0 0 1 0xFFFF) 0x42 0xFFFF [0x41]) 0xFFFF)
    (by decide +kernel)

/-- Two memories that agree on the source region (0, 1) and differ elsewhere. -/
theorem witness_CommandsReadInsideTheirRegion :
    (∀ a, (readRegion .crcBuf (machine (slices 0 0 1 0) 0 0 [0x61, 0x62])).has a →
        bufByte { machine (slices 0 0 1 0) 0 0 [0x61, 0x62] with mem := [(0, 0x61), (1, 0x63)] } a
          = bufByte (machine (slices 0 0 1 0) 0 0 [0x61, 0x62]) a)
      ∧ (∃ t, exec .crcBuf (machine (slices 0 0 1 0) 0 0 [0x61, 0x62]) = .next t)
      ∧ ∃ u, exec .crcBuf { machine (slices 0 0 1 0) 0 0 [0x61, 0x62] with mem := [(0, 0x61), (1, 0x63)] } = .next u := by
  refine ⟨fun a h => ?_, by simp only [exec, execCrcBuf]; exact checked_total _ _ _,
    by simp only [exec, execCrcBuf]; exact checked_total _ _ _⟩
  have : a = 0 := by
    have h1 : a < 0 + f1 (slices 0 0 1 0) := h.2
    have h2 : f1 (slices 0 0 1 0) = 1 := by decide +kernel
    omega
  subst this
  decide +kernel

/-- A0 for each clause, at the first value past its bound. -/
theorem witness_RegionChecksRaiseBoundsError :
    State.reset.md5.done = false ∧ State.reset.sha.done = false ∧ working.huf.valid = true
      ∧ 65536 < f0 (slices 0 0 2 0xFFFF) + f1 (slices 0 0 2 0xFFFF) ∧ 65536 < f0 0xFFF1 + 16 ∧ 65536 < f0 0xFFED + 20
      ∧ 65536 < f2 (slices 2 0xFFFF 0 0) + f3 (slices 2 0xFFFF 0 0)
      ∧ 65536 < f2 (slices 1 0xFFFF 0 0) + 2 * f3 (slices 1 0xFFFF 0 0)
      ∧ 8 * f1 (slices 0 0 2 0) < (low32 17).toNat ∧ 65536 < f2 (slices 0 0xFFFF 2 0) + f1 (slices 0 0xFFFF 2 0)
      ∧ 65536 < f0 0xFFF5 + 12 ∧ 65536 < f2 (slices 0 0xFFF5 0 0) + 12
      ∧ (lzSource { State.reset with a0 := slices 1 10 11 0 }).has 10 ∧ (lzDest { State.reset with a0 := slices 1 10 11 0 }).has 10
      ∧ (hufSource { State.reset with a0 := slices 1 0x11 2 0x10 }).has 0x11
      ∧ (hufDest { State.reset with a0 := slices 1 0x11 2 0x10 }).has 0x11
      ∧ f0 (slices 0 4 5 0) ≠ f2 (slices 0 4 5 0) ∧ (sourceRegion { State.reset with a0 := slices 0 4 5 0 }).has 4
      ∧ (Region.mk (f2 (slices 0 4 5 0)) (f1 (slices 0 4 5 0))).has 4
      ∧ f0 (slices 0 11 0 0) ≠ f2 (slices 0 11 0 0) ∧ (Region.mk (f0 (slices 0 11 0 0)) 12).has 11
      ∧ (Region.mk (f2 (slices 0 11 0 0)) 12).has 11 := by
  unfold Region.has
  decide +kernel

/-- The three clauses: the largest and the smallest legal value, a misfit that is also too wide, and a too wide one. -/
theorem witness_SetCfgAcceptsTheLegalValues :
    let wb (v : Nat) := v / 2 ^ 8 % 32
    let ob (v : Nat) := v / 2 ^ 16 % 32
    let lb (v : Nat) := v / 2 ^ 24 % 32
    let misfit (v : Nat) : Prop := v &&& 0xE0E0E0FE ≠ 0 ∨ ob v = 0 ∨ lb v = 0 ∨ wb v < ob v
    (¬ misfit 0x10101001 ∧ wb 0x10101001 ≤ 16 ∧ lb 0x10101001 ≤ 16) ∧ (¬ misfit 0x01010100 ∧ wb 0x01010100 ≤ 16)
      ∧ misfit 0x08151400 ∧ misfit 0x080D0D02 ∧ (¬ misfit 0x080D1100 ∧ 16 < wb 0x080D1100)
      ∧ (¬ misfit 0x11101000 ∧ 16 < lb 0x11101000) := by decide +kernel

/-- A little-endian and a big-endian field that end where their region and BUF end; a native one is one or the other. -/
theorem witness_ScDecReadsAPlainField :
    (∀ o ∈ [FieldOrder.little, .big, .native], (FieldDesc.mk .w64 true o .requireMatch false).wellFormed = true ∧ o ≠ .dual)
      ∧ f0 (slices 0 0 8 0xFFF8) + f1 (slices 0 0 8 0xFFF8) ≤ 65536
      ∧ (0 : Half).toNat + widthBytes .w64 ≤ f1 (slices 0 0 8 0xFFF8)
      ∧ (Config.nativeEndian = .little ∨ Config.nativeEndian = .big) := by
  refine ⟨by decide +kernel, by decide +kernel, by decide +kernel, ?_⟩
  cases Config.nativeEndian
  · exact .inl rfl
  · exact .inr rfl

/-- The two copies of a 16-bit dual field at address 0. -/
def copies (bs : List Byte) : Nat × Nat :=
  ((Finset.range 2).sum fun i => (bufByte (machine (slices 0 0 4 0) 0 0 bs) (0 + i)).toNat * 256 ^ i,
    (Finset.range 2).sum fun i => (bufByte (machine (slices 0 0 4 0) 0 0 bs) (0 + 2 + i)).toNat * 256 ^ (2 - 1 - i))

/-- Copies that agree and copies that differ, for a field that fills its region. -/
theorem witness_ScDecTreatsADualFieldByItsPolicy :
    (∀ p ∈ [DualPolicy.requireMatch, .preferLittle, .preferBig], (FieldDesc.mk .w16 false .dual p false).wellFormed = true)
      ∧ f0 (slices 0 0 4 0) + f1 (slices 0 0 4 0) ≤ 65536 ∧ (0 : Half).toNat + 2 * widthBytes .w16 ≤ f1 (slices 0 0 4 0)
      ∧ (copies [0x34, 0x12, 0x12, 0x34]).1 = (copies [0x34, 0x12, 0x12, 0x34]).2
      ∧ (copies [0x34, 0x12, 0x12, 0x35]).1 ≠ (copies [0x34, 0x12, 0x12, 0x35]).2 := by decide +kernel

/-- The smallest signed byte and the largest unsigned half, in fields that end where their region ends. -/
theorem witness_ScEncStoresTheField :
    (FieldDesc.mk .w8 true .little .requireMatch false).wellFormed = true
      ∧ f0 (slices 0 0 8 0) + f1 (slices 0 0 8 0) ≤ 65536
      ∧ (7 : Half).toNat + fieldSize ⟨.w8, true, .little, .requireMatch, false⟩ ≤ f1 (slices 0 0 8 0)
      ∧ ((0xFFFFFFFFFFFFFF80 : DWord).setWidth 8).signExtend 64 = (0xFFFFFFFFFFFFFF80 : DWord)
      ∧ (FieldDesc.mk .w16 false .dual .preferBig false).wellFormed = true
      ∧ (4 : Half).toNat + fieldSize ⟨.w16, false, .dual, .preferBig, false⟩ ≤ f1 (slices 0 0 8 0)
      ∧ (0xFFFF : DWord).toNat < 2 ^ 16 := by decide +kernel

theorem witness_StructCommandsCheckInOrder :
    (FieldDesc.mk .w8 false .dual .requireMatch false).wellFormed = false
      ∧ (FieldDesc.mk .w16 false .little .requireMatch false).wellFormed = true
      ∧ 65536 < f0 (slices 0 0 8 0xFFFC) + f1 (slices 0 0 8 0xFFFC) ∧ f0 (slices 0 0 8 0) + f1 (slices 0 0 8 0) ≤ 65536
      ∧ f1 (slices 0 0 8 0) < (7 : Half).toNat + fieldSize ⟨.w16, false, .little, .requireMatch, false⟩
      ∧ (6 : Half).toNat + fieldSize ⟨.w16, false, .little, .requireMatch, false⟩ ≤ f1 (slices 0 0 8 0)
      ∧ 2 ^ 16 ≤ (0x10000 : DWord).toNat ∧ ((0x80 : DWord).setWidth 8).signExtend 64 ≠ (0x80 : DWord)
      ∧ 65536 < f0 (slices 0 0 1 0xFFFF + 0x10000) + f1 (slices 0 0 1 0xFFFF + 0x10000)
      ∧ f1 (slices 0 0 8 0) < (0 : Half).toNat + f1 (slices 0 0 9 0x100)
      ∧ (0 : Half).toNat + f1 (slices 0 0 8 7) ≤ f1 (slices 0 0 8 0)
      ∧ (arrayField { State.reset with a0 := slices 0 0 8 0, a1 := slices 0 0 8 7 } 0).has 7
      ∧ (arrayRegion { State.reset with a0 := slices 0 0 8 0, a1 := slices 0 0 8 7 }).has 7 := by
  unfold Region.has
  decide +kernel

/-- Neighbouring regions; a destination just past the struct region; and a sub-struct that ends where the struct does. -/
theorem witness_ArrayCommandsCopyTheBytes :
    let s := machine (slices 0 0 5 0x20) (slices 0 0 2 0x22) 0x20 [0x48, 0x45]
    let u := machine (slices 0 0 5 0x20) (slices 0 0 2 0x25) 0x20 [0x48, 0x45]
    let y := slices 0 0 3 0x22
    (f0 s.a0 + f1 s.a0 ≤ 65536 ∧ f0 s.a1 + f1 s.a1 ≤ 65536 ∧ (0 : Half).toNat + f1 s.a1 ≤ f1 s.a0
        ∧ ∀ x, ¬ ((arrayField s 0).has x ∧ (arrayRegion s).has x))
      ∧ ((∀ x, ¬ ((structRegion u).has x ∧ (arrayRegion u).has x))
        ∧ (∃ t, exec (.scAdec 0) u = .next t) ∧ ∃ t, exec (.scDec ⟨.w8, false, .little, .requireMatch, false⟩ 0) u = .next t)
      ∧ f0 y = f0 s.a0 + 2 ∧ 2 + f1 y ≤ f1 s.a0 ∧ (1 : Half).toNat + f1 s.a1 ≤ f1 y
        ∧ (2 : Half).toNat + fieldSize ⟨.w8, false, .little, .requireMatch, false⟩ ≤ f1 y :=
  ⟨⟨by decide +kernel, by decide +kernel, by decide +kernel, regions_apart _ _ (by decide +kernel)⟩,
    ⟨regions_apart _ _ (by decide +kernel), by simp only [exec, execScAdec]; exact checked_total _ _ _,
      by simp only [exec, execScDec]; exact checked_total _ _ _⟩,
    by decide +kernel, by decide +kernel, by decide +kernel, by decide +kernel⟩

theorem witness_StructFieldsRoundTrip :
    (FieldDesc.mk .w16 true .dual .preferLittle false).wellFormed = true
      ∧ f0 (slices 0 0 4 0xFFFC) + f1 (slices 0 0 4 0xFFFC) ≤ 65536
      ∧ (0 : Half).toNat + fieldSize ⟨.w16, true, .dual, .preferLittle, false⟩ ≤ f1 (slices 0 0 4 0xFFFC)
      ∧ fieldOutOfRange ⟨.w16, true, .dual, .preferLittle, false⟩ 0xFFFFFFFFFFFF8000 = false
      ∧ f1 (slices 0 0 3 0x40) = f1 (slices 0 0 3 0x30)
      ∧ (∃ t, exec (.scAenc 2) (machine (slices 0 0 5 0x20) (slices 0 0 3 0x30) 0x30 [0x48, 0x45, 0x4C]) = .next t
          ∧ t.err = 0 ∧ ∃ u, exec (.scAdec 2) { t with a1 := slices 0 0 3 0x40 } = .next u ∧ u.err = 0) := by
  refine ⟨by decide, by decide +kernel, by decide +kernel, by decide +kernel, by decide +kernel, ?_⟩
  obtain ⟨t, run, ok⟩ := ends_with (i := .scAenc 2)
    (s := machine (slices 0 0 5 0x20) (slices 0 0 3 0x30) 0x30 [0x48, 0x45, 0x4C])
    (fun t => t.err == 0 && (after (.scAdec 2) { t with a1 := slices 0 0 3 0x40 }).any fun u => u.err == 0)
    (by decide +kernel)
  obtain ⟨good, ok⟩ := Bool.and_eq_true_iff.mp ok
  obtain ⟨u, run', good'⟩ := ends_with _ ok
  exact ⟨t, run, beq_iff_eq.mp good, u, run', beq_iff_eq.mp good'⟩

/-- A core whose block buffer is one byte short of full, an empty one, and a finalised one. -/
theorem witness_HashByteCommandsAbsorbOneByte :
    (md5AbsorbAll State.reset.md5 (List.replicate 63 0)).done = false
      ∧ (md5AbsorbAll State.reset.md5 (List.replicate 63 0)).blkLen.val = 63 ∧ State.reset.md5.blkLen.val < 63
      ∧ (sha1AbsorbAll State.reset.sha (List.replicate 63 0)).done = false
      ∧ (sha1AbsorbAll State.reset.sha (List.replicate 63 0)).blkLen.val = 63 ∧ State.reset.sha.blkLen.val < 63
      ∧ (md5Finish State.reset.md5).done = true ∧ (sha1Finish State.reset.sha).done = true := by decide +kernel

theorem witness_HashRegionCommandsAbsorbTheirRegion :
    State.reset.md5.done = false ∧ State.reset.sha.done = false
      ∧ f0 (slices 0 0 1 0xFFFF) + f1 (slices 0 0 1 0xFFFF) ≤ 65536
      ∧ (md5Finish State.reset.md5).done = true ∧ (sha1Finish State.reset.sha).done = true := by decide +kernel

/-- A region command of a feed, its bytes given as a list. -/
theorem feed_region {byteCmd : Byte → Instr} {bufCmd : Instr} {α : Type} {unit : State → α} (s : State) {t : State}
    {l : List Byte} {y : α} (bytes : regionRead s (sourceRegion s) = l) (run : exec bufCmd s = .next t) (good : t.err = 0)
    (last : unit t = y) : Feed byteCmd bufCmd unit (unit s) l y := by
  subst last
  have h : Feed byteCmd bufCmd unit (unit s) (regionRead s (sourceRegion s) ++ []) (unit t) :=
    .region rfl run good (.done (unit t))
  rwa [List.append_nil, bytes] at h

/-- Two ways to feed "ab" to CRC_REG: two bytes, and one region. -/
theorem feed_crc_bytes : ∃ y, Feed .crcByte .crcBuf State.crcReg State.reset.crcReg [0x61, 0x62] y :=
  ⟨_, .byte (s := State.reset) rfl rfl rfl
    (.byte (s := { State.reset with crcReg := crcStep State.reset.crcReg 0x61 }) rfl rfl rfl (.done _))⟩

theorem feed_crc_region : ∃ y, Feed .crcByte .crcBuf State.crcReg State.reset.crcReg [0x61, 0x62] y :=
  ⟨_, feed_region (machine (slices 0 0 2 0) 0 0 [0x61, 0x62]) (by decide +kernel)
    (by simp only [exec, execCrcBuf]; exact checked_of_none (by decide +kernel) _ _) rfl rfl⟩

theorem feed_md5 : ∃ x, Feed .md5Byte .md5Buf State.md5 State.reset.md5 [0x61, 0x62] x :=
  ⟨_, .byte (s := State.reset) rfl rfl rfl
    (feed_region { machine (slices 0 0 1 0) 0 0 [0x62] with md5 := md5Absorb State.reset.md5 0x61 } (by decide +kernel)
      (by simp only [exec, execMd5Buf]; exact checked_of_none (by decide +kernel) _ _) rfl rfl)⟩

theorem feed_sha1 : ∃ x, Feed .sha1Byte .sha1Buf State.sha State.reset.sha [0x61, 0x62] x :=
  ⟨_, .byte (s := State.reset) rfl rfl rfl
    (feed_region { machine (slices 0 0 1 0) 0 0 [0x62] with sha := sha1Absorb State.reset.sha 0x61 } (by decide +kernel)
      (by simp only [exec, execSha1Buf]; exact checked_of_none (by decide +kernel) _ _) rfl rfl)⟩

theorem feed_keys : ∃ x, Feed .zcPwByte .zcPwBuf State.keys State.reset.keys [0x70, 0x77] x :=
  ⟨_, .byte (s := State.reset) rfl rfl rfl
    (feed_region { machine (slices 0 0 1 0) 0 0 [0x77] with keys := zcUpdate State.reset.keys 0x70 } (by decide +kernel)
      (by simp only [exec, execZcPwBuf]; exact checked_of_none (by decide +kernel) _ _) rfl rfl)⟩

theorem witness_UnitsDoNotDependOnTheSplitOfAMessage :
    (∃ r x, exec .md5Reset State.reset = .next r ∧ Feed .md5Byte .md5Buf State.md5 r.md5 [0x61, 0x62] x)
      ∧ (∃ x, Feed .sha1Byte .sha1Buf State.sha State.reset.sha [0x61, 0x62] x)
      ∧ (∃ x, Feed .crcByte .crcBuf State.crcReg State.reset.crcReg [0x61, 0x62] x)
      ∧ ∃ x, Feed .zcPwByte .zcPwBuf State.keys State.reset.keys [0x70, 0x77] x :=
  ⟨⟨_, _, rfl, feed_md5.choose_spec⟩, feed_sha1, feed_crc_region, feed_keys⟩

/-- The last places for the digests, before and after a FINAL. -/
theorem witness_FinalCommandsWriteTheDigest :
    f0 0xFFF0 + 16 ≤ 65536 ∧ f0 0xFFEC + 20 ≤ 65536 ∧ (md5Finish State.reset.md5).done = true
      ∧ (sha1Finish State.reset.sha).done = true := by decide +kernel

theorem witness_DigestIsThatOfThePaddedMessage :
    (∃ r u t : State, exec .md5Reset State.reset = .next r ∧ Feed .md5Byte .md5Buf State.md5 r.md5 [0x61] u.md5
        ∧ f0 u.a0 + 16 ≤ 65536 ∧ exec .md5Final u = .next t)
      ∧ (∃ r u t : State, exec .sha1Reset State.reset = .next r ∧ Feed .sha1Byte .sha1Buf State.sha r.sha [0x61] u.sha
        ∧ f0 u.a0 + 20 ≤ 65536 ∧ exec .sha1Final u = .next t)
      ∧ (paddedMessage bytesLE [0x61]).length = 64 :=
  ⟨⟨_, { State.reset with md5 := md5Absorb State.reset.md5 0x61 }, _, rfl, .byte (s := State.reset) rfl rfl rfl (.done _),
      by decide +kernel, by simp only [exec, execMd5Final]; exact checked_of_none (by decide +kernel) _ _⟩,
    ⟨_, { State.reset with sha := sha1Absorb State.reset.sha 0x61 }, _, rfl, .byte (s := State.reset) rfl rfl rfl (.done _),
      by decide +kernel, by simp only [exec, execSha1Final]; exact checked_of_none (by decide +kernel) _ _⟩, by decide +kernel⟩

/-- CRC_BUF's region may end where BUF ends; a matching and a differing CRC. -/
theorem witness_CrcCommandsEffects :
    f0 (slices 0 0 1 0xFFFF) + f1 (slices 0 0 1 0xFFFF) ≤ 65536
      ∧ (~~~(0xCADBBE3D : Word)).toNat = (0xFFFFFFFF352441C2 : DWord).toNat % 2 ^ 32
      ∧ (~~~(0xCADBBE3D : Word)).toNat ≠ (0 : DWord).toNat % 2 ^ 32 := by decide +kernel

theorem witness_CrcReadGivesTheCrcOfTheMessage :
    ∃ r u t : State, exec .crcInit State.reset = .next r ∧ Feed .crcByte .crcBuf State.crcReg r.crcReg [0x61] u.crcReg
      ∧ exec .crcRead u = .next t :=
  ⟨_, { State.reset with crcReg := crcStep 0xFFFFFFFF 0x61 }, _, rfl, .byte (s := State.reset) rfl rfl rfl (.done _), rfl⟩

/-- The last bit of a two-byte stream. -/
theorem witness_PackedFieldsReadBack : 15 / 8 < ([0x1B, 0xC0] : List Byte).length
      ∧ 15 < 8 * (packBits true [true, false, true, true, false, true, true, false, true]).length := by decide +kernel

theorem witness_LzParametersAreDerivedFromCfg :
    cfgLegal 0x10101001 = true ∧ cfgLegal 0x01010100 = true ∧ ¬ (1 + 13 + 8 < 9 * 2) ∧ 2 < lzMin ⟨false, 13, 13, 8⟩ := by
  decide +kernel

/-- "ababcbababc" with a capacity of exactly its ten bytes, and with one byte less. -/
theorem witness_LzCompWritesAllOrNothing :
    let inp : List Byte := [0x61, 0x62, 0x61, 0x62, 0x63, 0x62, 0x61, 0x62, 0x61, 0x62, 0x63]
    let s := machine (slices 10 0x1000 11 0) 0 0 inp
    f0 s.a0 + f1 s.a0 ≤ 65536 ∧ f2 s.a0 + f3 s.a0 ≤ 65536 ∧ (∀ a, ¬ ((lzSource s).has a ∧ (lzDest s).has a))
      ∧ ((lzEncode (cfgParams s.cfg) (memRead s (f0 s.a0) (f1 s.a0))).length + 7) / 8 = 10 :=
  ⟨by decide +kernel, by decide +kernel, regions_apart _ _ (by decide +kernel), by decide +kernel⟩

theorem witness_LzEncodingIsBounded : cfgLegal 0x10101001 = true := by decide +kernel

/-- "ababcbababc" under R203's parameters: the last start and the last position, a match taken at 6, and a literal of each
kind: too short at 0, and deferred at 5 by the longer match at 6. -/
theorem witness_LzMatchesFitTheirFields :
    let p : LzParams := ⟨false, 13, 13, 8⟩
    let inp : List Byte := [0x61, 0x62, 0x61, 0x62, 0x63, 0x62, 0x61, 0x62, 0x61, 0x62, 0x63]
    .copy 6 5 ∈ lzParse p inp 11 0
      ∧ 6 - lzDistMax p ≤ 0 ∧ 0 < 6 ∧ lzMatches p inp 6 0 5 ∧ lzMatches p inp 11 10 0
      ∧ bestMatch p inp 0 = (0, 0) ∧ bestMatch p inp 5 = (3, 1) ∧ bestMatch p inp 6 = (5, 0)
      ∧ lzMin p = 3 ∧ ¬ (bestMatch p inp 6).1 < (bestMatch p inp 7).1 := by
  unfold lzMatches
  decide +kernel

/-- The three ends of LZ_DECODE: success, CodecError (vector Z-3) and TruncatedInputError (vector Z-4). -/
theorem witness_LzDecompWritesWhatItDecodes :
    let s (n : Nat) := machine (slices n 0x2000 4 0x1000) 0 0x1000 [0x30, 0xC0, 0x00, 0x02]
    (∀ n ∈ [1, 3, 10], f0 (s n).a0 + f1 (s n).a0 ≤ 65536 ∧ f2 (s n).a0 + f3 (s n).a0 ≤ 65536)
      ∧ (∀ n ∈ [1, 3, 10], (lzSource (s n)).base + (lzSource (s n)).len ≤ (lzDest (s n)).base)
      ∧ lzDecode (cfgParams (s 1).cfg) (memRead (s 1) 0x1000 4) 1 = .ok 9 [0x61]
      ∧ lzDecode (cfgParams (s 3).cfg) (memRead (s 3) 0x1000 4) 3 = .failed .codec 9 [0x61]
      ∧ lzDecode (cfgParams (s 10).cfg) (memRead (s 10) 0x1000 4) 10
          = .failed .truncatedInput 31 [0x61, 0x61, 0x61, 0x61, 0x61] := by decide +kernel

/-- The tokens of that stream: a literal, a match of length 4 at distance 1, which suits 5 bytes and is too long for 4 and
has nothing to copy for an empty output, the end of the stream inside a match, and a position beyond the stream. -/
theorem witness_LzDecompTokens :
    let p : LzParams := ⟨false, 13, 13, 8⟩
    let src : List Byte := [0x30, 0xC0, 0x00, 0x02]
    lzReadToken p src 0 = some (.lit 0x61, 9) ∧ lzReadToken p src 9 = some (.copy 1 4, 31)
      ∧ (0 < 1 ∧ 4 < 1 + 4 ∧ 1 ≤ [(0x61 : Byte)].length ∧ 1 + 4 ≤ 5)
      ∧ streamBit false src 0 = false ∧ 0 + 9 ≤ 8 * src.length ∧ streamBit false src 31 = false ∧ 32 < 31 + 9
      ∧ streamBit false src 9 = true ∧ 9 + 1 + 13 + 8 ≤ 8 * src.length
      ∧ streamBit false [0x80] 0 = true ∧ 8 < 0 + 1 + 13 + 8 ∧ lzReadToken p [0x80] 0 = none
      ∧ 8 * src.length ≤ 32 ∧ lzReadToken p src 32 = none := by decide +kernel

theorem witness_LzRoundTripIsLossless :
    let s := machine (slices 10 0x1000 11 0) 0 0 [0x61, 0x62, 0x61, 0x62, 0x63, 0x62, 0x61, 0x62, 0x61, 0x62, 0x63]
    let x := slices 11 0x2000 10 0x1000
    cfgLegal s.cfg = true ∧ f0 x = f2 s.a0 ∧ f3 x = f1 s.a0 ∧ f2 x + f3 x ≤ 65536
      ∧ ∃ t, exec .lzComp s = .next t ∧ t.err = 0 ∧ f1 x = t.res.toNat % 2 ^ 32
        ∧ (∀ a, ¬ ((lzSource { t with a0 := x }).has a ∧ (lzDest { t with a0 := x }).has a))
        ∧ ∃ u, exec .lzDecomp { t with a0 := x } = .next u := by
  refine ⟨by decide +kernel, by decide +kernel, by decide +kernel, by decide +kernel, ?_⟩
  obtain ⟨t, run, ok⟩ := ends_with (i := .lzComp)
    (s := machine (slices 10 0x1000 11 0) 0 0 [0x61, 0x62, 0x61, 0x62, 0x63, 0x62, 0x61, 0x62, 0x61, 0x62, 0x63])
    (fun t => t.err == 0 && f1 (slices 11 0x2000 10 0x1000) == t.res.toNat % 2 ^ 32) (by decide +kernel)
  obtain ⟨good, size⟩ := Bool.and_eq_true_iff.mp ok
  exact ⟨t, run, beq_iff_eq.mp good, beq_iff_eq.mp size,
    fun a => regions_apart ⟨f0 (slices 11 0x2000 10 0x1000), f1 (slices 11 0x2000 10 0x1000)⟩
      ⟨f2 (slices 11 0x2000 10 0x1000), f3 (slices 11 0x2000 10 0x1000)⟩ (by decide +kernel) a,
    by simp only [exec, execLzDecomp]; exact checked_total _ _ _⟩

/-- A complete table, an incomplete one, and n = 0. -/
theorem witness_HufLoadReplacesAndValidatesTheTable :
    (∀ len ∈ ([2, 2, 2, 3, 3] : List Byte), len.toNat ≤ 16)
      ∧ ((([2, 2, 2, 3, 3] : List Byte).filter (fun len => len ≠ 0)).map fun len => 2 ^ (16 - len.toNat)).sum = 65536
      ∧ ((([1, 2] : List Byte).filter (fun len => len ≠ 0)).map fun len => 2 ^ (16 - len.toNat)).sum ≠ 65536
      ∧ memRead (machine (slices 0 0 5 0) 0 0 [2, 2, 2, 3, 3]) 0 5 = [2, 2, 2, 3, 3]
      ∧ memRead (machine (slices 0 0 2 0) 0 0 [1, 2]) 0 2 = [1, 2] ∧ f1 (slices 0 0 5 0) ≠ 0
      ∧ f0 (slices 0 0 5 0xFFFB) + f1 (slices 0 0 5 0xFFFB) ≤ 65536 ∧ f1 (slices 0 0 0 7) = 0 := by decide +kernel

/-- A shorter and a longer code of one table. -/
theorem witness_HuffmanTablesAreCanonical :
    hufTableValid [2, 2, 2, 3, 3] = true ∧ hufPresent [2, 2, 2, 3, 3] 2 ∧ hufPresent [2, 2, 2, 3, 3] 4 := by
  unfold hufPresent
  decide +kernel

/-- Table [0, 1, 0, 1]: an absent symbol, the last symbol, and the first one beyond; and no table. -/
theorem witness_HufCodeReportsTheCode :
    let s : State := { State.reset with huf := ⟨[0, 1, 0, 1], 4, true⟩ }
    s.huf.valid = true ∧ (3 : Half).toNat < s.huf.nsym.toNat ∧ ((hufTable s).getD 3 0).toNat ≠ 0
      ∧ ((hufTable s).getD 0 0).toNat = 0 ∧ State.reset.huf.valid = false ∧ s.huf.nsym.toNat ≤ (4 : Half).toNat := by decide +kernel

/-- The two ends of HUF_DECODE: five symbols and a start bit at the end of the stream; vectors HD-1 and HD-6. -/
theorem witness_HufDecodeStoresTheSymbols :
    let s : State := { machine (slices 5 0x20 2 0x10) 0 0x10 [0x1B, 0xC0] with huf := ⟨[2, 2, 2, 3, 3], 5, true⟩ }
    let u : State := { machine (slices 1 0x20 1 0x10) 6 0x10 [0xFF] with huf := ⟨[2, 2, 2, 3, 3], 5, true⟩ }
    (s.huf.valid = true ∧ f0 s.a0 + f1 s.a0 ≤ 65536 ∧ f2 s.a0 + 2 * f3 s.a0 ≤ 65536
        ∧ (∀ a, ¬ ((hufSource s).has a ∧ (hufDest s).has a)) ∧ (low32 s.a1).toNat ≤ 8 * f1 s.a0
        ∧ hufDecodeLoop (hufTable s) (cfgParams s.cfg).bo (memRead s (f0 s.a0) (f1 s.a0)) (f3 s.a0) (low32 s.a1).toNat
          = .ended [0, 1, 2, 4, 2] 11)
      ∧ u.huf.valid = true ∧ f0 u.a0 + f1 u.a0 ≤ 65536 ∧ f2 u.a0 + 2 * f3 u.a0 ≤ 65536
        ∧ (∀ a, ¬ ((hufSource u).has a ∧ (hufDest u).has a)) ∧ (low32 u.a1).toNat ≤ 8 * f1 u.a0
        ∧ hufDecodeLoop (hufTable u) (cfgParams u.cfg).bo (memRead u (f0 u.a0) (f1 u.a0)) (f3 u.a0) (low32 u.a1).toNat
          = .truncated [] 6 :=
  ⟨⟨by decide +kernel, by decide +kernel, by decide +kernel, regions_apart _ _ (by decide +kernel), by decide +kernel, by decide +kernel⟩,
    by decide +kernel, by decide +kernel, by decide +kernel, regions_apart _ _ (by decide +kernel), by decide +kernel, by decide +kernel⟩

/-- Table [2, 2, 2, 3, 3] and the byte 1B, the codes 00, 01, 10 and then 11: three symbols, and the stream ends inside a code
at bit 6; at its very end, bit 8, too. -/
theorem witness_HufDecodeTruncated :
    let table : List Byte := [2, 2, 2, 3, 3]
    let src : List Byte := [0x1B]
    hufTableValid table = true ∧ hufSymbol table false src 4 = some (2, 6) ∧ hufPresent table 2
      ∧ hufSymbol table false src 6 = none ∧ hufPresent table 3
      ∧ streamBits false src 6 2 = [true, true] ∧ hufCodeBits table 3 = [true, true, false]
      ∧ hufSymbol table false src 8 = none
      ∧ hufDecodeLoop table false src 3 0 = .ended [0, 1, 2] 6
      ∧ hufDecodeLoop table false src 5 0 = .truncated [0, 1, 2] 6
      ∧ streamBits false src 0 6 = [0, 1, 2].flatMap (hufCodeBits table) := by
  unfold hufPresent
  decide +kernel

theorem witness_ValidTablesAlwaysDecodeASymbol :
    hufTableValid [2, 2, 2, 3, 3] = true ∧ 0 + 16 ≤ 8 * ([0x1B, 0xC0] : List Byte).length := by decide +kernel

/-- Program P5: the codes of 0, 1, 2, 4, 2 are the first eleven bits of 1B C0. -/
theorem witness_HuffmanCodesArePrefixFreeAndDecode :
    let table : List Byte := [2, 2, 2, 3, 3]
    let s : State := { machine (slices 5 0x20 2 0x10) 0 0x10 [0x1B, 0xC0] with huf := ⟨table, 5, true⟩ }
    let bits := [0, 1, 2, 4, 2].flatMap (hufCodeBits table)
    hufTableValid table = true ∧ (hufPresent table 0 ∧ hufPresent table 4) ∧ (∀ x ∈ [0, 1, 2, 4, 2], hufPresent table x)
      ∧ hufTable s = table ∧ s.huf.valid = true ∧ f3 s.a0 = [0, 1, 2, 4, 2].length ∧ f0 s.a0 + f1 s.a0 ≤ 65536
      ∧ f2 s.a0 + 2 * f3 s.a0 ≤ 65536 ∧ (∀ a, ¬ ((hufSource s).has a ∧ (hufDest s).has a))
      ∧ (low32 s.a1).toNat + bits.length ≤ 8 * f1 s.a0
      ∧ streamBits (cfgParams s.cfg).bo (memRead s (f0 s.a0) (f1 s.a0)) (low32 s.a1).toNat bits.length = bits := by
  refine ⟨by decide +kernel, ?_, ?_, by decide +kernel, by decide +kernel, by decide +kernel, by decide +kernel, by decide +kernel, regions_apart _ _ (by decide +kernel), by decide +kernel,
    by decide +kernel⟩
  · unfold hufPresent; decide +kernel
  · unfold hufPresent; decide +kernel

theorem witness_CipherKeyCommandsEffects :
    f0 (slices 0 0 1 0xFFFF) + f1 (slices 0 0 1 0xFFFF) ≤ 65536 ∧ 2 < (3 : Byte).toNat := by decide +kernel

theorem witness_KeystreamByteIsThatOfKey2 :
    (0x00010000 : Word).toNat % 65536 = (0 : Word).toNat % 65536 ∧ ∃ t, exec .zcKsb State.reset = .next t :=
  ⟨by decide +kernel, _, rfl⟩

/-- In place at the end of BUF, and side by side. -/
theorem witness_ZcEncEncryptsTheRegion :
    (f0 (slices 0 0xFFFB 5 0xFFFB) + f1 (slices 0 0xFFFB 5 0xFFFB) ≤ 65536
        ∧ f2 (slices 0 0xFFFB 5 0xFFFB) + f1 (slices 0 0xFFFB 5 0xFFFB) ≤ 65536
        ∧ f0 (slices 0 0xFFFB 5 0xFFFB) = f2 (slices 0 0xFFFB 5 0xFFFB))
      ∧ ∀ a, ¬ ((sourceRegion { State.reset with a0 := slices 0 5 5 0 }).has a
        ∧ (Region.mk (f2 (slices 0 5 5 0)) (f1 (slices 0 5 5 0))).has a) :=
  ⟨by decide +kernel, regions_apart _ _ (by decide +kernel)⟩

theorem witness_ZcDecDecryptsTheRegion :
    (f0 (slices 0 0 5 0) + f1 (slices 0 0 5 0) ≤ 65536 ∧ f2 (slices 0 0 5 0) + f1 (slices 0 0 5 0) ≤ 65536
        ∧ f0 (slices 0 0 5 0) = f2 (slices 0 0 5 0))
      ∧ ∀ a, ¬ ((sourceRegion { State.reset with a0 := slices 0 5 5 0 }).has a
        ∧ (Region.mk (f2 (slices 0 5 5 0)) (f1 (slices 0 5 5 0))).has a) :=
  ⟨by decide +kernel, regions_apart _ _ (by decide +kernel)⟩

/-- Vector P3: the header checks with 0x35 and not with 0x36. -/
theorem witness_ZcHdrChkDecryptsAndChecksTheHeader :
    (f0 (slices 0 0xFFF4 0 0) + 12 ≤ 65536 ∧ f2 (slices 0 0xFFF4 0 0) + 12 ≤ 65536)
      ∧ (∀ a, ¬ ((Region.mk (f0 (slices 0 12 0 0)) 12).has a ∧ (Region.mk (f2 (slices 0 12 0 0)) 12).has a)) :=
  ⟨by decide +kernel, regions_apart _ _ (by decide +kernel)⟩

theorem witness_ZcDecInvertsZcEnc :
    f0 (slices 0 0x80 5 0x80) = f2 (slices 0 0x80 5 0) ∧ f1 (slices 0 0x80 5 0x80) = f1 (slices 0 0x80 5 0)
      ∧ ∃ t, exec .zcEnc (machine (slices 0 0x80 5 0) 0 0 [0x48, 0x65, 0x6C, 0x6C, 0x6F]) = .next t ∧ t.err = 0
      ∧ ∃ u, exec .zcDec { t with a0 := slices 0 0x80 5 0x80, keys := State.reset.keys } = .next u ∧ u.err = 0 := by
  refine ⟨by decide +kernel, by decide +kernel, ?_⟩
  obtain ⟨t, run, ok⟩ := ends_with (i := .zcEnc) (s := machine (slices 0 0x80 5 0) 0 0 [0x48, 0x65, 0x6C, 0x6C, 0x6F])
    (fun t => t.err == 0 && (after .zcDec { t with a0 := slices 0 0x80 5 0x80, keys := State.reset.keys }).any
      fun u => u.err == 0) (by decide +kernel)
  obtain ⟨good, ok⟩ := Bool.and_eq_true_iff.mp ok
  obtain ⟨u, run', good'⟩ := ends_with _ ok
  exact ⟨t, run, beq_iff_eq.mp good, u, run', beq_iff_eq.mp good'⟩

/-- ZC_ENC of the last bytes of a feed. -/
theorem zcFeed_enc (s : State) {t : State} {l : List Byte} (bytes : memRead s (f0 s.a0) (f1 s.a0) = l)
    (run : exec .zcEnc s = .next t) (good : t.err = 0) : ZcFeed s.keys l t.keys := by
  have h := ZcFeed.enc (m := []) rfl run good (.done t.keys)
  rwa [List.append_nil, bytes] at h

/-- "pw" fed by ZC_PWBYTE and in place by ZC_ENC, and to CRC_REG by two CRC_BYTEs. -/
theorem witness_Key0IsARawCrc :
    ∃ (r c d : State) (k : ZcKeys) (y : Word), exec .zcInit State.reset = .next r ∧ ZcFeed r.keys [0x70, 0x77] k
      ∧ c.a0.toNat % 2 ^ 32 = 0x12345678 ∧ exec .crcLoad c = .next d
      ∧ Feed .crcByte .crcBuf State.crcReg d.crcReg [0x70, 0x77] y :=
  ⟨_, { State.reset with a0 := 0x12345678 }, _, _, _, rfl,
    .pwByte (s := State.reset) (b := 0x70) rfl rfl
      (zcFeed_enc { machine (slices 0 0 1 0) 0 0 [0x77] with keys := zcUpdate State.reset.keys 0x70 } (by decide +kernel)
        (by simp only [exec, execZcEnc]; exact checked_of_none (by decide +kernel) _ _) rfl),
    by decide, rfl,
    .byte (s := { State.reset with crcReg := 0x12345678 }) (by decide +kernel) rfl rfl
      (.byte (s := { State.reset with crcReg := crcStep 0x12345678 0x70 }) rfl rfl rfl (.done _))⟩

end Sys2Proof.Tests
end

-- ==== Proofs: the scope family (spec/00_scope.md) ====
section
/-! PROOFS. Regions and the Huffman alphabet's bound (spec/00_scope.md R6, R13): the check phase check by check, the
commands whose regions are refused, and the validity of a loaded Huffman table. -/

namespace Sys2Proof.Proofs

open Sys2Proof Sys2Proof.Machine

/-! ## The check phase, check by check -/

/-- A check that passes is skipped (R266). -/
theorem firstError_cons_of_pass {fails : Bool} (pass : fails = false) (e : Err) (cs : List (Bool × Err)) :
    firstError ((fails, e) :: cs) = firstError cs := by
  rw [firstError_cons, pass, if_neg Bool.false_ne_true]

/-- A first check that fails decides the outcome (R266). -/
theorem firstError_cons_of_fail {fails : Bool} (fail : fails = true) (e : Err) (cs : List (Bool × Err)) :
    firstError ((fails, e) :: cs) = some e := by
  rw [firstError_cons, if_pos fail]

/-- Where all checks name one error, any failing check raises it: their order does not matter. -/
theorem firstError_eq_some_of_exists {cs : List (Bool × Err)} {e : Err} (same : ∀ c ∈ cs, c.2 = e)
    (fails : ∃ c ∈ cs, c.1 = true) : firstError cs = some e := by
  induction cs with
  | nil => simp at fails
  | cons c cs ih =>
    obtain ⟨failing, err⟩ := c
    obtain ⟨rfl, same⟩ := List.forall_mem_cons.mp same
    cases failing with
    | true => rfl
    | false => exact ih same (by simpa using fails)

/-! ## Regions refused (R13) -/

theorem regionInBounds_eq_false_iff (r : Region) : regionInBounds r = false ↔ 65536 < r.base + r.len := by
  rw [← Bool.not_eq_true, regionInBounds_iff, Nat.not_le]

/-- R13: regions that share an address overlap. -/
theorem regionsOverlap_of_has {r q : Region} {a : Nat} (inR : r.has a) (inQ : q.has a) : regionsOverlap r q = true :=
  (regionsOverlap_iff r q).mpr ⟨a, inR, inQ⟩

/-- The command ends with BoundsError and changes only STATUS (R265, R266). -/
def RaisesBounds (i : Instr) (s : State) : Prop := exec i s = .next { s with err := 7, sticky := s.sticky ||| 0x40 }

/-- A first failing check that names BoundsError, with the outcome written out (R265). -/
theorem checked_of_bounds {checks : List (Bool × Err)} (first : firstError checks = some .bounds) (s : State)
    (op : State → State) : checked checks s op = .next { s with err := 7, sticky := s.sticky ||| 0x40 } :=
  checked_of_some first s op

section OneRegion

variable {s : State}

/-- The last check of a command with one region: the region leaves BUF. -/
theorem firstError_outside {r : Region} (outside : 65536 < r.base + r.len) :
    firstError [(!regionInBounds r, .bounds)] = some .bounds :=
  firstError_cons_of_fail (by rw [(regionInBounds_eq_false_iff r).mpr outside]; rfl) _ _

theorem crcBuf_outside (outside : 65536 < f0 s.a0 + f1 s.a0) : RaisesBounds .crcBuf s := by
  rw [RaisesBounds, exec, execCrcBuf]
  exact checked_of_bounds (firstError_outside outside) s _

theorem zcPwBuf_outside (outside : 65536 < f0 s.a0 + f1 s.a0) : RaisesBounds .zcPwBuf s := by
  rw [RaisesBounds, exec, execZcPwBuf]
  exact checked_of_bounds (firstError_outside outside) s _

theorem md5Final_outside (outside : 65536 < f0 s.a0 + 16) : RaisesBounds .md5Final s := by
  rw [RaisesBounds, exec, execMd5Final]
  exact checked_of_bounds (firstError_outside outside) s _

theorem sha1Final_outside (outside : 65536 < f0 s.a0 + 20) : RaisesBounds .sha1Final s := by
  rw [RaisesBounds, exec, execSha1Final]
  exact checked_of_bounds (firstError_outside outside) s _

theorem md5Buf_outside (running : s.md5.done = false) (outside : 65536 < f0 s.a0 + f1 s.a0) :
    RaisesBounds .md5Buf s := by
  rw [RaisesBounds, exec, execMd5Buf]
  exact checked_of_bounds ((firstError_cons_of_pass running _ _).trans (firstError_outside outside)) s _

theorem sha1Buf_outside (running : s.sha.done = false) (outside : 65536 < f0 s.a0 + f1 s.a0) :
    RaisesBounds .sha1Buf s := by
  rw [RaisesBounds, exec, execSha1Buf]
  exact checked_of_bounds ((firstError_cons_of_pass running _ _).trans (firstError_outside outside)) s _

/-- A region that leaves BUF is not empty, so HUF_LOAD's check of n = 0 passes before it (R222). -/
theorem hufLoad_outside (outside : 65536 < f0 s.a0 + f1 s.a0) : RaisesBounds .hufLoad s := by
  have base := f0_lt s.a0
  have nonempty : decide (f1 s.a0 = 0) = false := decide_eq_false (by omega)
  rw [RaisesBounds, exec, execHufLoad]
  exact checked_of_bounds ((firstError_cons_of_pass nonempty _ _).trans (firstError_outside outside)) s _

end OneRegion

/-- Why a command with a source and a destination is refused (R13, R66): one of them leaves BUF, or they share an
address. -/
inductive RegionsRefused (src dst : Region) : Prop where
  | sourceOutside (outside : 65536 < src.base + src.len)
  | destOutside (outside : 65536 < dst.base + dst.len)
  | overlap (a : Nat) (inSrc : src.has a) (inDst : dst.has a)

/-- What the checks of R13 and R66 see of refused regions. -/
theorem RegionsRefused.checks_fail {src dst : Region} (refused : RegionsRefused src dst) :
    regionInBounds src = false ∨ regionInBounds dst = false ∨ regionsOverlap src dst = true := by
  cases refused with
  | sourceOutside outside => exact .inl ((regionInBounds_eq_false_iff src).mpr outside)
  | destOutside outside => exact .inr (.inl ((regionInBounds_eq_false_iff dst).mpr outside))
  | overlap a inSrc inDst => exact .inr (.inr (regionsOverlap_of_has inSrc inDst))

section TwoRegions

variable {s : State}

theorem firstError_lzChecks (refused : RegionsRefused (lzSource s) (lzDest s)) :
    firstError (lzChecks s) = some .bounds :=
  firstError_eq_some_of_exists (by simp [lzChecks]) (by simpa [lzChecks] using refused.checks_fail)

theorem lzComp_refused (refused : RegionsRefused (lzSource s) (lzDest s)) : RaisesBounds .lzComp s := by
  rw [RaisesBounds, exec, execLzComp]
  exact checked_of_bounds (firstError_lzChecks refused) s _

theorem lzDecomp_refused (refused : RegionsRefused (lzSource s) (lzDest s)) : RaisesBounds .lzDecomp s := by
  rw [RaisesBounds, exec, execLzDecomp]
  exact checked_of_bounds (firstError_lzChecks refused) s _

/-- R223: with a valid table, the checks left are those of the regions and of the start bit. -/
theorem hufDecode_refused (valid : s.huf.valid = true)
    (refused : RegionsRefused (hufSource s) (hufDest s) ∨ 8 * f1 s.a0 < (low32 s.a1).toNat) :
    RaisesBounds .hufDecode s := by
  have table : (!s.huf.valid) = false := by rw [valid]; rfl
  have fails := refused.imp_left RegionsRefused.checks_fail
  rw [RaisesBounds, exec, execHufDecode]
  refine checked_of_bounds ((firstError_cons_of_pass table _ _).trans (firstError_eq_some_of_exists (by simp) ?_)) s _
  simpa [or_assoc] using fails

/-- R243: the cipher refuses every overlap but the in-place one, which only its bounds can refuse. -/
theorem firstError_zcChecks {n : Nat} (refused : RegionsRefused ⟨f0 s.a0, n⟩ ⟨f2 s.a0, n⟩)
    (inPlace : f0 s.a0 = f2 s.a0 → 65536 < f0 s.a0 + n) : firstError (zcChecks s n) = some .bounds := by
  refine firstError_eq_some_of_exists (by simp [zcChecks]) ?_
  by_cases same : f0 s.a0 = f2 s.a0
  · have outside := (regionInBounds_eq_false_iff ⟨f0 s.a0, n⟩).mpr (inPlace same)
    exact ⟨_, List.mem_cons_self, by rw [outside]; rfl⟩
  · simpa [zcChecks, same] using refused.checks_fail

theorem zcEnc_refused (refused : RegionsRefused (sourceRegion s) ⟨f2 s.a0, f1 s.a0⟩)
    (inPlace : f0 s.a0 = f2 s.a0 → 65536 < f0 s.a0 + f1 s.a0) : RaisesBounds .zcEnc s := by
  rw [RaisesBounds, exec, execZcEnc]
  exact checked_of_bounds (firstError_zcChecks refused inPlace) s _

theorem zcDec_refused (refused : RegionsRefused (sourceRegion s) ⟨f2 s.a0, f1 s.a0⟩)
    (inPlace : f0 s.a0 = f2 s.a0 → 65536 < f0 s.a0 + f1 s.a0) : RaisesBounds .zcDec s := by
  rw [RaisesBounds, exec, execZcDec]
  exact checked_of_bounds (firstError_zcChecks refused inPlace) s _

theorem zcHdrChk_refused (check : Byte) (refused : RegionsRefused ⟨f0 s.a0, 12⟩ ⟨f2 s.a0, 12⟩)
    (inPlace : f0 s.a0 = f2 s.a0 → 65536 < f0 s.a0 + 12) : RaisesBounds (.zcHdrChk check) s := by
  rw [RaisesBounds, exec, execZcHdrChk]
  exact checked_of_bounds (firstError_zcChecks refused inPlace) s _

end TwoRegions

/-- Settles O21: clause by clause, each command's own lemma about its refused regions. -/
theorem regionChecksRaiseBoundsError : Obligations.RegionChecksRaiseBoundsError := by
  intro s refusedBy
  refine ⟨fun outside => ?source, md5Final_outside, sha1Final_outside, fun outside => ?lzDest,
    fun valid outside => ?hufDest, fun valid outside => ?startBit, fun outside => ?zcDest, fun outside check => ?zcHeader,
    fun a inSrc inDst => ?lzOverlap, fun valid a inSrc inDst => ?hufOverlap, fun apart a inSrc inDst => ?zcOverlap,
    fun apart a inSrc inDst check => ?zcHeaderOverlap⟩
  case source =>
    exact ⟨(md5Buf_outside · outside), (sha1Buf_outside · outside), crcBuf_outside outside,
      lzComp_refused (.sourceOutside outside), lzDecomp_refused (.sourceOutside outside), hufLoad_outside outside,
      (hufDecode_refused · (.inl (.sourceOutside outside))), zcPwBuf_outside outside,
      zcEnc_refused (.sourceOutside outside) fun _ => outside, zcDec_refused (.sourceOutside outside) fun _ => outside⟩
  case lzDest => exact ⟨lzComp_refused (.destOutside outside), lzDecomp_refused (.destOutside outside)⟩
  case hufDest => exact hufDecode_refused valid (.inl (.destOutside outside))
  case startBit => exact hufDecode_refused valid (.inr outside)
  case zcDest =>
    exact ⟨zcEnc_refused (.destOutside outside) (· ▸ outside), zcDec_refused (.destOutside outside) (· ▸ outside)⟩
  case zcHeader =>
    obtain outside | outside := outside
    · exact zcHdrChk_refused check (.sourceOutside outside) fun _ => outside
    · exact zcHdrChk_refused check (.destOutside outside) (· ▸ outside)
  case lzOverlap => exact ⟨lzComp_refused (.overlap a inSrc inDst), lzDecomp_refused (.overlap a inSrc inDst)⟩
  case hufOverlap => exact hufDecode_refused valid (.inl (.overlap a inSrc inDst))
  case zcOverlap =>
    exact ⟨zcEnc_refused (.overlap a inSrc inDst) (absurd · apart),
      zcDec_refused (.overlap a inSrc inDst) (absurd · apart)⟩
  case zcHeaderOverlap => exact zcHdrChk_refused check (.overlap a inSrc inDst) (absurd · apart)

/-! ## HUF_LOAD (R6, R220, R222) -/

/-- R220: only the entries that are not 0 add to the Kraft sum. -/
theorem kraftSum_eq_sum_filter (table : List Byte) :
    kraftSum table = ((table.filter (fun len => len ≠ 0)).map fun len => 2 ^ (16 - len.toNat)).sum := by
  induction table with
  | nil => rfl
  | cons len table ih =>
    have head : kraftSum (len :: table) = kraftTerm len + kraftSum table := rfl
    rw [head, ih]
    by_cases absent : len = 0
    · simp [kraftTerm, absent]
    · rw [List.filter_cons_of_pos (by simpa using absent), List.map_cons, List.sum_cons, kraftTerm, if_neg absent]
      rfl

/-- R220: a valid table's entries are at most `MAX_CODE_LEN`, and its Kraft sum is 2^16. -/
theorem hufTableValid_iff (table : List Byte) :
    hufTableValid table = true ↔ (∀ len ∈ table, len.toNat ≤ 16)
      ∧ ((table.filter (fun len => len ≠ 0)).map fun len => 2 ^ (16 - len.toNat)).sum = 65536 := by
  simp only [hufTableValid, Bool.and_eq_true, List.all_eq_true, decide_eq_true_iff, kraftSum_eq_sum_filter]
  rfl

section HufLoad

variable {s : State}

/-- R222 check 1: a table has at least one entry. -/
theorem exec_hufLoad_empty (empty : f1 s.a0 = 0) :
    exec .hufLoad s = .next { s with err := 6, sticky := s.sticky ||| 0x20 } := by
  rw [exec, execHufLoad]
  exact checked_of_some (firstError_cons_of_fail (decide_eq_true empty) _ _) s _

/-- R222: past its checks, HUF_LOAD replaces the table and records its validity, which decides how it ends. -/
theorem exec_hufLoad_loads (nonempty : f1 s.a0 ≠ 0) (inside : f0 s.a0 + f1 s.a0 ≤ 65536) {table : List Byte}
    (read : memRead s (f0 s.a0) (f1 s.a0) = table) :
    exec .hufLoad s = .next
      (if hufTableValid table then
        complete { s with huf := ⟨table, BitVec.ofNat 16 (f1 s.a0), hufTableValid table⟩ }
      else raiseErr .codec { s with huf := ⟨table, BitVec.ofNat 16 (f1 s.a0), hufTableValid table⟩ }) := by
  subst read
  rw [exec, execHufLoad]
  have bounds := (regionInBounds_iff ⟨f0 s.a0, f1 s.a0⟩).mpr inside
  exact checked_of_none ((firstError_none_iff _).mpr (by simp [nonempty, bounds])) s _

end HufLoad

/-- Settles O47: the check of n = 0, and past the checks the two ends by the table's validity. -/
theorem hufLoadReplacesAndValidatesTheTable : Obligations.HufLoadReplacesAndValidatesTheTable := by
  intro s n table complete
  have valid_iff : hufTableValid table = true ↔ complete := hufTableValid_iff table
  obtain ⟨length, size⟩ := hufLoad_size s
  refine ⟨length, size, exec_hufLoad_empty, fun nonempty inside => ?_⟩
  have loads := exec_hufLoad_loads nonempty inside rfl
  constructor
  · intro good
    rw [loads, valid_iff.mpr good]
    rfl
  · intro bad
    rw [loads, Bool.eq_false_iff.mpr (mt valid_iff.mp bad)]
    rfl

end Sys2Proof.Proofs
end

-- ==== Proofs: the state family (spec/10_state.md) ====
section
/-! PROOFS. The block's state (spec/10_state.md): every field a command or a host event may change, said once
(`CommandUpdates`, `HostWriteAnswer`), and from that the invariant, the frame of every command, and what the host reads
and writes. -/

namespace Sys2Proof.Proofs

open Sys2Proof Sys2Proof.Machine

/-! ## The parts of the invariant -/

/-- R264, R267: ERR holds a code, and the error it shows has its STICKY bit set. -/
structure ErrRecorded (err : BitVec 4) (sticky : BitVec 7) : Prop where
  code : err.toNat ≤ 7
  shown : ∀ e, err = errCode e → sticky &&& stickyBit e = stickyBit e

/-- R32, R222: the table's entries are counted by `HUF_NSYM`, and `HUF_VALID` is its validity. -/
structure HufRecorded (huf : HufState) : Prop where
  lens : huf.lens.length = huf.nsym.toNat
  size : huf.lens.length ≤ Config.nsymMax
  valid : huf.valid = hufTableValid (huf.lens.take huf.nsym.toNat)

/-- R132, R135: the block buffer's fill while a message runs, and its emptiness after FINAL. -/
structure HashCounted {χ : Type} (c : HashCore χ) : Prop where
  running : c.done = false → c.len.toNat % 512 = 8 * c.blkLen.val
  finished : c.done = true → c.blkLen = 0

/-- The invariant part by part: it reads BUF, CFG, STATUS, the Huffman table and the two hash cores. -/
theorem inv_iff (s : State) :
    Inv s ↔ Memory.wf s.mem = true ∧ cfgLegal s.cfg = true ∧ ErrRecorded s.err s.sticky ∧ HufRecorded s.huf
      ∧ HashCounted s.md5 ∧ HashCounted s.sha := by
  constructor
  · intro inv
    exact ⟨inv.memWf, inv.cfgOk, ⟨inv.errCodes, inv.errSticky⟩, ⟨inv.hufLens, inv.hufSize, inv.hufValid⟩,
      ⟨inv.md5Count, inv.md5Empty⟩, ⟨inv.shaCount, inv.shaEmpty⟩⟩
  · rintro ⟨mem, cfg, ⟨code, shown⟩, ⟨lens, size, valid⟩, ⟨md5Count, md5Empty⟩, ⟨shaCount, shaEmpty⟩⟩
    exact ⟨mem, cfg, code, shown, lens, size, valid, md5Count, md5Empty, shaCount, shaEmpty⟩

/-- ERR = 0 shows no error (R264). -/
theorem errRecorded_zero (sticky : BitVec 7) : ErrRecorded 0 sticky where
  code := Nat.zero_le _
  shown e shows := absurd shows.symm (errCode_ne_zero e)

/-- R265, R267: raising an error sets its code and its STICKY bit. -/
theorem errRecorded_raise (e : Err) (sticky : BitVec 7) : ErrRecorded (errCode e) (sticky ||| stickyBit e) where
  code := errCode_le_seven e
  shown e' shows := by
    rw [← errCode_injective shows]
    ext i hi
    simp only [BitVec.getElem_and, BitVec.getElem_or, Bool.and_eq_right_iff_imp]
    exact fun bit => by rw [bit, Bool.or_true]

theorem hufRecorded_atReset : HufRecorded HufState.atReset where
  lens := rfl
  size := Nat.zero_le _
  valid := by decide +kernel

/-- R222: what HUF_LOAD puts in place of the old table. -/
theorem hufRecorded_load {table : List Byte} {n : Nat} (length : table.length = n) (size : n ≤ Config.nsymMax) :
    HufRecorded ⟨table, BitVec.ofNat 16 n, hufTableValid table⟩ := by
  have fits : n < 2 ^ 16 := Nat.lt_succ_of_le size
  have nsym : (BitVec.ofNat 16 n).toNat = table.length := by
    rw [BitVec.toNat_ofNat, Nat.mod_eq_of_lt fits, length]
  exact ⟨nsym.symm, length ▸ size, by simp only [nsym, List.take_length]⟩

section HashCore

variable {χ : Type} {c : HashCore χ}

theorem hashCounted_atReset (seed : χ) : HashCounted (HashCore.atReset seed) := ⟨fun _ => rfl, fun _ => rfl⟩

/-- R131, R151: a new message starts with an empty block buffer and length 0. -/
theorem hashCounted_restart (seed : χ) (c : HashCore χ) : HashCounted (hashRestart seed c) :=
  ⟨fun _ => rfl, fun done => absurd done Bool.false_ne_true⟩

/-- R132, R152: a byte adds 8 bits to the length, modulo 2^64, and 1 to the block buffer's fill, modulo 64. -/
theorem hashCounted_absorb (compress : χ → List Byte → χ) (running : c.done = false) (counted : HashCounted c)
    (x : Byte) : HashCounted (hashAbsorb compress c x) := by
  have stillRunning : (hashAbsorb compress c x).done = false := (hashAbsorb_done compress c x).trans running
  refine ⟨fun _ => ?_, fun done => absurd (stillRunning.symm.trans done) Bool.false_ne_true⟩
  have before := counted.running running
  have len : (c.len + 8).toNat = (c.len.toNat + 8) % 2 ^ 64 := BitVec.toNat_add _ _
  rw [hashAbsorb_len, hashAbsorb_blkLen, len]
  omega

/-- R133, R153: absorbing a byte sequence. -/
theorem hashCounted_absorbAll (compress : χ → List Byte → χ) (running : c.done = false) (counted : HashCounted c)
    (xs : List Byte) : HashCounted (hashAbsorbAll compress c xs) := by
  induction xs generalizing c with
  | nil => exact counted
  | cons x xs ih =>
    exact ih ((hashAbsorb_done compress c x).trans running) (hashCounted_absorb compress running counted x)

theorem blkLen_foldl_hashPush (compress : χ → List Byte → χ) (c : HashCore χ) (xs : List Byte) :
    (xs.foldl (hashPush compress) c).blkLen.val = (c.blkLen.val + xs.length) % 64 := by
  induction xs generalizing c with
  | nil => exact (Nat.mod_eq_of_lt c.blkLen.isLt).symm
  | cons x xs ih =>
    rw [List.foldl_cons, ih, hashPush_blkLen, List.length_cons]
    omega

/-- R135, R155: the padding fills the last block. -/
theorem blkLen_hashPad (compress : χ → List Byte → χ) {suffix : Nat → Nat → List Byte}
    (eight : ∀ v n, (suffix v n).length = n) (c : HashCore χ) : (hashPad compress suffix c).blkLen = 0 := by
  have fill := c.blkLen.isLt
  apply Fin.val_injective
  rw [hashPad, blkLen_foldl_hashPush, hashPadding_length suffix eight]
  change _ = 0
  omega

/-- R134, R154: FINAL pads once, and a second FINAL leaves the core alone. -/
theorem hashCounted_finish (compress : χ → List Byte → χ) {suffix : Nat → Nat → List Byte}
    (eight : ∀ v n, (suffix v n).length = n) (counted : HashCounted c) :
    HashCounted (hashFinish compress suffix c) := by
  by_cases done : c.done = true
  · rw [hashFinish, if_pos done]
    exact counted
  · rw [hashFinish, if_neg done]
    exact ⟨fun running => absurd running.symm Bool.false_ne_true, fun _ => blkLen_hashPad compress eight c⟩

end HashCore

/-! ## What a command may change -/

/-- `CommandUpdates i s t`: the command `i` can turn the state `s` into `t` by the updates its unit owns (R38, R75). BUF is
written inside its bounds (R59), CFG with a legal value (R27), a hash core in step with its count (R132, R135) and the Huffman
table together with its validity (R222). `exec_updates` says that every command ends in such a state. -/
inductive CommandUpdates (i : Instr) (s : State) : State → Prop where
  | start : CommandUpdates i s s
  | complete {t : State} (before : CommandUpdates i s t) : CommandUpdates i s (complete t)
  | raiseErr {t : State} (e : Err) (before : CommandUpdates i s t) : CommandUpdates i s (raiseErr e t)
  | clearSticky {t : State} (own : i = .clrErr) (before : CommandUpdates i s t) :
      CommandUpdates i s (Machine.complete { t with sticky := 0 })
  | sreset {t : State} (own : i = .sreset) (before : CommandUpdates i s t) :
      CommandUpdates i s (Machine.complete (resetUnits t))
  | res {t : State} (own : writesRes i = true) (v : DWord) (before : CommandUpdates i s t) :
      CommandUpdates i s { t with res := v }
  | memWrite {t : State} {a : Nat} {bs : List Byte} (inside : a + bs.length ≤ 65536) (before : CommandUpdates i s t) :
      CommandUpdates i s (memWrite t a bs)
  | cfg {t : State} {v : Word} (own : i = .setCfg) (legal : cfgLegal v = true) (before : CommandUpdates i s t) :
      CommandUpdates i s { t with cfg := v }
  | crcReg {t : State} (own : unitOf i = 4) (v : Word) (before : CommandUpdates i s t) :
      CommandUpdates i s { t with crcReg := v }
  | md5 {t : State} {c : HashCore Md5Chain} (own : unitOf i = 2) (counted : HashCounted t.md5 → HashCounted c)
      (before : CommandUpdates i s t) : CommandUpdates i s { t with md5 := c }
  | sha {t : State} {c : HashCore Sha1Chain} (own : unitOf i = 3) (counted : HashCounted t.sha → HashCounted c)
      (before : CommandUpdates i s t) : CommandUpdates i s { t with sha := c }
  | huf {t : State} {huf : HufState} (own : i = .hufLoad) (recorded : HufRecorded huf) (before : CommandUpdates i s t) :
      CommandUpdates i s { t with huf := huf }
  | keys {t : State} (own : unitOf i = 7) (k : ZcKeys) (before : CommandUpdates i s t) :
      CommandUpdates i s { t with keys := k }

/-- R71: UNIT is the high half of the opcode byte, whatever the immediates. -/
theorem unitOf_eq (i : Instr) : unitOf i = (instrOpcode i).toNat / 16 := by
  have byte := (instrOpcode i).isLt
  simp only [unitOf, encode, BitVec.toNat_append]
  rw [Nat.shiftLeft_eq _ 8, Nat.mul_comm, ← Nat.two_pow_add_eq_or_of_lt byte]
  omega

theorem unitOf_of_opcode {i : Instr} {op : Byte} (opcode : instrOpcode i = op) : unitOf i = op.toNat / 16 :=
  opcode ▸ unitOf_eq i

/-- R26, R266: a command whose checks pass makes its updates; one whose check fails writes STATUS alone. -/
theorem checked_updates {i : Instr} {checks : List (Bool × Err)} {s t : State} {op : State → State}
    (run : checked checks s op = .next t) (passed : firstError checks = none → CommandUpdates i s (op s)) :
    CommandUpdates i s t := by
  obtain ⟨e, -, rfl⟩ | ⟨none, rfl⟩ := checked_next run
  · exact .raiseErr e .start
  · exact passed none

theorem next_updates {i : Instr} {s t u : State} (run : (.next u : Result) = .next t) (updates : CommandUpdates i s u) :
    CommandUpdates i s t := by
  obtain rfl := Host.Outcome.next.inj run
  exact updates

/-- A check that did not fail, from the list it stands in (R266). -/
theorem check_passes {checks : List (Bool × Err)} (passed : firstError checks = none) {fails : Bool} {e : Err}
    (listed : (fails, e) ∈ checks) : fails = false := (firstError_none_iff checks).mp passed _ listed

/-- R13: a region whose check passed lies in BUF. -/
theorem inside_of_passed {checks : List (Bool × Err)} (passed : firstError checks = none) {r : Region} {e : Err}
    (listed : (!regionInBounds r, e) ∈ checks) : r.base + r.len ≤ 65536 :=
  (regionInBounds_iff r).mp (by simpa using check_passes passed listed)

section Commands

variable {s t : State}

/-- R101: the three checks are those of a legal CFG value (R27). -/
theorem setCfg_updates (run : execSetCfg s = .next t) : CommandUpdates .setCfg s t := by
  unfold execSetCfg at run
  exact checked_updates run fun passed => by
    have reserved := check_passes passed (.head _)
    have misshapen := check_passes passed (.tail _ (.head _))
    have tooWide := check_passes passed (.tail _ (.tail _ (.head _)))
    exact .complete (.cfg rfl (by rw [cfgLegal, reserved, misshapen, tooWide]; rfl) .start)

theorem scDec_updates {td : FieldDesc} {off : Half} (run : execScDec td off s = .next t) :
    CommandUpdates (.scDec td off) s t := by
  unfold execScDec at run
  exact checked_updates run fun _ => by
    cases decodeField s td (fieldAddr s off) with
    | some u => exact .complete (.res rfl _ .start)
    | none => exact .raiseErr .format .start

theorem encodeField_length (td : FieldDesc) (v : DWord) : (encodeField td v).length = fieldSize td := by
  have ordered : ∀ o v n, (orderedBytes o v n).length = n := fun o => by
    cases o with
    | little => exact bytesLE_length
    | big => exact bytesBE_length
  obtain ⟨width, signed, order, policy, top⟩ := td
  cases order with
  | dual => simp only [encodeField, fieldSize, List.length_append, bytesLE_length, bytesBE_length, Nat.two_mul]
  | native | little | big => simp only [encodeField, fieldSize, ordered]

/-- R113: the field lies in the struct region, which lies in BUF. -/
theorem scEnc_updates {td : FieldDesc} {off : Half} (run : execScEnc td off s = .next t) :
    CommandUpdates (.scEnc td off) s t := by
  unfold execScEnc at run
  exact checked_updates run fun passed => by
    have struct : f0 s.a0 + f1 s.a0 ≤ 65536 := inside_of_passed (r := structRegion s) passed (.tail _ (.head _))
    have field := of_decide_eq_false (check_passes passed (.tail _ (.tail _ (.head _))))
    refine .complete (.memWrite ?_ .start)
    rw [encodeField_length, fieldAddr]
    omega

theorem regionRead_length (s : State) (r : Region) : (regionRead s r).length = r.len := memRead_length _ _ _

/-- R114: the destination lies in BUF. -/
theorem scAdec_updates {off : Half} (run : execScAdec off s = .next t) : CommandUpdates (.scAdec off) s t := by
  unfold execScAdec at run
  exact checked_updates run fun passed => by
    have array : f0 s.a1 + f1 s.a1 ≤ 65536 := inside_of_passed (r := arrayRegion s) passed (.tail _ (.head _))
    refine .complete (.memWrite ?_ .start)
    rw [regionRead_length]
    exact array

/-- R115: the field lies in the struct region, which lies in BUF. -/
theorem scAenc_updates {off : Half} (run : execScAenc off s = .next t) : CommandUpdates (.scAenc off) s t := by
  unfold execScAenc at run
  exact checked_updates run fun passed => by
    have struct : f0 s.a0 + f1 s.a0 ≤ 65536 := inside_of_passed (r := structRegion s) passed (.head _)
    have field := of_decide_eq_false (check_passes passed (.tail _ (.tail _ (.head _))))
    refine .complete (.memWrite ?_ .start)
    rw [regionRead_length, fieldAddr]
    change _ + f1 s.a1 ≤ _
    omega

/-- R132: absorbing needs a running message. -/
theorem md5Byte_updates {b : Byte} (run : execMd5Byte b s = .next t) : CommandUpdates (.md5Byte b) s t := by
  unfold execMd5Byte at run
  exact checked_updates run fun passed =>
    .complete (.md5 (unitOf_of_opcode (op := 0x21) rfl)
      (fun counted => hashCounted_absorb _ (check_passes passed (.head _)) counted b) .start)

theorem md5Buf_updates (run : execMd5Buf s = .next t) : CommandUpdates .md5Buf s t := by
  unfold execMd5Buf at run
  exact checked_updates run fun passed =>
    .complete (.md5 (unitOf_eq _)
      (fun counted => hashCounted_absorbAll _ (check_passes passed (.head _)) counted _) .start)

theorem md5Final_updates (run : execMd5Final s = .next t) : CommandUpdates .md5Final s t := by
  unfold execMd5Final at run
  exact checked_updates run fun passed => by
    have digest : f0 s.a0 + 16 ≤ 65536 := inside_of_passed (r := ⟨f0 s.a0, 16⟩) passed (.head _)
    exact .complete (.memWrite (by rwa [md5Digest_length])
      (.md5 (unitOf_eq _) (hashCounted_finish _ bytesLE_length) .start))

/-- R152: absorbing needs a running message. -/
theorem sha1Byte_updates {b : Byte} (run : execSha1Byte b s = .next t) : CommandUpdates (.sha1Byte b) s t := by
  unfold execSha1Byte at run
  exact checked_updates run fun passed =>
    .complete (.sha (unitOf_of_opcode (op := 0x31) rfl)
      (fun counted => hashCounted_absorb _ (check_passes passed (.head _)) counted b) .start)

theorem sha1Buf_updates (run : execSha1Buf s = .next t) : CommandUpdates .sha1Buf s t := by
  unfold execSha1Buf at run
  exact checked_updates run fun passed =>
    .complete (.sha (unitOf_eq _)
      (fun counted => hashCounted_absorbAll _ (check_passes passed (.head _)) counted _) .start)

theorem sha1Final_updates (run : execSha1Final s = .next t) : CommandUpdates .sha1Final s t := by
  unfold execSha1Final at run
  exact checked_updates run fun passed => by
    have digest : f0 s.a0 + 20 ≤ 65536 := inside_of_passed (r := ⟨f0 s.a0, 20⟩) passed (.head _)
    exact .complete (.memWrite (by rwa [sha1Digest_length])
      (.sha (unitOf_eq _) (hashCounted_finish _ bytesBE_length) .start))

theorem crcBuf_updates (run : execCrcBuf s = .next t) : CommandUpdates .crcBuf s t := by
  unfold execCrcBuf at run
  exact checked_updates run fun _ => .complete (.crcReg (unitOf_eq _) _ .start)

theorem crcCheck_updates (run : execCrcCheck s = .next t) : CommandUpdates .crcCheck s t := by
  unfold execCrcCheck at run
  exact next_updates run <| by
    split
    · exact .complete (.res rfl _ .start)
    · exact .raiseErr .integrity (.res rfl _ .start)

/-- R200: the packed bytes are stored only when they fit the destination. -/
theorem lzComp_updates (run : execLzComp s = .next t) : CommandUpdates .lzComp s t := by
  unfold execLzComp at run
  exact checked_updates run fun passed => by
    have dest : f2 s.a0 + f3 s.a0 ≤ 65536 := inside_of_passed (r := lzDest s) passed (.tail _ (.head _))
    dsimp only
    split
    · exact .raiseErr .bounds (.res rfl _ .start)
    · rename_i fits
      refine .complete (.memWrite ?_ (.res rfl _ .start))
      rw [packBits_length]
      omega

/-- R201: the decoder never produces more than N bytes, the destination's size. -/
theorem lzDecomp_updates (run : execLzDecomp s = .next t) : CommandUpdates .lzDecomp s t := by
  unfold execLzDecomp at run
  exact checked_updates run fun passed => by
    have dest : f2 s.a0 + f3 s.a0 ≤ 65536 := inside_of_passed (r := lzDest s) passed (.tail _ (.head _))
    have produced := lzDecodeLoop_out_le (cfgParams s.cfg) (regionRead s (lzSource s)) (f3 s.a0) (f3 s.a0) 0 []
      (Nat.zero_le _)
    dsimp only [lzDecode]
    cases ending : lzDecodeLoop (cfgParams s.cfg) (regionRead s (lzSource s)) (f3 s.a0) (f3 s.a0) 0 [] with
    | ok pos out =>
      rw [ending, lzEndBytes] at produced
      exact .complete (.res rfl _ (.memWrite (by rw [List.length_reverse]; omega) .start))
    | failed e start out =>
      rw [ending, lzEndBytes] at produced
      exact .raiseErr e (.res rfl _ (.memWrite (by rw [List.length_reverse]; omega) .start))

/-- R222: a table that is no complete code is loaded too, and marked as such. -/
theorem hufLoad_updates (run : execHufLoad s = .next t) : CommandUpdates .hufLoad s t := by
  unfold execHufLoad at run
  exact checked_updates run fun _ => by
    obtain ⟨length, size⟩ := hufLoad_size s
    dsimp only
    split
    · exact .complete (.huf rfl (hufRecorded_load length size) .start)
    · exact .raiseErr .codec (.huf rfl (hufRecorded_load length size) .start)

/-- R223: at most `count` symbols are stored, two bytes each. -/
theorem hufDecode_updates (run : execHufDecode s = .next t) : CommandUpdates .hufDecode s t := by
  unfold execHufDecode at run
  exact checked_updates run fun passed => by
    have dest : f2 s.a0 + 2 * f3 s.a0 ≤ 65536 :=
      inside_of_passed (r := hufDest s) passed (.tail _ (.tail _ (.head _)))
    obtain ⟨syms, pos, loop, count⟩ | ⟨syms, start, loop, count, -⟩ :=
      hufDecodeLoop_cases (hufTable s) (cfgParams s.cfg).bo (regionRead s (hufSource s)) (f3 s.a0) (low32 s.a1).toNat
    · simp only [loop]
      exact .complete (.res rfl _ (.memWrite (by rw [symbolBytes_length]; omega) .start))
    · simp only [loop]
      exact .raiseErr .truncatedInput (.res rfl _ (.memWrite (by rw [symbolBytes_length]; omega) .start))

theorem hufCode_updates {sym : Half} (run : execHufCode sym s = .next t) : CommandUpdates (.hufCode sym) s t := by
  unfold execHufCode at run
  exact checked_updates run fun _ => .complete (.res rfl _ .start)

/-- R246: the loop's updates, byte by byte. -/
theorem zcEncLoop_updates {i : Instr} (own : unitOf i = 7) {n src dst : Nat} (inside : dst + n ≤ 65536)
    (before : CommandUpdates i s t) : CommandUpdates i s (zcEncLoop n src dst t) := by
  induction n generalizing src dst t with
  | zero => exact before
  | succ n ih => exact ih (by omega) (.keys own _ (.memWrite (by rw [List.length_singleton]; omega) before))

/-- R247: the loop's updates, byte by byte. -/
theorem zcDecLoop_updates {i : Instr} (own : unitOf i = 7) {n src dst : Nat} (inside : dst + n ≤ 65536)
    (before : CommandUpdates i s t) : CommandUpdates i s (zcDecLoop n src dst t) := by
  induction n generalizing src dst t with
  | zero => exact before
  | succ n ih => exact ih (by omega) (.keys own _ (.memWrite (by rw [List.length_singleton]; omega) before))

/-- R246, R248: past the cipher's checks its destination lies in BUF. -/
theorem zcDest_inside {n : Nat} (passed : firstError (zcChecks s n) = none) : f2 s.a0 + n ≤ 65536 :=
  inside_of_passed (r := ⟨f2 s.a0, n⟩) passed (.tail _ (.head _))

theorem zcEnc_updates (run : execZcEnc s = .next t) : CommandUpdates .zcEnc s t := by
  unfold execZcEnc at run
  exact checked_updates run fun passed => .complete (zcEncLoop_updates (unitOf_eq _) (zcDest_inside passed) .start)

theorem zcDec_updates (run : execZcDec s = .next t) : CommandUpdates .zcDec s t := by
  unfold execZcDec at run
  exact checked_updates run fun passed => .complete (zcDecLoop_updates (unitOf_eq _) (zcDest_inside passed) .start)

theorem zcHdrChk_updates {check : Byte} (run : execZcHdrChk check s = .next t) :
    CommandUpdates (.zcHdrChk check) s t := by
  unfold execZcHdrChk at run
  exact checked_updates run fun passed => by
    have loop : CommandUpdates (.zcHdrChk check) s (zcDecLoop zcHeaderLen (f0 s.a0) (f2 s.a0) s) :=
      zcDecLoop_updates (unitOf_of_opcode (op := 0x75) rfl) (zcDest_inside passed) .start
    dsimp only
    split
    · exact .complete (.res rfl _ loop)
    · exact .raiseErr .integrity (.res rfl _ loop)

theorem zcPwBuf_updates (run : execZcPwBuf s = .next t) : CommandUpdates .zcPwBuf s t := by
  unfold execZcPwBuf at run
  exact checked_updates run fun _ => .complete (.keys (unitOf_eq _) _ .start)

theorem zcKey_updates {idx : Byte} (run : execZcKey idx s = .next t) : CommandUpdates (.zcKey idx) s t := by
  unfold execZcKey at run
  exact checked_updates run fun _ => .complete (.res rfl _ .start)

end Commands

/-- Every command ends in a state that its own updates lead to. -/
theorem exec_updates {i : Instr} {s t : State} (run : exec i s = .next t) : CommandUpdates i s t := by
  cases i with
  | nop => exact next_updates run (.complete .start)
  | setCfg => exact setCfg_updates run
  | getCfg => exact next_updates run (.complete (.res rfl _ .start))
  | clrErr => exact next_updates run (.clearSticky rfl .start)
  | sreset => exact next_updates run (.sreset rfl .start)
  | ident => exact next_updates run (.complete (.res rfl _ .start))
  | scDec td off => exact scDec_updates run
  | scEnc td off => exact scEnc_updates run
  | scAdec off => exact scAdec_updates run
  | scAenc off => exact scAenc_updates run
  | md5Reset => exact next_updates run (.complete (.md5 (unitOf_eq _) (fun _ => hashCounted_restart _ _) .start))
  | md5Byte b => exact md5Byte_updates run
  | md5Buf => exact md5Buf_updates run
  | md5Final => exact md5Final_updates run
  | sha1Reset => exact next_updates run (.complete (.sha (unitOf_eq _) (fun _ => hashCounted_restart _ _) .start))
  | sha1Byte b => exact sha1Byte_updates run
  | sha1Buf => exact sha1Buf_updates run
  | sha1Final => exact sha1Final_updates run
  | crcInit | crcLoad => exact next_updates run (.complete (.crcReg (unitOf_eq _) _ .start))
  | crcByte b => exact next_updates run (.complete (.crcReg (unitOf_of_opcode (op := 0x42) rfl) _ .start))
  | crcBuf => exact crcBuf_updates run
  | crcRead | crcRaw => exact next_updates run (.complete (.res rfl _ .start))
  | crcCheck => exact crcCheck_updates run
  | lzComp => exact lzComp_updates run
  | lzDecomp => exact lzDecomp_updates run
  | hufLoad => exact hufLoad_updates run
  | hufDecode => exact hufDecode_updates run
  | hufCode sym => exact hufCode_updates run
  | zcInit => exact next_updates run (.complete (.keys (unitOf_eq _) _ .start))
  | zcPwByte b => exact next_updates run (.complete (.keys (unitOf_of_opcode (op := 0x71) rfl) _ .start))
  | zcPwBuf => exact zcPwBuf_updates run
  | zcEnc => exact zcEnc_updates run
  | zcDec => exact zcDec_updates run
  | zcHdrChk check => exact zcHdrChk_updates run
  | zcKey idx => exact zcKey_updates run
  | zcKsb => exact next_updates run (.complete (.res rfl _ .start))

/-! ## The invariant (R27, R32, R35, R59, R132, R135, R264, R267) -/

/-- Settles O13: every part of the invariant at its reset value (R40). -/
theorem resetMeetsTheInvariant : Obligations.ResetMeetsTheInvariant :=
  (inv_iff State.reset).mpr
    ⟨reset_mem_wf, by decide +kernel, errRecorded_zero 0, hufRecorded_atReset, hashCounted_atReset _,
      hashCounted_atReset _⟩

/-- The units and STATUS at their reset values meet their parts of the invariant: only BUF is left to ask for (R104). -/
theorem inv_complete_resetUnits {s : State} (mem : Memory.wf s.mem = true) : Inv (complete (resetUnits s)) := by
  obtain ⟨-, cfg, -, huf, md5, sha⟩ := (inv_iff State.reset).mp resetMeetsTheInvariant
  exact (inv_iff _).mpr ⟨mem, cfg, errRecorded_zero 0, huf, md5, sha⟩

/-- Each of a command's updates keeps the invariant. -/
theorem CommandUpdates.inv {i : Instr} {s t : State} (updates : CommandUpdates i s t) (inv : Inv s) : Inv t := by
  induction updates with
  | start => exact inv
  | complete _ ih | clearSticky _ _ ih =>
    obtain ⟨mem, cfg, -, units⟩ := (inv_iff _).mp ih
    exact (inv_iff _).mpr ⟨mem, cfg, errRecorded_zero _, units⟩
  | raiseErr e _ ih =>
    obtain ⟨mem, cfg, -, units⟩ := (inv_iff _).mp ih
    exact (inv_iff _).mpr ⟨mem, cfg, errRecorded_raise e _, units⟩
  | sreset _ _ ih => exact inv_complete_resetUnits ih.memWf
  | res _ _ _ ih | crcReg _ _ _ ih | keys _ _ _ ih =>
    have parts := (inv_iff _).mp ih
    exact (inv_iff _).mpr parts
  | memWrite inside _ ih =>
    obtain ⟨mem, others⟩ := (inv_iff _).mp ih
    exact (inv_iff _).mpr ⟨memWrite_wf mem inside, others⟩
  | cfg _ legal _ ih =>
    obtain ⟨mem, -, others⟩ := (inv_iff _).mp ih
    exact (inv_iff _).mpr ⟨mem, legal, others⟩
  | md5 _ counted _ ih =>
    obtain ⟨mem, cfg, err, huf, md5, sha⟩ := (inv_iff _).mp ih
    exact (inv_iff _).mpr ⟨mem, cfg, err, huf, counted md5, sha⟩
  | sha _ counted _ ih =>
    obtain ⟨mem, cfg, err, huf, md5, sha⟩ := (inv_iff _).mp ih
    exact (inv_iff _).mpr ⟨mem, cfg, err, huf, md5, counted sha⟩
  | huf _ recorded _ ih =>
    obtain ⟨mem, cfg, err, -, hashes⟩ := (inv_iff _).mp ih
    exact (inv_iff _).mpr ⟨mem, cfg, err, recorded, hashes⟩

/-- R265: executing a word written to CMD keeps the invariant, whether or not it spells a command. -/
theorem issue_inv {w : Word} {s t : State} (inv : Inv s) (run : issue w s = .next t) : Inv t := by
  have start : Inv { s with cmd := w } := (inv_iff _).mpr ((inv_iff s).mp inv)
  unfold issue at run
  split at run
  · exact (exec_updates run).inv start
  · obtain rfl := Host.Outcome.next.inj run
    exact (CommandUpdates.raiseErr (i := .nop) .illegalCommand .start).inv start

/-! ## Host events -/

/-- The two statements of R54 about BUF accesses agree: the interface's, and the one claims are stated in. -/
theorem bufAccessAllowed_iff (off n : Nat) : bufAccessAllowed off n = true ↔ bufAccess off n := by
  simp only [bufAccessAllowed, bufAccess, bufWindow, Bool.and_eq_true, Bool.or_eq_true, decide_eq_true_iff, or_assoc,
    Nat.dvd_iff_mod_eq_zero]
  exact ⟨fun ⟨⟨window, size⟩, aligned⟩ => ⟨size, of_decide_eq_true window, aligned⟩,
    fun ⟨size, window, aligned⟩ => ⟨⟨decide_eq_true window, size⟩, aligned⟩⟩

/-- R51, R54: an aligned access of the BUF window ends inside it, for the window ends at a multiple of every size. -/
theorem bufAccess_inside {off : BitVec 17} {n : Nat} (access : bufAccess off.toNat n) :
    off.toNat - 0x10000 + n ≤ 65536 := by
  obtain ⟨rfl | rfl | rfl | rfl, window, aligned⟩ := access <;> have bound := off.isLt <;> omega

/-- Everything a host write can do: hand a command on, write A0 and A1, write BUF, or be refused. -/
inductive HostWriteAnswer (s : State) (off n : Nat) (v : DWord) : HostAction → Prop where
  | command (w : Word) : HostWriteAnswer s off n v (.command w s)
  | operands (x y : DWord) : HostWriteAnswer s off n v (.done { s with a0 := x, a1 := y })
  | buf (access : bufAccess off n) :
      HostWriteAnswer s off n v (.done (memWrite s (off - bufWindow) (bytesLE v.toNat n)))
  | refuse (r : Refusal) : HostWriteAnswer s off n v (.refuse r)

/-- One branch of the host interface's map after another (R20, R54, R56). -/
theorem hostWrite_answer (s : State) (off n : Nat) (v : DWord) : HostWriteAnswer s off n v (hostWrite s off n v) :=
  iteInduction (fun _ => .command _) fun _ =>
    iteInduction (fun _ => .operands _ _) fun _ => iteInduction (fun _ => .operands _ _) fun _ =>
    iteInduction (fun _ => .operands _ _) fun _ => iteInduction (fun _ => .operands _ _) fun _ =>
    iteInduction (fun _ => .operands _ _) fun _ => iteInduction (fun _ => .operands _ _) fun _ =>
    iteInduction (fun _ => .refuse _) fun _ =>
    iteInduction (fun allowed => .buf ((bufAccessAllowed_iff off n).mp allowed)) fun _ => .refuse _

/-- A host event that completes by itself keeps the invariant. -/
theorem hostEvent_done_inv {e : HostEvent} {s t : State} (inv : Inv s) (done : hostEvent e s = .done t) : Inv t := by
  cases e with
  | read off n =>
    unfold hostEvent at done
    dsimp only at done
    split at done
    · obtain rfl := HostAction.done.inj done
      exact (inv_iff _).mpr ((inv_iff s).mp inv)
    · cases done
  | write off n v =>
    have answer : HostWriteAnswer s off.toNat n v (.done t) := done ▸ hostWrite_answer s off.toNat n v
    cases answer with
    | operands x y => exact (inv_iff _).mpr ((inv_iff s).mp inv)
    | buf access =>
      obtain ⟨mem, others⟩ := (inv_iff s).mp inv
      have inside : off.toNat - bufWindow + (bytesLE v.toNat n).length ≤ 65536 := by
        rw [bytesLE_length]
        exact bufAccess_inside access
      exact (inv_iff _).mpr ⟨memWrite_wf mem inside, others⟩
  | reset =>
    obtain rfl := HostAction.done.inj done
    exact (inv_iff _).mpr ((inv_iff State.reset).mp resetMeetsTheInvariant)

/-- A host event that hands a command on has changed nothing. -/
theorem hostEvent_command {e : HostEvent} {w : Word} {s t : State} (command : hostEvent e s = .command w t) : t = s := by
  cases e with
  | read off n =>
    unfold hostEvent at command
    dsimp only at command
    split at command <;> cases command
  | write off n v =>
    have answer : HostWriteAnswer s off.toNat n v (.command w t) := command ▸ hostWrite_answer s off.toNat n v
    cases answer with
    | command => rfl
  | reset => cases command

/-- Settles O14: a step is no event, a host event that completes by itself, or a command; each keeps the invariant. -/
theorem everyStepKeepsTheInvariant : Obligations.EveryStepKeepsTheInvariant := by
  intro s t inv run
  unfold step at run
  split at run
  · obtain rfl := Host.Outcome.next.inj run
    exact inv
  · rename_i e rest _
    have start : Inv { s with host := rest } := (inv_iff _).mpr ((inv_iff s).mp inv)
    split at run
    · rename_i done
      obtain rfl := Host.Outcome.next.inj run
      exact hostEvent_done_inv start done
    · rename_i command
      obtain rfl := hostEvent_command command
      exact issue_inv start run
    · cases run

/-! ## The frame of a command (R22, R23, R24, R26, R38) -/

/-- What a command leaves as it was: the host's side of the state, and every unit's state but its own. -/
structure KeepsOthers (i : Instr) (s t : State) : Prop where
  cmd : t.cmd = s.cmd
  a0 : t.a0 = s.a0
  a1 : t.a1 = s.a1
  host : t.host = s.host
  hostData : t.hostData = s.hostData
  resets : t.resets = s.resets
  cfg : i ≠ .setCfg → i ≠ .sreset → t.cfg = s.cfg
  md5 : unitOf i ≠ 2 → i ≠ .sreset → t.md5 = s.md5
  sha : unitOf i ≠ 3 → i ≠ .sreset → t.sha = s.sha
  crcReg : unitOf i ≠ 4 → i ≠ .sreset → t.crcReg = s.crcReg
  huf : i ≠ .hufLoad → i ≠ .sreset → t.huf = s.huf
  keys : unitOf i ≠ 7 → i ≠ .sreset → t.keys = s.keys
  res : writesRes i = false → t.res = s.res

/-- Each of a command's updates keeps what is not the command's own. -/
theorem CommandUpdates.keepsOthers {i : Instr} {s t : State} (updates : CommandUpdates i s t) : KeepsOthers i s t := by
  induction updates with
  | start => constructor <;> intros <;> rfl
  | complete _ ih | raiseErr _ _ ih | clearSticky _ _ ih | memWrite _ _ ih => exact { ih with }
  | sreset own _ ih =>
    exact { ih with
      cfg := fun _ other => absurd own other
      md5 := fun _ other => absurd own other
      sha := fun _ other => absurd own other
      crcReg := fun _ other => absurd own other
      huf := fun _ other => absurd own other
      keys := fun _ other => absurd own other }
  | res own _ _ ih => exact { ih with res := fun other => absurd (other.symm.trans own) Bool.false_ne_true }
  | cfg own _ _ ih => exact { ih with cfg := fun other => absurd own other }
  | crcReg own _ _ ih => exact { ih with crcReg := fun other => absurd own other }
  | md5 own _ _ ih => exact { ih with md5 := fun other => absurd own other }
  | sha own _ _ ih => exact { ih with sha := fun other => absurd own other }
  | huf own _ _ ih => exact { ih with huf := fun other => absurd own other }
  | keys own _ _ ih => exact { ih with keys := fun other => absurd own other }

/-- Settles O18: the frame of every command, from the updates it makes. -/
theorem commandsWriteOnlyTheirOwnState : Obligations.CommandsWriteOnlyTheirOwnState := by
  intro i s t run
  obtain ⟨cmd, a0, a1, host, hostData, resets, cfg, md5, sha, crcReg, huf, keys, res⟩ := (exec_updates run).keepsOthers
  exact ⟨cmd, a0, a1, host, hostData, resets, cfg, md5, sha, crcReg, huf, keys, res⟩

/-! ## Reset and STATUS (R25, R40, R290) -/

/-- Settles O12: the state after reset, whatever came before it. -/
theorem resetLeavesTheValuesOfTheSpec : Obligations.ResetLeavesTheValuesOfTheSpec := by
  intro s rest next
  have run : step s = .next (resetEvent { s with host := rest }) := by
    rw [step, next]
    rfl
  have status : statusWord (resetEvent { s with host := rest }) = 0 := (by decide : statusWord State.reset = 0)
  exact ⟨_, run, rfl, status, rfl, rfl, rfl, rfl, rfl, rfl, rfl, rfl, rfl, rfl, rfl, fun _ => rfl, rfl, rfl⟩

/-- R25: STATUS bit by bit; a bit that no field names is 0. -/
theorem statusWord_getLsbD (s : State) (i : Nat) :
    (statusWord s).getLsbD i =
      if i < 4 then s.err.getLsbD i else if i < 8 then false else if i < 15 then s.sticky.getLsbD (i - 8)
      else if i = 16 then s.md5.done else if i = 17 then s.sha.done else if i = 18 then s.huf.valid else false := by
  simp only [statusWord, BitVec.getLsbD_append, BitVec.getLsbD_zero, BitVec.getLsbD_ofBool]
  obtain err | reserved | sticky | rfl | rfl | rfl | rfl | reserved :
      i < 4 ∨ (4 ≤ i ∧ i < 8) ∨ (8 ≤ i ∧ i < 15) ∨ i = 15 ∨ i = 16 ∨ i = 17 ∨ i = 18 ∨ 19 ≤ i := by omega
  · rw [if_pos err, if_pos err]
  · simp (disch := omega) only [if_pos, if_neg]
  · simp (disch := omega) only [if_pos, if_neg, Nat.sub_sub]
  · rfl
  · rfl
  · rfl
  · rfl
  · simp (disch := omega) only [if_neg]

/-- Settles O11: STATUS field by field, each read off its bits. -/
theorem statusFieldsStandWhereTheyShould : Obligations.StatusFieldsStandWhereTheyShould := by
  intro s
  refine ⟨?err, ?low, ?sticky, statusWord_getLsbD s 15, statusWord_getLsbD s 16, statusWord_getLsbD s 17,
    statusWord_getLsbD s 18, ?high⟩ <;>
    ext i hi <;> rw [BitVec.getElem_extractLsb', statusWord_getLsbD]
  case err => rw [Nat.zero_add, if_pos hi, BitVec.getLsbD_eq_getElem]
  case low => simp (disch := omega) only [if_pos, if_neg, BitVec.ofNat_eq_ofNat, BitVec.getElem_zero]
  case sticky => simp (disch := omega) only [if_pos, if_neg, Nat.add_sub_cancel_left, BitVec.getLsbD_eq_getElem]
  case high => simp (disch := omega) only [if_neg, BitVec.ofNat_eq_ofNat, BitVec.getElem_zero]

/-! ## Halves of the 64-bit registers (R20, R23) -/

/-- The mask of a register's low half. -/
theorem getLsbD_lowMask : ∀ i < 64, (0xFFFFFFFF : DWord).getLsbD i = decide (i < 32) := by decide

/-- The mask of a register's high half. -/
theorem getLsbD_highMask : ∀ i < 64, (0xFFFFFFFF00000000 : DWord).getLsbD i = decide (32 ≤ i) := by decide

theorem lowHalf_eq_and (x : DWord) : (x.extractLsb' 0 32).setWidth 64 = x &&& 0xFFFFFFFF := by
  apply BitVec.eq_of_getLsbD_eq
  intro i hi
  simp only [BitVec.getLsbD_setWidth, BitVec.getLsbD_extractLsb', BitVec.getLsbD_and, getLsbD_lowMask i hi, hi,
    decide_true, Bool.true_and, Nat.zero_add]
  exact Bool.and_comm _ _

theorem highHalf_eq_shift (x : DWord) : (x.extractLsb' 32 32).setWidth 64 = x >>> 32 := by
  apply BitVec.eq_of_getLsbD_eq
  intro i hi
  simp only [BitVec.getLsbD_setWidth, BitVec.getLsbD_extractLsb', BitVec.getLsbD_ushiftRight, hi, decide_true,
    Bool.true_and]
  by_cases low : i < 32
  · rw [decide_eq_true low, Bool.true_and]
  · rw [BitVec.getLsbD_of_ge x (32 + i) (by omega), Bool.and_false]

/-- R23: a write of the low half keeps the high one. -/
theorem writeLow_eq (x v : DWord) :
    x.extractLsb' 32 32 ++ v.extractLsb' 0 32 = (x &&& 0xFFFFFFFF00000000) ||| (v &&& 0xFFFFFFFF) := by
  apply BitVec.eq_of_getLsbD_eq
  intro i hi
  simp only [BitVec.getLsbD_append, BitVec.getLsbD_extractLsb', BitVec.getLsbD_or, BitVec.getLsbD_and,
    getLsbD_lowMask i hi, getLsbD_highMask i hi]
  by_cases low : i < 32
  · simp [low]
  · have high : 32 ≤ i := Nat.le_of_not_lt low
    have inHalf : i - 32 < 32 := by omega
    simp [low, high, inHalf]

/-- R23: a write of the high half keeps the low one. Beside a shift the mask elaborates to a cast of a natural number. -/
theorem writeHigh_eq (x v : DWord) :
    v.extractLsb' 0 32 ++ x.extractLsb' 0 32 = ((x &&& 0xFFFFFFFF) ||| (v <<< 32) : DWord) := by
  change _ = (x &&& (0xFFFFFFFF : DWord)) ||| v <<< 32
  apply BitVec.eq_of_getLsbD_eq
  intro i hi
  simp only [BitVec.getLsbD_append, BitVec.getLsbD_extractLsb', BitVec.getLsbD_or, BitVec.getLsbD_and,
    getLsbD_lowMask i hi, BitVec.getLsbD_shiftLeft]
  by_cases low : i < 32
  · simp [low]
  · have inHalf : i - 32 < 32 := by omega
    have inWord : i < 64 := hi
    simp [low, inHalf, inWord]

/-! ## Host reads (R20, R51, R52, R57) -/

/-- A host read that is allowed changes nothing but what the host holds (R57). -/
theorem step_read {s : State} {rest : List HostEvent} {off : BitVec 17} {n : Nat} {v : DWord}
    (next : s.host = .read off n :: rest) (value : hostReadValue { s with host := rest } off.toNat n = .ok v) :
    step s = .next { s with host := rest, hostData := v } := by
  simp only [step, next, hostEvent, value]

/-- R51: an access of the BUF window meets no register. -/
theorem hostReadValue_buf (s : State) {off n : Nat} (access : bufAccess off n) :
    hostReadValue s off n = .ok (zext64 (leNat (memRead s (off - 0x10000) n))) := by
  have ⟨_, window, _⟩ := access
  unfold hostReadValue
  iterate 12 rw [if_neg (by omega)]
  exact if_pos ((bufAccessAllowed_iff off n).mpr access)

/-- R10, R52: `LE` weighs byte i by 256^i. -/
theorem leNat_memRead (s : State) (a n : Nat) :
    leNat (memRead s a n) = (Finset.range n).sum fun i => (bufByte s (a + i)).toNat * 256 ^ i := by
  induction n generalizing a with
  | zero => rfl
  | succ n ih =>
    have next : ∀ i, (bufByte s (a + (i + 1))).toNat * 256 ^ (i + 1)
        = 256 * ((bufByte s (a + 1 + i)).toNat * 256 ^ i) := fun i => by
      rw [Nat.pow_succ', Nat.mul_left_comm, Nat.add_assoc a 1 i, Nat.add_comm 1 i]
    simp only [memRead, leNat, ih, Finset.sum_range_succ', next, Finset.mul_sum]
    simp [Nat.add_comm]

/-- R52: at most eight bytes fit the 64 bits the host receives. -/
theorem zext64_leNat_memRead (s : State) (a : Nat) {n : Nat} (size : n ≤ 8) :
    (zext64 (leNat (memRead s a n))).toNat = leNat (memRead s a n) := by
  have fits : leNat (memRead s a n) < 256 ^ n := by
    simpa only [memRead_length] using leNat_lt (memRead s a n)
  have eight : 256 ^ n ≤ 256 ^ 8 := Nat.pow_le_pow_right (by decide) size
  exact Nat.mod_eq_of_lt (Nat.lt_of_lt_of_le fits eight)

/-- Settles O9: the register map row by row, and BUF's bytes as their weighted sum. -/
theorem hostReadsReturnTheirBytesLittleEndian : Obligations.HostReadsReturnTheirBytesLittleEndian := by
  constructor
  · intro s rest off n v row next
    simp only [← lowHalf_eq_and, ← highHalf_eq_shift, List.mem_cons, Prod.mk.injEq, List.not_mem_nil, or_false] at row
    refine step_read next ?_
    obtain row | row | row | row | row | row | row | row | row | row | row | row := row <;>
      obtain ⟨rfl, rfl, rfl⟩ := row <;> rfl
  · intro s rest off n next access
    have size : n ≤ 8 := by
      obtain ⟨size, -, -⟩ := access
      omega
    exact ⟨_, step_read next (hostReadValue_buf _ access),
      (zext64_leNat_memRead _ _ size).trans (leNat_memRead _ _ n)⟩

/-! ## Host writes (R23, R51, R52) -/

/-- A host write that is allowed and is no command does what the interface says. -/
theorem step_write {s t : State} {rest : List HostEvent} {off : BitVec 17} {n : Nat} {v : DWord}
    (next : s.host = .write off n v :: rest) (done : hostWrite { s with host := rest } off.toNat n v = .done t) :
    step s = .next t := by
  simp only [step, next, hostEvent, done]

/-- R51: an access of the BUF window meets no register. -/
theorem hostWrite_buf (s : State) {off n : Nat} (access : bufAccess off n) (v : DWord) :
    hostWrite s off n v = .done (memWrite s (off - 0x10000) (bytesLE v.toNat n)) := by
  have ⟨_, window, _⟩ := access
  unfold hostWrite
  iterate 8 rw [if_neg (by omega)]
  exact if_pos ((bufAccessAllowed_iff off n).mpr access)

/-- R10, R52: byte i of `bytesLE` is the value's bits from 8i. -/
theorem bytesLE_getD (v : Nat) {n i : Nat} (inside : i < n) :
    (bytesLE v n).getD i 0 = BitVec.ofNat 8 (v / 256 ^ i) := by
  induction n generalizing v i with
  | zero => exact absurd inside (Nat.not_lt_zero i)
  | succ n ih =>
    cases i with
    | zero => rw [bytesLE, List.getD_cons_zero, Nat.pow_zero, Nat.div_one]
    | succ i =>
      rw [bytesLE, List.getD_cons_succ, ih _ (Nat.lt_of_succ_lt_succ inside), Nat.div_div_eq_div_mul, Nat.pow_succ']

theorem ofNat_div_eq_extract (v : DWord) (i : Nat) : BitVec.ofNat 8 (v.toNat / 256 ^ i) = v.extractLsb' (8 * i) 8 := by
  apply BitVec.eq_of_toNat_eq
  rw [BitVec.toNat_ofNat, BitVec.extractLsb'_toNat, Nat.shiftRight_eq_div_pow, Nat.pow_mul]

/-- Settles O10: the six register writes, and the bytes of a BUF write by the law of BUF. -/
theorem hostWritesStoreTheirBytesLittleEndian : Obligations.HostWritesStoreTheirBytesLittleEndian := by
  constructor
  · intro s rest v
    simp only [← writeLow_eq, ← writeHigh_eq]
    exact ⟨(step_write · rfl), (step_write · rfl), (step_write · rfl), (step_write · rfl), (step_write · rfl),
      (step_write · rfl)⟩
  · intro s rest off n v next access
    refine ⟨_, step_write next (hostWrite_buf _ access v), rfl, fun i inside => ?written, fun a outside => ?kept⟩
    case written =>
      rw [bufByte_memWrite, bytesLE_length, if_pos (by omega), Nat.add_sub_cancel_left, bytesLE_getD _ inside,
        ofNat_div_eq_extract]
    case kept =>
      rw [bufByte_memWrite, bytesLE_length, if_neg outside]
      rfl

end Sys2Proof.Proofs
end

-- ==== Proofs: the memory family (spec/20_memory.md) ====
section
/-! PROOFS. BUF and the host's accesses (spec/20_memory.md). The two runs of a command on two BUFs are followed side by side
(`TwinRuns`): from that, where a command writes and what it reads (R59, R227). After it, which host accesses are refused
(R54, R56). -/

namespace Sys2Proof.Proofs

open Sys2Proof Sys2Proof.Machine

/-! ## Two runs side by side -/

/-- `TwinRuns r s m t u`: from the state `s`, and from `s` with the BUF `m`, two runs reach `t` and `u` by making the same
updates, of which those of BUF lie in the region `r`. An update of the rest reads no BUF. `exec_twinRuns` says that every
command, run on two BUFs that agree where its rule reads, makes such runs. -/
inductive TwinRuns (r : Region) (s : State) (m : Memory) : State → State → Prop where
  | start : TwinRuns r s m s { s with mem := m }
  | registers (f : State → State) {t u : State} (before : TwinRuns r s m t u)
      (blind : ∀ x k, f { x with mem := k } = { f x with mem := k } := by exact fun _ _ => rfl)
      (resets : ∀ x, (f x).resets = x.resets := by exact fun _ => rfl) : TwinRuns r s m (f t) (f u)
  | memWrite {a : Nat} {bs : List Byte} {t u : State} (inside : r.base ≤ a ∧ a + bs.length ≤ r.base + r.len)
      (before : TwinRuns r s m t u) : TwinRuns r s m (memWrite t a bs) (memWrite u a bs)

/-- An update that reads no BUF keeps it. -/
theorem bufByte_of_blind {f : State → State} (blind : ∀ x k, f { x with mem := k } = { f x with mem := k })
    (resets : ∀ x, (f x).resets = x.resets) (x : State) (a : Nat) : bufByte (f x) a = bufByte x a := by
  have mem : (f x).mem = x.mem := by rw [blind x x.mem]
  exact bufByte_congr mem (resets x) a

/-- One write of the same bytes keeps two BUFs equal where they are, and makes them equal where it writes. -/
theorem bufByte_memWrite_eq {t u : State} {b a : Nat} {bs : List Byte}
    (same : (b ≤ a ∧ a < b + bs.length) ∨ bufByte u a = bufByte t a) :
    bufByte (memWrite u b bs) a = bufByte (memWrite t b bs) a := by
  rw [bufByte_memWrite, bufByte_memWrite]
  split
  · rfl
  · exact same.resolve_left ‹_›

namespace TwinRuns

variable {r : Region} {s t u : State} {m : Memory}

/-- The runs differ in BUF alone. -/
theorem eq_but_mem (twins : TwinRuns r s m t u) : u = { t with mem := u.mem } := by
  suffices ∃ k, u = { t with mem := k } by obtain ⟨k, rfl⟩ := this; rfl
  induction twins with
  | start => exact ⟨m, rfl⟩
  | registers f _ blind _ ih =>
    obtain ⟨k, rfl⟩ := ih
    exact ⟨k, blind _ _⟩
  | memWrite _ _ ih =>
    obtain ⟨k, rfl⟩ := ih
    exact ⟨_, rfl⟩

/-- A byte that the runs write is equal in both, and another one is as it was. -/
theorem byte (twins : TwinRuns r s m t u) (a : Nat) :
    bufByte u a = bufByte t a ∨ (bufByte t a = bufByte s a ∧ bufByte u a = bufByte { s with mem := m } a) := by
  induction twins with
  | start => exact .inr ⟨rfl, rfl⟩
  | registers f _ blind resets ih =>
    rw [bufByte_of_blind blind resets, bufByte_of_blind blind resets]
    exact ih
  | @memWrite b bs _ _ _ _ ih =>
    by_cases written : b ≤ a ∧ a < b + bs.length
    · exact .inl (bufByte_memWrite_eq (.inl written))
    · rw [bufByte_memWrite, bufByte_memWrite, if_neg written, if_neg written]
      exact ih

/-- Outside the region the first run leaves BUF alone. -/
theorem outside (twins : TwinRuns r s m t u) {a : Nat} (out : ¬ r.has a) : bufByte t a = bufByte s a := by
  induction twins with
  | start => rfl
  | registers f _ blind resets ih => exact (bufByte_of_blind blind resets _ a).trans ih
  | memWrite inside _ ih =>
    rw [bufByte_memWrite, if_neg fun written => out ⟨by omega, by omega⟩]
    exact ih

end TwinRuns

/-- Two BUFs agree on a region: `s`'s own, and `m`. -/
def AgreesOn (r : Region) (s : State) (m : Memory) : Prop := ∀ a, r.has a → bufByte { s with mem := m } a = bufByte s a

section Commands

variable {r : Region} {s t u : State} {m : Memory}

theorem AgreesOn.regionRead_eq (agree : AgreesOn r s m) : regionRead { s with mem := m } r = regionRead s r :=
  memRead_congr fun a low high => agree a ⟨low, high⟩

/-- An update of the registers from a region where the BUFs agree. -/
theorem TwinRuns.reading {src : Region} (agree : AgreesOn src s m) (f : List Byte → State → State)
    (blind : ∀ bs x k, f bs { x with mem := k } = { f bs x with mem := k } := by exact fun _ _ _ => rfl)
    (resets : ∀ bs x, (f bs x).resets = x.resets := by exact fun _ _ => rfl) :
    TwinRuns r s m (f (regionRead s src) s) (f (regionRead { s with mem := m } src) { s with mem := m }) := by
  rw [agree.regionRead_eq]
  exact .registers (f _) .start (blind _) (resets _)

/-- The checks read no BUF, so both runs fail the same check or both go on (R266). -/
theorem checked_twinRuns {checks : List (Bool × Err)} {op : State → State} (run : checked checks s op = .next t)
    (run' : checked checks { s with mem := m } op = .next u)
    (passed : firstError checks = none → TwinRuns r s m (op s) (op { s with mem := m })) : TwinRuns r s m t u := by
  obtain ⟨e, fails, rfl⟩ | ⟨pass, rfl⟩ := checked_next run <;>
    obtain ⟨e', fails', rfl⟩ | ⟨pass', rfl⟩ := checked_next run'
  · obtain rfl := Option.some.inj (fails.symm.trans fails')
    exact .registers (raiseErr e) .start
  · exact absurd (fails.symm.trans pass') nofun
  · exact absurd (fails'.symm.trans pass) nofun
  · exact passed pass

/-- A command without checks. -/
theorem next_twinRuns {x y : State} (run : (.next x : Result) = .next t) (run' : (.next y : Result) = .next u)
    (twins : TwinRuns r s m x y) : TwinRuns r s m t u := by
  obtain rfl := Host.Outcome.next.inj run
  obtain rfl := Host.Outcome.next.inj run'
  exact twins

theorem setCfg_twinRuns (run : execSetCfg s = .next t) (run' : execSetCfg { s with mem := m } = .next u) :
    TwinRuns r s m t u := by
  unfold execSetCfg at run run'
  exact checked_twinRuns run run' fun _ => .registers (fun x => complete { x with cfg := low32 x.a0 }) .start

/-- R112: the value decoded depends on the field's bytes alone. -/
theorem scDec_twinRuns {td : FieldDesc} {off : Half} (agree : AgreesOn ⟨fieldAddr s off, fieldSize td⟩ s m)
    (run : execScDec td off s = .next t) (run' : execScDec td off { s with mem := m } = .next u) :
    TwinRuns r s m t u := by
  have field : decodeField { s with mem := m } td (fieldAddr { s with mem := m } off)
      = decodeField s td (fieldAddr s off) := decodeField_congr td fun a low high => agree a ⟨low, high⟩
  unfold execScDec at run run'
  exact checked_twinRuns run run' fun _ => by
    dsimp only
    rw [field]
    cases decodeField s td (fieldAddr s off) with
    | some v => exact .registers (fun x => complete { x with res := fieldResult td v }) .start
    | none => exact .registers (raiseErr .format) .start

/-- R113: the bytes stored are those of A1's value. -/
theorem scEnc_twinRuns {td : FieldDesc} {off : Half} (run : execScEnc td off s = .next t)
    (run' : execScEnc td off { s with mem := m } = .next u) :
    TwinRuns ⟨fieldAddr s off, fieldSize td⟩ s m t u := by
  unfold execScEnc at run run'
  exact checked_twinRuns run run' fun _ =>
    .registers complete (.memWrite ⟨Nat.le_refl _, by rw [encodeField_length]⟩ .start)

/-- R114: a copy of the field's bytes. -/
theorem scAdec_twinRuns {off : Half} (agree : AgreesOn (arrayField s off) s m) (run : execScAdec off s = .next t)
    (run' : execScAdec off { s with mem := m } = .next u) : TwinRuns (arrayRegion s) s m t u := by
  have source : regionRead { s with mem := m } (arrayField { s with mem := m } off)
      = regionRead s (arrayField s off) := agree.regionRead_eq
  unfold execScAdec at run run'
  exact checked_twinRuns run run' fun _ => by
    dsimp only
    rw [source]
    exact .registers complete (.memWrite ⟨Nat.le_refl _, by rw [regionRead_length]; exact Nat.le_refl _⟩ .start)

/-- R115: a copy of the array's bytes. -/
theorem scAenc_twinRuns {off : Half} (agree : AgreesOn (arrayRegion s) s m) (run : execScAenc off s = .next t)
    (run' : execScAenc off { s with mem := m } = .next u) : TwinRuns (arrayField s off) s m t u := by
  have source : regionRead { s with mem := m } (arrayRegion { s with mem := m })
      = regionRead s (arrayRegion s) := agree.regionRead_eq
  unfold execScAenc at run run'
  exact checked_twinRuns run run' fun _ => by
    rw [source]
    exact .registers complete (.memWrite ⟨Nat.le_refl _, by rw [regionRead_length]; exact Nat.le_refl _⟩ .start)

theorem md5Byte_twinRuns {b : Byte} (run : execMd5Byte b s = .next t)
    (run' : execMd5Byte b { s with mem := m } = .next u) : TwinRuns r s m t u := by
  unfold execMd5Byte at run run'
  exact checked_twinRuns run run' fun _ => .registers (fun x => complete { x with md5 := md5Absorb x.md5 b }) .start

theorem md5Buf_twinRuns (agree : AgreesOn (sourceRegion s) s m) (run : execMd5Buf s = .next t)
    (run' : execMd5Buf { s with mem := m } = .next u) : TwinRuns r s m t u := by
  unfold execMd5Buf at run run'
  exact checked_twinRuns run run' fun _ =>
    TwinRuns.reading (src := sourceRegion s) agree fun bs x => complete { x with md5 := md5AbsorbAll x.md5 bs }

theorem md5Final_twinRuns (run : execMd5Final s = .next t) (run' : execMd5Final { s with mem := m } = .next u) :
    TwinRuns ⟨f0 s.a0, 16⟩ s m t u := by
  unfold execMd5Final at run run'
  exact checked_twinRuns run run' fun _ =>
    .registers complete (.memWrite ⟨Nat.le_refl _, by rw [md5Digest_length]⟩
      (.registers (fun x => { x with md5 := md5Finish x.md5 }) .start))

theorem sha1Byte_twinRuns {b : Byte} (run : execSha1Byte b s = .next t)
    (run' : execSha1Byte b { s with mem := m } = .next u) : TwinRuns r s m t u := by
  unfold execSha1Byte at run run'
  exact checked_twinRuns run run' fun _ => .registers (fun x => complete { x with sha := sha1Absorb x.sha b }) .start

theorem sha1Buf_twinRuns (agree : AgreesOn (sourceRegion s) s m) (run : execSha1Buf s = .next t)
    (run' : execSha1Buf { s with mem := m } = .next u) : TwinRuns r s m t u := by
  unfold execSha1Buf at run run'
  exact checked_twinRuns run run' fun _ =>
    TwinRuns.reading (src := sourceRegion s) agree fun bs x => complete { x with sha := sha1AbsorbAll x.sha bs }

theorem sha1Final_twinRuns (run : execSha1Final s = .next t) (run' : execSha1Final { s with mem := m } = .next u) :
    TwinRuns ⟨f0 s.a0, 20⟩ s m t u := by
  unfold execSha1Final at run run'
  exact checked_twinRuns run run' fun _ =>
    .registers complete (.memWrite ⟨Nat.le_refl _, by rw [sha1Digest_length]⟩
      (.registers (fun x => { x with sha := sha1Finish x.sha }) .start))

theorem crcBuf_twinRuns (agree : AgreesOn (sourceRegion s) s m) (run : execCrcBuf s = .next t)
    (run' : execCrcBuf { s with mem := m } = .next u) : TwinRuns r s m t u := by
  unfold execCrcBuf at run run'
  exact checked_twinRuns run run' fun _ =>
    TwinRuns.reading (src := sourceRegion s) agree fun bs x => complete { x with crcReg := crcFold x.crcReg bs }

/-- R178: the comparison is of CRC_REG with A0. -/
theorem crcCheck_twinRuns (run : execCrcCheck s = .next t) (run' : execCrcCheck { s with mem := m } = .next u) :
    TwinRuns r s m t u := by
  have result : TwinRuns r s m { s with res := (crcFinal s.crcReg).setWidth 64 }
      { s with res := (crcFinal s.crcReg).setWidth 64, mem := m } :=
    .registers (fun x => { x with res := (crcFinal s.crcReg).setWidth 64 }) .start
  unfold execCrcCheck at run run'
  refine next_twinRuns run run' ?_
  dsimp only
  by_cases same : crcFinal s.crcReg = low32 s.a0
  · rw [if_pos same, if_pos same]
    exact .registers complete result
  · rw [if_neg same, if_neg same]
    exact .registers (raiseErr .integrity) result

/-- R200: the packed bytes are stored only when they fit the destination. -/
theorem lzComp_twinRuns (agree : AgreesOn (lzSource s) s m) (run : execLzComp s = .next t)
    (run' : execLzComp { s with mem := m } = .next u) : TwinRuns (lzDest s) s m t u := by
  have source : regionRead { s with mem := m } (lzSource { s with mem := m }) = regionRead s (lzSource s) :=
    agree.regionRead_eq
  unfold execLzComp at run run'
  exact checked_twinRuns run run' fun _ => by
    dsimp only
    rw [source]
    generalize lzEncode (cfgParams s.cfg) (regionRead s (lzSource s)) = bits
    have result : TwinRuns (lzDest s) s m { s with res := pair32 bits.length (packedLen bits.length) }
        { s with res := pair32 bits.length (packedLen bits.length), mem := m } :=
      .registers (fun x => { x with res := pair32 bits.length (packedLen bits.length) }) .start
    by_cases tooLong : f3 s.a0 < packedLen bits.length
    · rw [if_pos tooLong, if_pos tooLong]
      exact .registers (raiseErr .bounds) result
    · rw [if_neg tooLong, if_neg tooLong]
      have fits : packedLen bits.length ≤ (lzDest s).len := Nat.le_of_not_lt tooLong
      exact .registers complete
        (.memWrite ⟨Nat.le_refl _, by rw [packBits_length]; exact Nat.add_le_add_left fits _⟩ result)

/-- R201: the decoder never produces more than N bytes, the destination's size. -/
theorem lzDecomp_twinRuns (agree : AgreesOn (lzSource s) s m) (run : execLzDecomp s = .next t)
    (run' : execLzDecomp { s with mem := m } = .next u) : TwinRuns (lzDest s) s m t u := by
  have source : regionRead { s with mem := m } (lzSource { s with mem := m }) = regionRead s (lzSource s) :=
    agree.regionRead_eq
  have produced : (lzEndBytes (lzDecode (cfgParams s.cfg) (regionRead s (lzSource s)) (f3 s.a0))).length ≤ f3 s.a0 :=
    lzDecodeLoop_out_le _ _ _ _ _ _ (Nat.zero_le _)
  have stored : ∀ out : List Byte, out.length ≤ f3 s.a0 →
      TwinRuns (lzDest s) s m (memWrite s (f2 s.a0) out.reverse)
        (memWrite { s with mem := m } (f2 s.a0) out.reverse) := fun out fits =>
    .memWrite ⟨Nat.le_refl _, by rw [List.length_reverse]; exact Nat.add_le_add_left fits _⟩ .start
  unfold execLzDecomp at run run'
  exact checked_twinRuns run run' fun _ => by
    dsimp only
    rw [source]
    cases ending : lzDecode (cfgParams s.cfg) (regionRead s (lzSource s)) (f3 s.a0) with
    | ok pos out =>
      rw [ending] at produced
      exact .registers (fun x => complete { x with res := pair32 pos (f3 s.a0) }) (stored out produced)
    | failed e start out =>
      rw [ending] at produced
      exact .registers (fun x => raiseErr e { x with res := pair32 start out.length }) (stored out produced)

/-- R222: the table loaded is the source's bytes, and its validity is theirs. -/
theorem hufLoad_twinRuns (agree : AgreesOn (sourceRegion s) s m) (run : execHufLoad s = .next t)
    (run' : execHufLoad { s with mem := m } = .next u) : TwinRuns r s m t u := by
  have source : regionRead { s with mem := m } ⟨f0 s.a0, f1 s.a0⟩ = regionRead s ⟨f0 s.a0, f1 s.a0⟩ :=
    agree.regionRead_eq
  unfold execHufLoad at run run'
  exact checked_twinRuns run run' fun _ => by
    dsimp only
    rw [source]
    generalize regionRead s ⟨f0 s.a0, f1 s.a0⟩ = table
    cases hufTableValid table with
    | true => exact .registers (fun x => complete { x with huf := ⟨table, BitVec.ofNat 16 (f1 s.a0), true⟩ }) .start
    | false =>
      exact .registers (fun x => raiseErr .codec { x with huf := ⟨table, BitVec.ofNat 16 (f1 s.a0), false⟩ }) .start

/-- R223, R227: the symbols are those of the source's bits, at most `count` of them, two bytes each. -/
theorem hufDecode_twinRuns (agree : AgreesOn (hufSource s) s m) (run : execHufDecode s = .next t)
    (run' : execHufDecode { s with mem := m } = .next u) : TwinRuns (hufDest s) s m t u := by
  have source : regionRead { s with mem := m } (hufSource { s with mem := m }) = regionRead s (hufSource s) :=
    agree.regionRead_eq
  have table : hufTable { s with mem := m } = hufTable s := rfl
  have stored : ∀ syms : List Nat, syms.length ≤ f3 s.a0 →
      TwinRuns (hufDest s) s m (memWrite s (f2 s.a0) (symbolBytes syms))
        (memWrite { s with mem := m } (f2 s.a0) (symbolBytes syms)) := fun syms count =>
    .memWrite ⟨Nat.le_refl _, by
      rw [symbolBytes_length]; exact Nat.add_le_add_left (Nat.mul_le_mul_left 2 count) _⟩ .start
  unfold execHufDecode at run run'
  exact checked_twinRuns run run' fun _ => by
    dsimp only
    rw [source, table]
    obtain ⟨syms, pos, loop, count⟩ | ⟨syms, start, loop, count, -⟩ :=
      hufDecodeLoop_cases (hufTable s) (cfgParams s.cfg).bo (regionRead s (hufSource s)) (f3 s.a0) (low32 s.a1).toNat
    · rw [loop]
      exact .registers (fun x => complete { x with res := pair32 (f3 s.a0) pos }) (stored syms (Nat.le_of_eq count))
    · rw [loop]
      exact .registers (fun x => raiseErr .truncatedInput { x with res := pair32 syms.length start })
        (stored syms (Nat.le_of_lt count))

theorem hufCode_twinRuns {sym : Half} (run : execHufCode sym s = .next t)
    (run' : execHufCode sym { s with mem := m } = .next u) : TwinRuns r s m t u := by
  unfold execHufCode at run run'
  exact checked_twinRuns run run' fun _ => .registers (fun x => complete { x with res := _ }) .start

theorem zcPwBuf_twinRuns (agree : AgreesOn (sourceRegion s) s m) (run : execZcPwBuf s = .next t)
    (run' : execZcPwBuf { s with mem := m } = .next u) : TwinRuns r s m t u := by
  unfold execZcPwBuf at run run'
  exact checked_twinRuns run run' fun _ =>
    TwinRuns.reading (src := sourceRegion s) agree fun bs x => complete { x with keys := zcUpdateAll x.keys bs }

theorem zcKey_twinRuns {idx : Byte} (run : execZcKey idx s = .next t)
    (run' : execZcKey idx { s with mem := m } = .next u) : TwinRuns r s m t u := by
  unfold execZcKey at run run'
  exact checked_twinRuns run run' fun _ => .registers (fun x => complete { x with res := _ }) .start

end Commands

/-! ## The cipher's loops on two BUFs -/

/-- What ZC_ENC's loop and ZC_DEC's loop share (R246, R247): `store` gives the byte stored and `feed` the plaintext byte, each
from the keys and the source byte. -/
def zcLoop (store feed : ZcKeys → Byte → Byte) : Nat → Nat → Nat → State → State
  | 0, _, _, s => s
  | n + 1, src, dst, s =>
    zcLoop store feed n (src + 1) (dst + 1)
      { memWrite s dst [store s.keys (bufByte s src)] with
        keys := zcUpdate s.keys (feed s.keys (bufByte s src)) }

theorem zcEncLoop_eq_zcLoop (n src dst : Nat) (s : State) :
    zcEncLoop n src dst s = zcLoop (fun k p => p ^^^ zcKsb k) (fun _ p => p) n src dst s := by
  induction n generalizing src dst s with
  | zero => rfl
  | succ n ih => exact ih _ _ _

theorem zcDecLoop_eq_zcLoop (n src dst : Nat) (s : State) :
    zcDecLoop n src dst s = zcLoop (fun k c => c ^^^ zcKsb k) (fun k c => c ^^^ zcKsb k) n src dst s := by
  induction n generalizing src dst s with
  | zero => rfl
  | succ n ih => exact ih _ _ _

section ZcLoop

variable {r : Region} {s t u : State} {m : Memory} {store feed : ZcKeys → Byte → Byte} {n src dst : Nat}

/-- Each turn stores the same byte in both runs, so they still agree on the source bytes to come, in place or not (R243). -/
theorem zcLoop_twinRuns (inside : r.base ≤ dst ∧ dst + n ≤ r.base + r.len)
    (source : ∀ a, src ≤ a → a < src + n → bufByte u a = bufByte t a) (before : TwinRuns r s m t u) :
    TwinRuns r s m (zcLoop store feed n src dst t) (zcLoop store feed n src dst u) := by
  induction n generalizing src dst t u with
  | zero => exact before
  | succ n ih =>
    have keys : u.keys = t.keys := by rw [before.eq_but_mem]
    rw [zcLoop, zcLoop, keys, source src (Nat.le_refl _) (by omega)]
    refine ih ⟨by omega, by omega⟩ (fun a low high => ?_) (.registers (fun x => { x with keys := _ })
      (.memWrite ⟨inside.1, by rw [List.length_singleton]; omega⟩ before))
    exact bufByte_memWrite_eq (.inr (source a (by omega) (by omega)))

/-- What the loops write is equal on two BUFs that agree on the source, and what was equal stays so. -/
theorem zcLoop_bufByte_eq (keys : u.keys = t.keys) (source : ∀ a, src ≤ a → a < src + n → bufByte u a = bufByte t a)
    {a : Nat} (same : (dst ≤ a ∧ a < dst + n) ∨ bufByte u a = bufByte t a) :
    bufByte (zcLoop store feed n src dst u) a = bufByte (zcLoop store feed n src dst t) a := by
  induction n generalizing src dst t u with
  | zero => exact same.resolve_left (by omega)
  | succ n ih =>
    rw [zcLoop, zcLoop, keys, source src (Nat.le_refl _) (by omega)]
    refine ih rfl (fun b low high => bufByte_memWrite_eq (.inr (source b (by omega) (by omega)))) ?_
    by_cases later : dst + 1 ≤ a ∧ a < dst + 1 + n
    · exact .inl later
    · refine .inr (bufByte_memWrite_eq (same.imp_left fun written => ?_))
      rw [List.length_singleton]
      omega

theorem zcEnc_twinRuns (agree : AgreesOn (sourceRegion s) s m) (run : execZcEnc s = .next t)
    (run' : execZcEnc { s with mem := m } = .next u) : TwinRuns ⟨f2 s.a0, f1 s.a0⟩ s m t u := by
  unfold execZcEnc at run run'
  exact checked_twinRuns run run' fun _ => by
    dsimp only
    rw [zcEncLoop_eq_zcLoop, zcEncLoop_eq_zcLoop]
    exact .registers complete
      (zcLoop_twinRuns ⟨Nat.le_refl _, Nat.le_refl _⟩ (fun a low high => agree a ⟨low, high⟩) .start)

theorem zcDec_twinRuns (agree : AgreesOn (sourceRegion s) s m) (run : execZcDec s = .next t)
    (run' : execZcDec { s with mem := m } = .next u) : TwinRuns ⟨f2 s.a0, f1 s.a0⟩ s m t u := by
  unfold execZcDec at run run'
  exact checked_twinRuns run run' fun _ => by
    dsimp only
    rw [zcDecLoop_eq_zcLoop, zcDecLoop_eq_zcLoop]
    exact .registers complete
      (zcLoop_twinRuns ⟨Nat.le_refl _, Nat.le_refl _⟩ (fun a low high => agree a ⟨low, high⟩) .start)

/-- R248: the byte compared is the last one the loop has written, so it is equal in both runs. -/
theorem zcHdrChk_twinRuns {check : Byte} (agree : AgreesOn ⟨f0 s.a0, 12⟩ s m) (run : execZcHdrChk check s = .next t)
    (run' : execZcHdrChk check { s with mem := m } = .next u) : TwinRuns ⟨f2 s.a0, 12⟩ s m t u := by
  have source : ∀ a, f0 s.a0 ≤ a → a < f0 s.a0 + 12 → bufByte { s with mem := m } a = bufByte s a :=
    fun a low high => agree a ⟨low, high⟩
  unfold execZcHdrChk at run run'
  exact checked_twinRuns run run' fun _ => by
    dsimp only [zcHeaderLen]
    rw [zcDecLoop_eq_zcLoop, zcDecLoop_eq_zcLoop,
      zcLoop_bufByte_eq (t := s) (u := { s with mem := m }) (a := f2 s.a0 + 11) rfl source (.inl ⟨by omega, by omega⟩)]
    generalize bufByte _ (f2 s.a0 + 11) = last
    have loop := zcLoop_twinRuns (store := fun k c => c ^^^ zcKsb k) (feed := fun k c => c ^^^ zcKsb k)
      (r := ⟨f2 s.a0, 12⟩) ⟨Nat.le_refl _, Nat.le_refl _⟩ source .start
    by_cases good : last = check
    · rw [if_pos good, if_pos good]
      exact .registers (fun x => complete { x with res := last.setWidth 64 }) loop
    · rw [if_neg good, if_neg good]
      exact .registers (fun x => raiseErr .integrity { x with res := last.setWidth 64 }) loop

end ZcLoop

/-! ## What a command writes and reads (R59, R227) -/

/-- Every command, on two BUFs that agree where its rule reads, makes the same updates, of BUF only where its rule
writes. -/
theorem exec_twinRuns {i : Instr} {s t u : State} {m : Memory} (agree : AgreesOn (readRegion i s) s m)
    (run : exec i s = .next t) (run' : exec i { s with mem := m } = .next u) :
    TwinRuns (writeRegion i s) s m t u := by
  cases i with
  | nop => exact next_twinRuns run run' (.registers complete .start)
  | setCfg => exact setCfg_twinRuns run run'
  | getCfg => exact next_twinRuns run run' (.registers (fun x => complete { x with res := x.cfg.setWidth 64 }) .start)
  | clrErr => exact next_twinRuns run run' (.registers (fun x => complete { x with sticky := 0 }) .start)
  | sreset => exact next_twinRuns run run' (.registers (fun x => complete (resetUnits x)) .start)
  | ident => exact next_twinRuns run run' (.registers (fun x => complete { x with res := idValue }) .start)
  | scDec td off => exact scDec_twinRuns agree run run'
  | scEnc td off => exact scEnc_twinRuns run run'
  | scAdec off => exact scAdec_twinRuns agree run run'
  | scAenc off => exact scAenc_twinRuns agree run run'
  | md5Reset =>
    exact next_twinRuns run run' (.registers (fun x => complete { x with md5 := hashRestart md5Seed x.md5 }) .start)
  | md5Byte b => exact md5Byte_twinRuns run run'
  | md5Buf => exact md5Buf_twinRuns agree run run'
  | md5Final => exact md5Final_twinRuns run run'
  | sha1Reset =>
    exact next_twinRuns run run' (.registers (fun x => complete { x with sha := hashRestart sha1Seed x.sha }) .start)
  | sha1Byte b => exact sha1Byte_twinRuns run run'
  | sha1Buf => exact sha1Buf_twinRuns agree run run'
  | sha1Final => exact sha1Final_twinRuns run run'
  | crcInit => exact next_twinRuns run run' (.registers (fun x => complete { x with crcReg := 0xFFFFFFFF }) .start)
  | crcLoad => exact next_twinRuns run run' (.registers (fun x => complete { x with crcReg := low32 x.a0 }) .start)
  | crcByte b =>
    exact next_twinRuns run run' (.registers (fun x => complete { x with crcReg := crcStep x.crcReg b }) .start)
  | crcBuf => exact crcBuf_twinRuns agree run run'
  | crcRead =>
    exact next_twinRuns run run'
      (.registers (fun x => complete { x with res := (crcFinal x.crcReg).setWidth 64 }) .start)
  | crcRaw =>
    exact next_twinRuns run run' (.registers (fun x => complete { x with res := x.crcReg.setWidth 64 }) .start)
  | crcCheck => exact crcCheck_twinRuns run run'
  | lzComp => exact lzComp_twinRuns agree run run'
  | lzDecomp => exact lzDecomp_twinRuns agree run run'
  | hufLoad => exact hufLoad_twinRuns agree run run'
  | hufDecode => exact hufDecode_twinRuns agree run run'
  | hufCode sym => exact hufCode_twinRuns run run'
  | zcInit => exact next_twinRuns run run' (.registers (fun x => complete { x with keys := ZcKeys.atReset }) .start)
  | zcPwByte b =>
    exact next_twinRuns run run' (.registers (fun x => complete { x with keys := zcUpdate x.keys b }) .start)
  | zcPwBuf => exact zcPwBuf_twinRuns agree run run'
  | zcEnc => exact zcEnc_twinRuns agree run run'
  | zcDec => exact zcDec_twinRuns agree run run'
  | zcHdrChk check => exact zcHdrChk_twinRuns agree run run'
  | zcKey idx => exact zcKey_twinRuns run run'
  | zcKsb =>
    exact next_twinRuns run run' (.registers (fun x => complete { x with res := (zcKsb x.keys).setWidth 64 }) .start)

/-- R59: none of a command's updates reaches an address beyond BUF. -/
theorem CommandUpdates.bufByte_beyond {i : Instr} {s t : State} (updates : CommandUpdates i s t) {a : Nat}
    (beyond : 65536 ≤ a) : bufByte t a = bufByte s a := by
  induction updates with
  | start => rfl
  | memWrite inside _ ih =>
    rw [bufByte_memWrite, if_neg (by omega)]
    exact ih
  | complete _ ih | raiseErr _ _ ih | clearSticky _ _ ih | sreset _ _ ih | res _ _ _ ih | cfg _ _ _ ih | crcReg _ _ _ ih
  | md5 _ _ _ ih | sha _ _ _ ih | huf _ _ _ ih | keys _ _ _ ih => exact ih

/-- Settles O19: the run beside itself gives the region, and the command's updates give BUF's bound. -/
theorem commandsWriteInsideTheirRegion : Obligations.CommandsWriteInsideTheirRegion := by
  intro i s t a run changed
  have twins : TwinRuns (writeRegion i s) s s.mem t t := exec_twinRuns (fun _ _ => rfl) run run
  exact ⟨by_contra fun out => changed (twins.outside out),
    Nat.lt_of_not_le fun beyond => changed ((exec_updates run).bufByte_beyond beyond)⟩

/-- Settles O20: the two runs make the same updates. -/
theorem commandsReadInsideTheirRegion : Obligations.CommandsReadInsideTheirRegion := by
  intro i s t u m agree run run'
  have twins := exec_twinRuns agree run run'
  exact ⟨twins.eq_but_mem, twins.byte⟩

/-! ## Refused host accesses (R54, R56) -/

/-- R54: a read that is allowed returns a value. -/
theorem hostReadValue_ok_of_allowed (s : State) {off n : Nat} (allowed : hostReadAllowed off n) :
    ∃ v, hostReadValue s off n = .ok v := by
  obtain (⟨rfl, rfl⟩ | ⟨rfl, rfl | rfl⟩ | ⟨rfl, rfl | rfl | rfl | rfl⟩ | buf) | ⟨rfl, rfl | rfl | rfl | rfl⟩ | ⟨rfl, rfl⟩ :=
    allowed
  case inl.inr.inr.inr => exact ⟨_, hostReadValue_buf s buf⟩
  all_goals exact ⟨_, rfl⟩

/-- R56: a read that is not allowed meets no register and no byte of BUF. -/
theorem hostReadValue_error_of_not_allowed (s : State) {off n : Nat} (refused : ¬ hostReadAllowed off n) :
    hostReadValue s off n = .error (refuseAccess off) := by
  simp only [hostReadAllowed, hostWriteAllowed, not_or] at refused
  obtain ⟨⟨cmd, whole, half, buf⟩, word, res⟩ := refused
  unfold hostReadValue
  iterate 12 rw [if_neg (by omega)]
  exact if_neg (mt (bufAccessAllowed_iff off n).mp buf)

/-- R54: a write that is allowed is not refused. -/
theorem hostWrite_ne_refuse_of_allowed (s : State) {off n : Nat} (v : DWord) (allowed : hostWriteAllowed off n)
    (r : Refusal) : hostWrite s off n v ≠ .refuse r := by
  obtain ⟨rfl, rfl⟩ | ⟨rfl, rfl | rfl⟩ | ⟨rfl, rfl | rfl | rfl | rfl⟩ | buf := allowed
  case inr.inr.inr => exact hostWrite_buf s buf v ▸ nofun
  all_goals exact nofun

/-- R56: a write that is not allowed is to a read-only register, or meets no register and no byte of BUF. -/
theorem hostWrite_refuse_of_not_allowed (s : State) {off n : Nat} (v : DWord) (refused : ¬ hostWriteAllowed off n) :
    ∃ r, hostWrite s off n v = .refuse r := by
  simp only [hostWriteAllowed, not_or] at refused
  obtain ⟨cmd, whole, half, buf⟩ := refused
  unfold hostWrite
  iterate 7 rw [if_neg (by omega)]
  rw [if_neg (mt (bufAccessAllowed_iff off n).mp buf)]
  split
  · exact ⟨_, rfl⟩
  · exact ⟨_, rfl⟩

/-- R260: every command ends in a next state. -/
theorem exec_next (i : Instr) (s : State) : ∃ t, exec i s = .next t := by
  cases i with
  | nop | getCfg | clrErr | sreset | ident | md5Reset | sha1Reset => exact ⟨_, rfl⟩
  | crcInit | crcLoad | crcByte | crcRead | crcRaw | crcCheck | zcInit | zcPwByte | zcKsb => exact ⟨_, rfl⟩
  | setCfg | scDec | scEnc | scAdec | scAenc =>
    dsimp only [exec, execSetCfg, execScDec, execScEnc, execScAdec, execScAenc]
    exact checked_total _ _ _
  | md5Byte | md5Buf | md5Final | sha1Byte | sha1Buf | sha1Final | crcBuf =>
    dsimp only [exec, execMd5Byte, execMd5Buf, execMd5Final, execSha1Byte, execSha1Buf, execSha1Final, execCrcBuf]
    exact checked_total _ _ _
  | lzComp | lzDecomp | hufLoad | hufDecode | hufCode =>
    dsimp only [exec, execLzComp, execLzDecomp, execHufLoad, execHufDecode, execHufCode]
    exact checked_total _ _ _
  | zcPwBuf | zcEnc | zcDec | zcHdrChk | zcKey =>
    dsimp only [exec, execZcPwBuf, execZcEnc, execZcDec, execZcHdrChk, execZcKey]
    exact checked_total _ _ _

/-- R76, R260: so does every word written to CMD. -/
theorem issue_next (w : Word) (s : State) : ∃ t, issue w s = .next t := by
  unfold issue
  cases decode w with
  | ok i => exact exec_next i _
  | error e => exact ⟨_, rfl⟩

/-- A step is refused exactly when the host's next event is: a command never is. -/
theorem step_refused_iff {s : State} {e : HostEvent} {rest : List HostEvent} (next : s.host = e :: rest) (r : Refusal) :
    step s = .refused r ↔ hostEvent e { s with host := rest } = .refuse r := by
  simp only [step, next]
  cases hostEvent e { s with host := rest } with
  | done t => exact ⟨nofun, nofun⟩
  | command w t =>
    obtain ⟨t', run⟩ := issue_next w t
    simp only [run]
    exact ⟨nofun, nofun⟩
  | refuse r' => rw [Host.Outcome.refused.injEq, HostAction.refuse.injEq]

/-- Settles O8: by what the host interface answers to an access that is allowed, and to one that is not. -/
theorem hostAccessRefusedExactlyWhenNotAllowed : Obligations.HostAccessRefusedExactlyWhenNotAllowed := by
  intro s off n v rest
  constructor
  · intro next
    simp only [step_refused_iff next, hostEvent]
    constructor
    · rintro ⟨r, refused⟩ allowed
      obtain ⟨value, ok⟩ := hostReadValue_ok_of_allowed { s with host := rest } allowed
      simp only [ok] at refused
      cases refused
    · intro refused
      simp only [hostReadValue_error_of_not_allowed _ refused]
      exact ⟨_, rfl⟩
  · intro next
    simp only [step_refused_iff next, hostEvent]
    exact ⟨fun ⟨r, refused⟩ allowed => hostWrite_ne_refuse_of_allowed _ v allowed r refused,
      hostWrite_refuse_of_not_allowed _ v⟩

end Sys2Proof.Proofs
end

-- ==== Proofs: the encoding family (spec/30_encoding.md) ====
section
/-! PROOFS. Command words (spec/30_encoding.md): the three fields of a word, the decoder and the encoder as inverses,
the opcode table as the decoder's own map, and the words that raise IllegalCommand. -/

namespace Sys2Proof.Proofs

open Sys2Proof Sys2Proof.Machine Sys2Proof.Laws

/-! ## The fields of a word (R70) -/

@[simp] theorem wordOpcode_append (h : Half) (b op : Byte) : wordOpcode (h ++ b ++ op) = op :=
  BitVec.extractLsb'_append_eq_right

@[simp] theorem wordB_append (h : Half) (b op : Byte) : wordB (h ++ b ++ op) = b :=
  (BitVec.extractLsb'_append_eq_of_le (by decide)).trans BitVec.extractLsb'_append_eq_right

@[simp] theorem wordH_append (h : Half) (b op : Byte) : wordH (h ++ b ++ op) = h :=
  (BitVec.extractLsb'_append_eq_of_le (by decide)).trans BitVec.extractLsb'_append_eq_left

/-- A word is its three fields. -/
theorem fields_append (w : Word) : wordH w ++ wordB w ++ wordOpcode w = w := by
  have upper : wordH w ++ wordB w = w.extractLsb' 8 24 := BitVec.extractLsb'_append_extractLsb'_eq_extractLsb' rfl
  rw [upper]
  exact BitVec.extractLsb'_append_extractLsb'

theorem append_eq_append_iff (h h' : Half) (b b' op op' : Byte) :
    h ++ b ++ op = h' ++ b' ++ op' ↔ h = h' ∧ b = b' ∧ op = op' := by
  constructor
  · intro same
    exact ⟨by simpa using congrArg wordH same, by simpa using congrArg wordB same,
      by simpa using congrArg wordOpcode same⟩
  · rintro ⟨rfl, rfl, rfl⟩
    rfl

/-! ## The decoder and the encoder (R70, R74, R75, R77, R79) -/

/-- R77: the must-be-zero rule of a row for the word's B and H. -/
def MeetsRow (w : Word) (row : OpcodeRow) : Prop :=
  (row.usesB = false → wordB w = 0) ∧ (row.usesH = false → wordH w = 0)

/-- R78: everything the decoder accepts. -/
theorem decode_eq_ok_iff (w : Word) (i : Instr) :
    decode w = .ok i ↔
      ∃ row, opcodeRow (wordOpcode w) = some row ∧ MeetsRow w row ∧ row.build (wordB w) (wordH w) = i := by
  unfold decode MeetsRow
  cases opcodeRow (wordOpcode w) with
  | none => simp
  | some row =>
    simp only [Option.some.injEq, exists_eq_left']
    split_ifs with badB badH
    · exact ⟨nofun, fun ⟨⟨zeroB, _⟩, _⟩ => absurd (zeroB badB.1) badB.2⟩
    · exact ⟨nofun, fun ⟨⟨_, zeroH⟩, _⟩ => absurd (zeroH badH.1) badH.2⟩
    · simp only [not_and, not_not] at badB badH
      exact ⟨fun ok => ⟨⟨badB, badH⟩, Except.ok.inj ok⟩, fun ⟨_, built⟩ => congrArg Except.ok built⟩

/-- R75: every command's opcode has its row, command by command. -/
theorem rowFits (i : Instr) : RowFits.Statement i := by
  cases i with
  | nop => exact RowFits.nop
  | setCfg => exact RowFits.setCfg
  | getCfg => exact RowFits.getCfg
  | clrErr => exact RowFits.clrErr
  | sreset => exact RowFits.sreset
  | ident => exact RowFits.ident
  | scDec td off => exact RowFits.scDec td off
  | scEnc td off => exact RowFits.scEnc td off
  | scAdec off => exact RowFits.scAdec off
  | scAenc off => exact RowFits.scAenc off
  | md5Reset => exact RowFits.md5Reset
  | md5Byte b => exact RowFits.md5Byte b
  | md5Buf => exact RowFits.md5Buf
  | md5Final => exact RowFits.md5Final
  | sha1Reset => exact RowFits.sha1Reset
  | sha1Byte b => exact RowFits.sha1Byte b
  | sha1Buf => exact RowFits.sha1Buf
  | sha1Final => exact RowFits.sha1Final
  | crcInit => exact RowFits.crcInit
  | crcLoad => exact RowFits.crcLoad
  | crcByte b => exact RowFits.crcByte b
  | crcBuf => exact RowFits.crcBuf
  | crcRead => exact RowFits.crcRead
  | crcRaw => exact RowFits.crcRaw
  | crcCheck => exact RowFits.crcCheck
  | lzComp => exact RowFits.lzComp
  | lzDecomp => exact RowFits.lzDecomp
  | hufLoad => exact RowFits.hufLoad
  | hufDecode => exact RowFits.hufDecode
  | hufCode sym => exact RowFits.hufCode sym
  | zcInit => exact RowFits.zcInit
  | zcPwByte b => exact RowFits.zcPwByte b
  | zcPwBuf => exact RowFits.zcPwBuf
  | zcEnc => exact RowFits.zcEnc
  | zcDec => exact RowFits.zcDec
  | zcHdrChk check => exact RowFits.zcHdrChk check
  | zcKey idx => exact RowFits.zcKey idx
  | zcKsb => exact RowFits.zcKsb

/-- Settles O1: the encoding's fields are the command's, and the row of its opcode builds it from them. -/
theorem encodeThenDecodeIsIdentity : Obligations.EncodeThenDecodeIsIdentity := by
  intro i
  obtain ⟨row, found, zeroB, zeroH, built⟩ := rowFits i
  simp only [decode_eq_ok_iff, MeetsRow, encode, wordOpcode_append, wordB_append, wordH_append]
  exact ⟨row, found, ⟨zeroB, zeroH⟩, built⟩

theorem encodeWidth_decodeWidth : ∀ v, encodeWidth (decodeWidth v) = v := by decide

theorem encodeOrder_decodeOrder : ∀ v, encodeOrder (decodeOrder v) = v := by decide

theorem encodePolicy_decodePolicy : ∀ v, encodePolicy (decodePolicy v) = v := by decide

/-- R74: the five fields of a descriptor fill its byte. -/
theorem encodeTd_decodeTd (b : Byte) : encodeTd (decodeTd b) = b := by
  have join {lo n hi m : Nat} (adjacent : hi = lo + n) :
      b.extractLsb' hi m ++ b.extractLsb' lo n = b.extractLsb' lo (m + n) :=
    BitVec.extractLsb'_append_extractLsb'_eq_extractLsb' adjacent
  have bit (k : Nat) : BitVec.ofBool (b.getLsbD k) = b.extractLsb' k 1 := by
    ext i inside
    obtain rfl : i = 0 := Nat.lt_one_iff.mp inside
    simp
  simp only [encodeTd, decodeTd, encodeWidth_decodeWidth, encodeOrder_decodeOrder, encodePolicy_decodePolicy, bit]
  rw [join (lo := 5) (n := 2) rfl, join (lo := 3) (n := 2) rfl, join (lo := 2) (n := 1) rfl,
    join (lo := 0) (n := 2) rfl]
  exact BitVec.extractLsb'_eq_self

/-- R75, R79: row by row, a command spells the very fields it was built from; a field its row does not use is 0 by the
must-be-zero rule. -/
theorem encode_build {op : Byte} {row : OpcodeRow} (found : opcodeRow op = some row) {b : Byte} {h : Half}
    (zeroB : row.usesB = false → b = 0) (zeroH : row.usesH = false → h = 0) :
    encode (row.build b h) = h ++ b ++ op := by
  rw [encode, append_eq_append_iff]
  unfold opcodeRow at found
  split at found
  case h_39 => cases found
  all_goals
    obtain rfl := Option.some.inj found
    simp_all [instrH, instrB, instrOpcode, encodeTd_decodeTd]

/-- Settles O2: the row that decodes the word builds a command with the word's fields. -/
theorem decodedWordIsTheEncoding : Obligations.DecodedWordIsTheEncoding := by
  intro w i decoded
  obtain ⟨row, found, ⟨zeroB, zeroH⟩, rfl⟩ := (decode_eq_ok_iff w i).mp decoded
  rw [encode_build found zeroB zeroH, fields_append]

/-- Settles O4: each word is the encoding of its command. -/
theorem sampleWordsDecode : Obligations.SampleWordsDecode :=
  ⟨encodeThenDecodeIsIdentity .setCfg, encodeThenDecodeIsIdentity (.scDec ⟨.w32, false, .dual, .requireMatch, false⟩ 4),
    encodeThenDecodeIsIdentity (.md5Byte 0x61), encodeThenDecodeIsIdentity .sha1Final,
    encodeThenDecodeIsIdentity (.crcByte 0x63), encodeThenDecodeIsIdentity .lzDecomp,
    encodeThenDecodeIsIdentity (.hufCode 4), encodeThenDecodeIsIdentity (.zcHdrChk 0x35)⟩

/-! ## The opcode table (R75, R78) -/

/-- The mask of a row: the opcode byte and the must-be-zero fields (R78). -/
def rowMask (row : OpcodeRow) : Word :=
  (if row.usesH then 0#16 else .allOnes 16) ++ (if row.usesB then 0#8 else .allOnes 8) ++ BitVec.allOnes 8

/-- The match of a row: its opcode byte, with 0 in B and H (R78). -/
def rowMatch (op : Byte) : Word := 0#16 ++ 0#8 ++ op

/-- The table's line for an opcode byte, if the decoder's map assigns it. -/
def tableLine (n : Nat) : Option (Word × Word) :=
  (opcodeRow (BitVec.ofNat 8 n)).map fun row => (rowMatch (BitVec.ofNat 8 n), rowMask row)

/-- The opcode table is the decoder's map, listed by opcode byte. -/
theorem opcodeTable_eq_filterMap : opcodeTable = (List.range 256).filterMap tableLine := by decide +kernel

theorem mem_opcodeTable_iff (line : Word × Word) :
    line ∈ opcodeTable ↔ ∃ op row, opcodeRow op = some row ∧ line = (rowMatch op, rowMask row) := by
  simp only [opcodeTable_eq_filterMap, List.mem_filterMap, List.mem_range, tableLine, Option.map_eq_some_iff]
  constructor
  · rintro ⟨n, -, row, found, rfl⟩
    exact ⟨_, row, found, rfl⟩
  · rintro ⟨op, row, found, rfl⟩
    refine ⟨op.toNat, op.isLt, row, ?_⟩
    rw [BitVec.ofNat_toNat, BitVec.setWidth_eq]
    exact ⟨found, rfl⟩

/-- A field that a row masks when it does not use it is 0 under the mask exactly when the must-be-zero rule holds. -/
theorem and_mask_eq_zero_iff {n : Nat} (field : BitVec n) (used : Bool) :
    (field &&& if used then 0#n else BitVec.allOnes n) = 0#n ↔ (used = false → field = 0#n) := by
  cases used with
  | false => simp
  | true => simp

/-- R78: a word matches a row's line exactly when it has the row's opcode byte and meets its must-be-zero rule. -/
theorem matchesRow_iff (w : Word) (op : Byte) (row : OpcodeRow) :
    matchesRow w (rowMatch op, rowMask row) ↔ wordOpcode w = op ∧ MeetsRow w row := by
  have masked : w &&& rowMask row = (wordH w &&& if row.usesH then 0#16 else .allOnes 16)
      ++ (wordB w &&& if row.usesB then 0#8 else .allOnes 8) ++ wordOpcode w := by
    conv_lhs => rw [← fields_append w, rowMask, BitVec.and_append, BitVec.and_append, BitVec.and_allOnes]
  rw [matchesRow, masked, rowMatch, append_eq_append_iff, MeetsRow, and_mask_eq_zero_iff, and_mask_eq_zero_iff]
  tauto

/-- A word's low byte, masked out, is a row's match exactly when it is the row's opcode byte. -/
theorem and_lowByte_eq_iff (w : Word) (op : Byte) : w &&& 0xFF = rowMatch op ↔ wordOpcode w = op := by
  have mask : (0xFF : Word) = 0#16 ++ 0#8 ++ BitVec.allOnes 8 := by decide
  have masked : w &&& 0xFF = 0#16 ++ 0#8 ++ wordOpcode w := by
    conv_lhs => rw [← fields_append w, mask, BitVec.and_append, BitVec.and_append, BitVec.and_allOnes, BitVec.and_zero,
      BitVec.and_zero]
  rw [masked, rowMatch, append_eq_append_iff]
  exact ⟨fun ⟨_, _, opcode⟩ => opcode, fun opcode => ⟨rfl, rfl, opcode⟩⟩

/-- Settles O3: the table's lines are the decoder's rows, and matching one is what the decoder checks. -/
theorem wordDecodesExactlyWhenItMatchesARow : Obligations.WordDecodesExactlyWhenItMatchesARow := by
  intro w
  constructor
  · rintro ⟨i, decoded⟩
    obtain ⟨row, found, meets, -⟩ := (decode_eq_ok_iff w i).mp decoded
    exact ⟨_, (mem_opcodeTable_iff _).mpr ⟨_, row, found, rfl⟩, (matchesRow_iff w _ row).mpr ⟨rfl, meets⟩⟩
  · rintro ⟨line, listed, matched⟩
    obtain ⟨op, row, found, rfl⟩ := (mem_opcodeTable_iff line).mp listed
    obtain ⟨rfl, meets⟩ := (matchesRow_iff w op row).mp matched
    exact ⟨_, (decode_eq_ok_iff w _).mpr ⟨row, found, meets, rfl⟩⟩

/-! ## Words that raise IllegalCommand (R76, R77) -/

/-- R22, R265: a word the host writes to CMD is executed in the same step. -/
theorem step_cmdWrite {s : State} {w : Word} {rest : List HostEvent} (next : s.host = cmdWrite w :: rest) :
    step s = issue w { s with host := rest } := by
  have word : (w.setWidth 64).extractLsb' 0 32 = w := by
    ext i inside
    simp [inside, Nat.lt_trans inside (by decide : 32 < 64)]
  have command : hostEvent (cmdWrite w) { s with host := rest } = .command w { s with host := rest } := by
    conv_rhs => rw [← word]
    rfl
  simp only [step, next, command]

/-- R76, R77: a word that spells no command raises IllegalCommand and changes only STATUS and CMD. -/
theorem step_of_not_decoded {s : State} {w : Word} {rest : List HostEvent} (next : s.host = cmdWrite w :: rest)
    (undecoded : ¬ ∃ i, decode w = .ok i) :
    step s = .next { s with host := rest, cmd := w, err := 6, sticky := s.sticky ||| 0x20 } := by
  rw [step_cmdWrite next, issue]
  cases h : decode w with
  | ok i => exact absurd ⟨i, h⟩ undecoded
  | error e => rfl

/-- R76: the opcode bytes with no command, by unit and function. -/
abbrev Unassigned (unit func : Nat) : Prop :=
  (unit = 0 ∧ 6 ≤ func) ∨ (unit = 1 ∧ 4 ≤ func) ∨ ((unit = 2 ∨ unit = 3) ∧ 4 ≤ func) ∨ (unit = 4 ∧ 7 ≤ func)
    ∨ (unit = 5 ∧ 2 ≤ func) ∨ (unit = 6 ∧ 3 ≤ func) ∨ (unit = 7 ∧ 8 ≤ func) ∨ 8 ≤ unit

/-- R76: the decoder's map has no row for an unassigned opcode byte. -/
theorem opcodeRow_of_unassigned {op : Byte} (unassigned : Unassigned (op.toNat / 16) (op.toNat % 16)) :
    opcodeRow op = none := by
  unfold opcodeRow
  split
  case h_39 => rfl
  all_goals exact absurd unassigned (by decide)

theorem wordOpcode_toNat (w : Word) : (wordOpcode w).toNat = w.toNat % 256 := by
  rw [wordOpcode, BitVec.extractLsb'_toNat, Nat.shiftRight_zero]

/-- Settles O6: an unassigned opcode byte has no row, so the word does not decode. -/
theorem unassignedOpcodesRaiseIllegalCommand : Obligations.UnassignedOpcodesRaiseIllegalCommand := by
  intro s w rest next unit func unassigned
  have unit_eq : (wordOpcode w).toNat / 16 = unit := by rw [wordOpcode_toNat]; omega
  have func_eq : (wordOpcode w).toNat % 16 = func := by rw [wordOpcode_toNat]; omega
  have noRow : opcodeRow (wordOpcode w) = none := opcodeRow_of_unassigned (unit_eq ▸ func_eq ▸ unassigned)
  refine step_of_not_decoded next fun ⟨i, decoded⟩ => ?_
  obtain ⟨row, found, -, -⟩ := (decode_eq_ok_iff w i).mp decoded
  exact nomatch noRow.symm.trans found

theorem tdIllegal_of_not_wellFormed {td : FieldDesc} (illFormed : td.wellFormed = false) : tdIllegal td = true := by
  rw [tdIllegal_eq_not_wellFormed, illFormed, Bool.not_false]

/-- R77: the first check of a command with an illegal immediate raises IllegalCommand. -/
theorem exec_of_not_wellFormed {i : Instr} (illFormed : i.wellFormed = false) (s : State) :
    exec i s = .next (raiseErr .illegalCommand s) := by
  cases i with
  | scDec td off =>
    rw [exec, execScDec]
    exact checked_of_some (firstError_cons_of_fail (tdIllegal_of_not_wellFormed illFormed) _ _) s _
  | scEnc td off =>
    rw [exec, execScEnc]
    exact checked_of_some (firstError_cons_of_fail (tdIllegal_of_not_wellFormed illFormed) _ _) s _
  | zcKey idx =>
    have beyond : decide (2 < idx.toNat) = true := decide_eq_true (Nat.lt_of_not_le (of_decide_eq_false illFormed))
    rw [exec, execZcKey]
    exact checked_of_some (firstError_cons_of_fail beyond _ _) s _
  | _ => cases illFormed

/-- R77: a word whose opcode byte has a line in the table spells a command only where it matches that line. -/
theorem not_decoded_of_not_matchesRow {w : Word} {line : Word × Word} (listed : line ∈ opcodeTable)
    (opcode : w &&& 0xFF = line.1) (unmatched : ¬ matchesRow w line) : ¬ ∃ i, decode w = .ok i := by
  rintro ⟨i, decoded⟩
  obtain ⟨op, row, found, rfl⟩ := (mem_opcodeTable_iff line).mp listed
  obtain ⟨row', found', meets, -⟩ := (decode_eq_ok_iff w i).mp decoded
  have opcode_eq : wordOpcode w = op := (and_lowByte_eq_iff w op).mp opcode
  rw [opcode_eq, found] at found'
  obtain rfl := Option.some.inj found'
  exact unmatched ((matchesRow_iff w op row).mpr ⟨opcode_eq, meets⟩)

/-- R75: 0x00000000 is NOP's encoding and no other command's. -/
theorem decode_eq_nop_iff (w : Word) : decode w = .ok .nop ↔ w = 0 := by
  constructor
  · intro decoded
    exact (decodedWordIsTheEncoding w .nop decoded).symm
  · rintro rfl
    exact encodeThenDecodeIsIdentity .nop

/-- Settles O7: a non-zero must-be-zero field keeps the word from decoding, and an illegal immediate fails the command's
first check. -/
theorem illegalFieldsRaiseIllegalCommand : Obligations.IllegalFieldsRaiseIllegalCommand := by
  refine ⟨fun s w rest next illegal => ?_, decode_eq_nop_iff⟩
  obtain ⟨line, listed, opcode, unmatched⟩ | ⟨i, decoded, illFormed⟩ := illegal
  · exact step_of_not_decoded next (not_decoded_of_not_matchesRow listed opcode unmatched)
  · simp only [step_cmdWrite next, issue, decoded]
    exact exec_of_not_wellFormed illFormed _

end Sys2Proof.Proofs
end

-- ==== Proofs: the control family (spec/40_control.md) ====
section
/-! PROOFS. The control unit (spec/40_control.md): the commands without a check, SRESET, and the CFG values that SETCFG
accepts and refuses. -/

namespace Sys2Proof.Proofs

open Sys2Proof Sys2Proof.Machine

/-! ## The commands without a check (R100, R102 to R105) -/

theorem exec_nop (s : State) : exec .nop s = .next (complete s) := rfl

theorem exec_getCfg (s : State) : exec .getCfg s = .next (complete { s with res := s.cfg.setWidth 64 }) := rfl

theorem exec_clrErr (s : State) : exec .clrErr s = .next (complete { s with sticky := 0 }) := rfl

theorem exec_ident (s : State) : exec .ident s = .next (complete { s with res := idValue }) := rfl

theorem exec_sreset (s : State) : exec .sreset s = .next (complete (resetUnits s)) := rfl

/-- Settles O22: each command is one completed update. -/
theorem plainControlCommandsEffects : Obligations.PlainControlCommandsEffects :=
  fun s => ⟨exec_nop s, exec_getCfg s, exec_clrErr s, exec_ident s⟩

/-- Settles O24: `resetUnits` gives both hash cores their reset value, whose block buffer the statement leaves out. -/
theorem sresetRestoresTheUnits : Obligations.SresetRestoresTheUnits :=
  fun s => ⟨complete (resetUnits s), exec_sreset s, rfl, rfl, rfl, rfl, rfl, rfl, rfl, rfl, rfl⟩

/-! ## The fields of a CFG value in integers (R27, R101) -/

theorem toNat_low32 (x : DWord) : (low32 x).toNat = x.toNat % 2 ^ 32 := by
  rw [low32, BitVec.extractLsb'_toNat, Nat.shiftRight_zero]

theorem low32_eq_ofNat (x : DWord) : low32 x = BitVec.ofNat 32 (x.toNat % 2 ^ 32) := by
  rw [← toNat_low32, BitVec.ofNat_toNat, BitVec.setWidth_eq]

/-- The number in five bits of a word, which is how CFG holds WB, OB and LB (R27). -/
theorem toNat_fiveBits (v : Word) (start : Nat) : (v.extractLsb' start 5).toNat = v.toNat / 2 ^ start % 32 := by
  rw [BitVec.extractLsb'_toNat, Nat.shiftRight_eq_div_pow]

theorem cfgParams_wb (v : Word) : (cfgParams v).wb = v.toNat / 2 ^ 8 % 32 := toNat_fiveBits v 8

theorem cfgParams_ob (v : Word) : (cfgParams v).ob = v.toNat / 2 ^ 16 % 32 := toNat_fiveBits v 16

theorem cfgParams_lb (v : Word) : (cfgParams v).lb = v.toNat / 2 ^ 24 % 32 := toNat_fiveBits v 24

/-- R101 check 2, in integers. -/
theorem cfgReservedSet_iff (v : Word) : cfgReservedSet v = true ↔ v.toNat &&& 0xE0E0E0FE ≠ 0 := by
  rw [cfgReservedSet, decide_eq_true_iff, ne_eq, BitVec.toNat_eq, BitVec.toNat_and]
  rfl

/-- R101 check 3, in integers. -/
theorem cfgMisshapen_iff (v : Word) :
    cfgMisshapen v = true ↔
      v.toNat / 2 ^ 16 % 32 = 0 ∨ v.toNat / 2 ^ 24 % 32 = 0 ∨ v.toNat / 2 ^ 8 % 32 < v.toNat / 2 ^ 16 % 32 := by
  simp only [cfgMisshapen, Bool.or_eq_true, decide_eq_true_eq, cfgParams_wb, cfgParams_ob, cfgParams_lb, or_assoc]

/-- R101 check 4, in integers. -/
theorem cfgTooWide_iff (v : Word) :
    cfgTooWide v = true ↔ 16 < v.toNat / 2 ^ 8 % 32 ∨ 16 < v.toNat / 2 ^ 24 % 32 := by
  simp only [cfgTooWide, Bool.or_eq_true, decide_eq_true_eq, cfgParams_wb, cfgParams_lb, Config.wbMax, Config.lbMax]

/-! ## SETCFG (R101) -/

/-- R101 checks 2 and 3 as one: both raise IllegalCommand. -/
def CfgMisfit (v : Word) : Prop := cfgReservedSet v = true ∨ cfgMisshapen v = true

theorem cfgMisfit_iff (v : Word) :
    CfgMisfit v ↔ v.toNat &&& 0xE0E0E0FE ≠ 0 ∨ v.toNat / 2 ^ 16 % 32 = 0 ∨ v.toNat / 2 ^ 24 % 32 = 0
      ∨ v.toNat / 2 ^ 8 % 32 < v.toNat / 2 ^ 16 % 32 :=
  or_congr (cfgReservedSet_iff v) (cfgMisshapen_iff v)

theorem not_cfgMisfit_iff (v : Word) : ¬ CfgMisfit v ↔ cfgReservedSet v = false ∧ cfgMisshapen v = false := by
  rw [CfgMisfit, not_or, Bool.not_eq_true, Bool.not_eq_true]

/-- SETCFG's check phase and its operation. -/
theorem exec_setCfg (s : State) :
    exec .setCfg s =
      checked
        [(cfgReservedSet (low32 s.a0), .illegalCommand), (cfgMisshapen (low32 s.a0), .illegalCommand),
          (cfgTooWide (low32 s.a0), .unsupportedFeature)]
        s fun s => complete { s with cfg := low32 s.a0 } := rfl

section SetCfg

variable {s : State}

/-- A misfit is refused before its widths are looked at. -/
theorem exec_setCfg_of_misfit (misfit : CfgMisfit (low32 s.a0)) :
    exec .setCfg s = .next (raiseErr .illegalCommand s) := by
  refine (exec_setCfg s).trans (checked_of_some ?_ s _)
  obtain reserved | misshapen := misfit
  · exact firstError_cons_of_fail reserved _ _
  · rw [firstError_cons, firstError_cons_of_fail misshapen, ite_self]

theorem exec_setCfg_of_tooWide (fits : ¬ CfgMisfit (low32 s.a0)) (tooWide : cfgTooWide (low32 s.a0) = true) :
    exec .setCfg s = .next (raiseErr .unsupportedFeature s) := by
  obtain ⟨reserved, misshapen⟩ := (not_cfgMisfit_iff _).mp fits
  refine (exec_setCfg s).trans (checked_of_some ?_ s _)
  rw [firstError_cons_of_pass reserved, firstError_cons_of_pass misshapen, firstError_cons_of_fail tooWide]

theorem exec_setCfg_of_legal (fits : ¬ CfgMisfit (low32 s.a0)) (narrow : cfgTooWide (low32 s.a0) = false) :
    exec .setCfg s = .next (complete { s with cfg := low32 s.a0 }) := by
  obtain ⟨reserved, misshapen⟩ := (not_cfgMisfit_iff _).mp fits
  refine (exec_setCfg s).trans (checked_of_none ?_ s _)
  rw [firstError_cons_of_pass reserved, firstError_cons_of_pass misshapen, firstError_cons_of_pass narrow,
    firstError_nil]

end SetCfg

/-- Settles O23: the statement's integers are the fields of A0[31:0], and each clause is one outcome of the checks. -/
theorem setCfgAcceptsTheLegalValues : Obligations.SetCfgAcceptsTheLegalValues := by
  intro s
  dsimp only
  rw [← low32_eq_ofNat, ← toNat_low32, ← cfgMisfit_iff, ← cfgTooWide_iff]
  refine ⟨fun fits wb lb => ?legal, exec_setCfg_of_misfit, exec_setCfg_of_tooWide⟩
  case legal =>
    have narrow : ¬ cfgTooWide (low32 s.a0) = true := fun tooWide =>
      ((cfgTooWide_iff _).mp tooWide).elim (Nat.not_lt_of_le wb) (Nat.not_lt_of_le lb)
    exact exec_setCfg_of_legal fits (Bool.eq_false_iff.mpr narrow)

end Sys2Proof.Proofs
end

-- ==== Proofs: the struct codec family (spec/41_struct_codec.md) ====
section
/-! PROOFS. The binary struct codec (spec/41_struct_codec.md): the bytes of a value in each order, what a field decodes and
encodes to, the check phases of the four commands said once for the field commands and once for the array commands, and
from these the round trips, the copies and the nesting of sub-structs. -/

namespace Sys2Proof.Proofs

open Sys2Proof Sys2Proof.Machine

/-! ## The bytes of a value (R10) -/

theorem leNat_append (xs ys : List Byte) : leNat (xs ++ ys) = leNat xs + 256 ^ xs.length * leNat ys := by
  induction xs with
  | nil => simp [leNat]
  | cons x xs ih => simp only [List.cons_append, leNat, ih, List.length_cons, Nat.pow_succ']; ring

theorem beNat_cons (x : Byte) (xs : List Byte) : beNat (x :: xs) = x.toNat * 256 ^ xs.length + beNat xs := by
  simp only [beNat, List.reverse_cons, leNat_append, leNat, List.length_reverse]
  ring

/-- R10: `BE` weighs byte i by 256^(n-1-i). -/
theorem beNat_memRead (s : State) (a n : Nat) :
    beNat (memRead s a n) = (Finset.range n).sum fun i => (bufByte s (a + i)).toNat * 256 ^ (n - 1 - i) := by
  induction n generalizing a with
  | zero => rfl
  | succ n ih =>
    have next : ∀ i, (bufByte s (a + (i + 1))).toNat * 256 ^ (n + 1 - 1 - (i + 1))
        = (bufByte s (a + 1 + i)).toNat * 256 ^ (n - 1 - i) := fun i => by
      rw [Nat.add_assoc a 1 i, Nat.add_comm 1 i, Nat.add_sub_cancel, Nat.add_comm i 1, Nat.sub_sub]
    rw [memRead, beNat_cons, memRead_length, ih, Finset.sum_range_succ', Nat.add_comm]
    simp only [next]
    rfl

/-- R10: the bytes of a value in n bytes are those of its low 8n bits. -/
theorem bytesLE_mod (v n : Nat) : bytesLE (v % 256 ^ n) n = bytesLE v n := by
  induction n generalizing v with
  | zero => rfl
  | succ n ih =>
    have low : BitVec.ofNat 8 (v % 256 ^ (n + 1)) = BitVec.ofNat 8 v := by
      apply BitVec.eq_of_toNat_eq
      rw [BitVec.toNat_ofNat, BitVec.toNat_ofNat, Nat.pow_succ']
      exact Nat.mod_mul_right_mod v 256 _
    have high : v % 256 ^ (n + 1) / 256 = v / 256 % 256 ^ n := by
      rw [Nat.pow_succ', Nat.mod_mul_right_div_self]
    rw [bytesLE, bytesLE, low, high, ih]

/-- R10: byte i of `bytesLE` of a double word is its bits from 8i. -/
theorem bytesLE_getD_extract (v : DWord) {n i : Nat} (inside : i < n) :
    (bytesLE v.toNat n).getD i 0 = v.extractLsb' (8 * i) 8 := by
  rw [bytesLE_getD _ inside, ofNat_div_eq_extract]

/-- R10: byte i of `bytesBE` is byte n-1-i of `bytesLE`. -/
theorem bytesBE_getD_extract (v : DWord) {n i : Nat} (inside : i < n) :
    (bytesBE v.toNat n).getD i 0 = v.extractLsb' (8 * (n - 1 - i)) 8 := by
  have length := bytesLE_length v.toNat n
  have reversed := List.getD_reverse (l := bytesLE v.toNat n) i (by omega)
  rw [bytesBE, List.getD_eq_getElem?_getD, List.getElem?_reverse (by omega), ← List.getD_eq_getElem?_getD, length]
  exact bytesLE_getD_extract v (by omega)

/-- R10: each order's reading inverts its writing. -/
theorem orderedNat_orderedBytes (o : ByteOrder) (v n : Nat) : orderedNat o (orderedBytes o v n) = v % 256 ^ n := by
  cases o with
  | little => exact leNat_bytesLE v n
  | big => exact beNat_bytesBE v n

/-! ## A field's value and its bytes (R110, R112, R113) -/

section Field

variable {td : FieldDesc}

theorem fieldByteOrder_of_little {o : FieldOrder}
    (little : o = .little ∨ (o = .native ∧ Config.nativeEndian = .little)) : fieldByteOrder o = .little := by
  obtain rfl | ⟨rfl, native⟩ := little
  · rfl
  · exact native

theorem fieldByteOrder_of_big {o : FieldOrder} (big : o = .big ∨ (o = .native ∧ Config.nativeEndian = .big)) :
    fieldByteOrder o = .big := by
  obtain rfl | ⟨rfl, native⟩ := big
  · rfl
  · exact native

theorem fieldSize_plain (plain : td.order ≠ .dual) : fieldSize td = widthBytes td.width := by
  unfold fieldSize
  cases order : td.order with
  | dual => exact absurd order plain
  | native | little | big => rfl

theorem fieldSize_dual (dual : td.order = .dual) : fieldSize td = 2 * widthBytes td.width := by
  rw [fieldSize, dual]

theorem decodeField_plain (plain : td.order ≠ .dual) (s : State) (a : Nat) :
    decodeField s td a = some (orderedNat (fieldByteOrder td.order) (memRead s a (widthBytes td.width))) := by
  unfold decodeField
  cases order : td.order with
  | dual => exact absurd order plain
  | native | little | big => rfl

/-- R112: what a dual field decodes to, from its two copies. -/
def dualValue (policy : DualPolicy) (lo hi : Nat) : Option Nat :=
  match policy with
  | .requireMatch => if lo = hi then some lo else none
  | .preferLittle => some lo
  | .preferBig => some hi
  | .reserved => none

theorem decodeField_dual (dual : td.order = .dual) (s : State) (a : Nat) :
    decodeField s td a = dualValue td.policy (leNat (memRead s a (widthBytes td.width)))
      (beNat (memRead s (a + widthBytes td.width) (widthBytes td.width))) := by
  simp only [decodeField, dual]
  rfl

/-- R112: copies that agree decode to their value under every legal policy. -/
theorem dualValue_self {policy : DualPolicy} (assigned : policy ≠ .reserved) (u : Nat) :
    dualValue policy u u = some u := by
  cases policy with
  | requireMatch => exact if_pos rfl
  | preferLittle | preferBig => rfl
  | reserved => exact absurd rfl assigned

theorem encodeField_plain (plain : td.order ≠ .dual) (v : DWord) :
    encodeField td v = orderedBytes (fieldByteOrder td.order) v.toNat (widthBytes td.width) := by
  have low : ∀ o n, orderedBytes o (v.toNat % 2 ^ (8 * n)) n = orderedBytes o v.toNat n := fun o n => by
    rw [Nat.pow_mul]
    cases o with
    | little => exact bytesLE_mod _ n
    | big => exact congrArg List.reverse (bytesLE_mod _ n)
  unfold encodeField
  cases order : td.order with
  | dual => exact absurd order plain
  | native | little | big => exact low _ _

theorem encodeField_dual (dual : td.order = .dual) (v : DWord) :
    encodeField td v = bytesLE v.toNat (widthBytes td.width) ++ bytesBE v.toNat (widthBytes td.width) := by
  simp only [encodeField, dual, bytesBE, Nat.pow_mul]
  rw [show (2 ^ 8 : Nat) = 256 from rfl, bytesLE_mod]

theorem widthBytes_le (w : FieldWidth) : widthBytes w ≤ 8 := by cases w <;> decide

/-- R113 check 4: the values that a field holds. -/
theorem fieldOutOfRange_eq_false_iff (td : FieldDesc) (v : DWord) :
    fieldOutOfRange td v = false ↔
      if td.signed then (v.setWidth (8 * widthBytes td.width)).signExtend 64 = v
      else v.toNat < 2 ^ (8 * widthBytes td.width) := by
  have bound := v.isLt
  cases signed : td.signed with
  | true => simp only [fieldOutOfRange, signed, if_true, sext64, BitVec.ofNat_toNat, decide_eq_false_iff_not, not_not]
  | false =>
    simp only [fieldOutOfRange, signed, Bool.false_eq_true, if_false, Bool.and_eq_false_iff, decide_eq_false_iff_not]
    have width := widthBytes_le td.width
    constructor
    · rintro (wide | small)
      · rwa [show 8 * widthBytes td.width = 64 by omega]
      · exact Nat.lt_of_not_le small
    · exact fun small => .inr (Nat.not_le_of_lt small)

/-- R113 check 4: the values that a field cannot hold. -/
theorem fieldOutOfRange_eq_true_iff (td : FieldDesc) (v : DWord) :
    fieldOutOfRange td v = true ↔
      if td.signed then (v.setWidth (8 * widthBytes td.width)).signExtend 64 ≠ v
      else 2 ^ (8 * widthBytes td.width) ≤ v.toNat := by
  rw [← Bool.not_eq_false, fieldOutOfRange_eq_false_iff]
  split
  · exact Iff.rfl
  · exact Nat.not_lt

/-- R116: extending the low bits of a value that the field holds gives the value back. -/
theorem fieldResult_of_inRange {v : DWord} (inRange : fieldOutOfRange td v = false) :
    fieldResult td (v.toNat % 256 ^ widthBytes td.width) = v := by
  have range := (fieldOutOfRange_eq_false_iff td v).mp inRange
  rw [show 256 ^ widthBytes td.width = 2 ^ (8 * widthBytes td.width) from (Nat.pow_mul 2 8 _).symm]
  cases signed : td.signed with
  | true =>
    rw [signed, if_pos rfl] at range
    rw [fieldResult, signed, if_pos rfl, sext64, ← BitVec.toNat_setWidth, BitVec.ofNat_toNat, BitVec.setWidth_eq, range]
  | false =>
    rw [signed, if_neg Bool.false_ne_true] at range
    rw [fieldResult, signed, if_neg Bool.false_ne_true, Nat.mod_eq_of_lt range, zext64, BitVec.ofNat_toNat,
      BitVec.setWidth_eq]

theorem decodeField_complete (s : State) (td : FieldDesc) (a : Nat) :
    decodeField (complete s) td a = decodeField s td a := decodeField_congr td fun x _ _ => bufByte_complete s x

/-- R116: a field that was just encoded decodes to the value's low bits, both copies of a dual field alike. -/
theorem decodeField_encodeField (assigned : td.policy ≠ .reserved) (s : State) (a : Nat) (v : DWord) :
    decodeField (memWrite s a (encodeField td v)) td a = some (v.toNat % 256 ^ widthBytes td.width) := by
  have written := memRead_memWrite_self s a (encodeField td v)
  rw [encodeField_length] at written
  by_cases dual : td.order = .dual
  · rw [fieldSize_dual dual, Nat.two_mul, memRead_append] at written
    obtain ⟨lo, hi⟩ := List.append_inj (written.trans (encodeField_dual dual v)) (by simp)
    rw [decodeField_dual dual, lo, hi, leNat_bytesLE, beNat_bytesBE, dualValue_self assigned]
  · rw [fieldSize_plain dual] at written
    rw [decodeField_plain dual, written, encodeField_plain dual, orderedNat_orderedBytes]

end Field

/-! ## The check phases (R112 to R115) -/

/-- A list of checks that goes on in another. -/
theorem firstError_append (cs ds : List (Bool × Err)) : firstError (cs ++ ds) = (firstError cs).or (firstError ds) := by
  induction cs with
  | nil => rfl
  | cons c cs ih =>
    obtain ⟨fails, e⟩ := c
    rw [List.cons_append, firstError_cons, firstError_cons, ih]
    split
    · rfl
    · rfl

/-- A command that ends without an error has passed its checks (R265, R266). -/
theorem checked_succeeds {checks : List (Bool × Err)} {s t : State} {op : State → State}
    (run : checked checks s op = .next t) (good : t.err = 0) : firstError checks = none ∧ t = op s := by
  obtain ⟨e, -, rfl⟩ | done := checked_next run
  · exact absurd good (errCode_ne_zero e)
  · exact done

/-- R112, R113: the first three checks of SC_DEC and SC_ENC, which differ in the error of a field that leaves its
region. -/
def fieldChecks (short : Err) (td : FieldDesc) (off : Half) (s : State) : List (Bool × Err) :=
  [ (tdIllegal td, .illegalCommand), (!regionInBounds (structRegion s), .bounds),
    (decide (f1 s.a0 < off.toNat + fieldSize td), short) ]

/-- R112: how SC_DEC ends on the value it decoded, or on copies that differ. -/
def scDecEnd (td : FieldDesc) (s : State) : Option Nat → State
  | some u => complete { s with res := fieldResult td u }
  | none => raiseErr .format s

theorem exec_scDec (td : FieldDesc) (off : Half) (s : State) :
    exec (.scDec td off) s =
      checked (fieldChecks .truncatedInput td off s) s fun s => scDecEnd td s (decodeField s td (fieldAddr s off)) := rfl

theorem exec_scEnc (td : FieldDesc) (off : Half) (s : State) :
    exec (.scEnc td off) s =
      checked (fieldChecks .bounds td off s ++ [(fieldOutOfRange td s.a1, .format)]) s fun s =>
        complete (memWrite s (fieldAddr s off) (encodeField td s.a1)) := rfl

/-- R114, R115: the checks of SC_ADEC and SC_AENC, which differ in the error of an array that leaves its region. -/
def arrayChecks (short : Err) (off : Half) (s : State) : List (Bool × Err) :=
  [ (!regionInBounds (structRegion s), .bounds), (!regionInBounds (arrayRegion s), .bounds),
    (decide (f1 s.a0 < off.toNat + f1 s.a1), short), (regionsOverlap (arrayField s off) (arrayRegion s), .bounds) ]

theorem exec_scAdec (off : Half) (s : State) :
    exec (.scAdec off) s =
      checked (arrayChecks .truncatedInput off s) s fun s =>
        complete (memWrite s (f0 s.a1) (regionRead s (arrayField s off))) := rfl

theorem exec_scAenc (off : Half) (s : State) :
    exec (.scAenc off) s =
      checked (arrayChecks .bounds off s) s fun s =>
        complete (memWrite s (fieldAddr s off) (regionRead s (arrayRegion s))) := rfl

/-- A legal field inside its struct region, which lies in BUF (R110, R112, R113). -/
structure FieldFits (s : State) (td : FieldDesc) (off : Half) : Prop where
  legal : td.wellFormed = true
  struct : f0 s.a0 + f1 s.a0 ≤ 65536
  field : off.toNat + fieldSize td ≤ f1 s.a0

/-- An array inside its struct region, and the other region of the copy, both in BUF and apart (R114, R115). -/
structure ArrayFits (s : State) (off : Half) : Prop where
  struct : f0 s.a0 + f1 s.a0 ≤ 65536
  array : f0 s.a1 + f1 s.a1 ≤ 65536
  field : off.toNat + f1 s.a1 ≤ f1 s.a0
  apart : ∀ x, ¬ ((arrayField s off).has x ∧ (arrayRegion s).has x)

/-- The checks of SC_DEC and SC_ENC pass exactly on a field that fits. -/
theorem firstError_fieldChecks_none_iff (short : Err) (td : FieldDesc) (off : Half) (s : State) :
    firstError (fieldChecks short td off s) = none ↔ FieldFits s td off := by
  have checks : firstError (fieldChecks short td off s) = none ↔
      td.wellFormed = true ∧ f0 s.a0 + f1 s.a0 ≤ 65536 ∧ off.toNat + fieldSize td ≤ f1 s.a0 := by
    simp [firstError_none_iff, fieldChecks, tdIllegal_eq_not_wellFormed, regionInBounds_iff, structRegion]
  exact checks.trans ⟨fun ⟨legal, struct, field⟩ => ⟨legal, struct, field⟩,
    fun ⟨legal, struct, field⟩ => ⟨legal, struct, field⟩⟩

/-- The checks of SC_ADEC and SC_AENC pass exactly on arrays that fit. -/
theorem firstError_arrayChecks_none_iff (short : Err) (off : Half) (s : State) :
    firstError (arrayChecks short off s) = none ↔ ArrayFits s off := by
  have apart : regionsOverlap (arrayField s off) (arrayRegion s) = false ↔
      ∀ x, ¬ ((arrayField s off).has x ∧ (arrayRegion s).has x) := by
    rw [← Bool.not_eq_true, regionsOverlap_iff, not_exists]
    rfl
  have checks : firstError (arrayChecks short off s) = none ↔
      f0 s.a0 + f1 s.a0 ≤ 65536 ∧ f0 s.a1 + f1 s.a1 ≤ 65536 ∧ off.toNat + f1 s.a1 ≤ f1 s.a0
        ∧ ∀ x, ¬ ((arrayField s off).has x ∧ (arrayRegion s).has x) := by
    simp only [firstError_none_iff, arrayChecks, List.forall_mem_cons, Bool.not_eq_false', regionInBounds_iff,
      decide_eq_false_iff_not, Nat.not_lt, apart]
    simp [structRegion, arrayRegion]
  exact checks.trans ⟨fun ⟨struct, array, field, apart⟩ => ⟨struct, array, field, apart⟩,
    fun ⟨struct, array, field, apart⟩ => ⟨struct, array, field, apart⟩⟩

/-! ## The commands past their checks -/

section Commands

variable {s : State} {td : FieldDesc} {off : Half}

theorem exec_scDec_of_fits (fits : FieldFits s td off) :
    exec (.scDec td off) s = .next (scDecEnd td s (decodeField s td (fieldAddr s off))) := by
  rw [exec_scDec]
  exact checked_of_none ((firstError_fieldChecks_none_iff _ td off s).mpr fits) s _

theorem exec_scEnc_of_fits (fits : FieldFits s td off) (inRange : fieldOutOfRange td s.a1 = false) :
    exec (.scEnc td off) s = .next (complete (memWrite s (fieldAddr s off) (encodeField td s.a1))) := by
  have passed := (firstError_fieldChecks_none_iff .bounds td off s).mpr fits
  rw [exec_scEnc]
  refine checked_of_none ?_ s _
  rw [firstError_append, passed, firstError_cons_of_pass inRange]
  rfl

theorem exec_scAdec_of_fits (fits : ArrayFits s off) :
    exec (.scAdec off) s = .next (complete (memWrite s (f0 s.a1) (regionRead s (arrayField s off)))) := by
  rw [exec_scAdec]
  exact checked_of_none ((firstError_arrayChecks_none_iff _ off s).mpr fits) s _

theorem exec_scAenc_of_fits (fits : ArrayFits s off) :
    exec (.scAenc off) s = .next (complete (memWrite s (fieldAddr s off) (regionRead s (arrayRegion s)))) := by
  rw [exec_scAenc]
  exact checked_of_none ((firstError_arrayChecks_none_iff _ off s).mpr fits) s _

end Commands

/-! ## Round trips (R116) -/

section RoundTrips

variable {s t : State} {td : FieldDesc} {off : Half}

theorem policy_assigned_of_legal (legal : td.wellFormed = true) : td.policy ≠ .reserved := by
  intro reserved
  simp [FieldDesc.wellFormed, FieldDesc.policyAssigned, reserved] at legal

/-- R116: SC_DEC of the field that SC_ENC just stored. -/
theorem exec_scDec_encoded (fits : FieldFits s td off) (inRange : fieldOutOfRange td s.a1 = false)
    (stored : t = complete (memWrite s (fieldAddr s off) (encodeField td s.a1))) :
    exec (.scDec td off) t = .next (complete { t with res := s.a1 }) := by
  have a0 : t.a0 = s.a0 := by rw [stored, complete_a0, memWrite_a0]
  have fits' : FieldFits t td off := ⟨fits.legal, a0 ▸ fits.struct, a0 ▸ fits.field⟩
  have value : decodeField t td (fieldAddr t off) = some (s.a1.toNat % 256 ^ widthBytes td.width) := by
    rw [show fieldAddr t off = fieldAddr s off by rw [fieldAddr, fieldAddr, a0], stored, decodeField_complete]
    exact decodeField_encodeField (policy_assigned_of_legal fits.legal) s _ s.a1
  rw [exec_scDec_of_fits fits', value, scDecEnd, fieldResult_of_inRange inRange]

/-- R74: a legal dual descriptor is legal under each assigned policy. -/
theorem legal_with_policy (legal : td.wellFormed = true) (dual : td.order = .dual) {p : DualPolicy}
    (assigned : p ≠ .reserved) : FieldDesc.wellFormed { td with policy := p } = true := by
  simp only [FieldDesc.wellFormed, FieldDesc.topClear, FieldDesc.policyAssigned, FieldDesc.policyOnlyDual,
    FieldDesc.dualWide, Bool.and_eq_true] at legal ⊢
  obtain ⟨⟨⟨top, -⟩, -⟩, wide⟩ := legal
  exact ⟨⟨⟨top, decide_eq_true assigned⟩, by simp [dual]⟩, wide⟩

/-- R115: an SC_AENC that ends without an error found arrays that fit, and copied. -/
theorem scAenc_succeeds (run : exec (.scAenc off) s = .next t) (good : t.err = 0) :
    ArrayFits s off ∧ t = complete (memWrite s (fieldAddr s off) (regionRead s (arrayRegion s))) := by
  rw [exec_scAenc] at run
  obtain ⟨passed, copied⟩ := checked_succeeds run good
  exact ⟨(firstError_arrayChecks_none_iff _ off s).mp passed, copied⟩

/-- R114: an SC_ADEC that ends without an error found arrays that fit, and copied. -/
theorem scAdec_succeeds (run : exec (.scAdec off) s = .next t) (good : t.err = 0) :
    ArrayFits s off ∧ t = complete (memWrite s (f0 s.a1) (regionRead s (arrayField s off))) := by
  rw [exec_scAdec] at run
  obtain ⟨passed, copied⟩ := checked_succeeds run good
  exact ⟨(firstError_arrayChecks_none_iff _ off s).mp passed, copied⟩

theorem memRead_complete (s : State) (a n : Nat) : memRead (complete s) a n = memRead s a n :=
  memRead_congr fun x _ _ => bufByte_complete s x

/-- A region just written reads back, whatever the command does to the registers. -/
theorem memRead_complete_memWrite (s : State) (a : Nat) {bs : List Byte} {n : Nat} (length : bs.length = n) :
    memRead (complete (memWrite s a bs)) a n = bs := by
  subst length
  exact (memRead_complete _ _ _).trans (memRead_memWrite_self s a bs)

/-- R114: the destination of an SC_ADEC that succeeded holds the field's bytes. -/
theorem memRead_of_scAdec (run : exec (.scAdec off) s = .next t) (good : t.err = 0) :
    memRead t (f0 s.a1) (f1 s.a1) = regionRead s (arrayField s off) := by
  rw [(scAdec_succeeds run good).2]
  exact memRead_complete_memWrite s _ (regionRead_length _ _)

/-- R115: the field of an SC_AENC that succeeded holds the source's bytes. -/
theorem memRead_of_scAenc (run : exec (.scAenc off) s = .next t) (good : t.err = 0) :
    memRead t (fieldAddr s off) (f1 s.a1) = regionRead s (arrayRegion s) := by
  rw [(scAenc_succeeds run good).2]
  exact memRead_complete_memWrite s _ (regionRead_length _ _)

end RoundTrips

/-- Settles O30: both copies of an encoded field decode to the value's low bits, which extend to the value; an array's bytes
are read where they were stored. -/
theorem structFieldsRoundTrip : Obligations.StructFieldsRoundTrip := by
  refine ⟨fun s td off legal struct field inRange => ?field, fun s t u off x run good length run' good' => ?array⟩
  case field =>
    have fits : FieldFits s td off := ⟨legal, struct, field⟩
    refine ⟨_, _, exec_scEnc_of_fits fits inRange, exec_scDec_encoded fits inRange rfl, rfl, rfl,
      fun p dual assigned => ?_⟩
    have fits' : FieldFits s { td with policy := p } off := ⟨legal_with_policy legal dual assigned, struct, field⟩
    exact ⟨_, exec_scDec_encoded fits' inRange rfl, rfl, rfl⟩
  case array =>
    have a0 : t.a0 = s.a0 := (exec_updates run).keepsOthers.a0
    have source : regionRead { t with a1 := x } (arrayField { t with a1 := x } off)
        = memRead t (fieldAddr s off) (f1 s.a1) := by
      simp only [regionRead, arrayField, fieldAddr, a0, length]
      exact memRead_congr fun _ _ _ => rfl
    exact (memRead_of_scAdec run' good').trans (source.trans (memRead_of_scAenc run good))

/-! ## Decoding one field (R112) -/

/-- Settles O25: past the checks, the field's bytes in its order. -/
theorem scDecReadsAPlainField : Obligations.ScDecReadsAPlainField := by
  intro s td off n a legal plain struct field
  have fits : FieldFits s td off := ⟨legal, struct, (fieldSize_plain plain).symm ▸ field⟩
  have value : decodeField s td a = some (orderedNat (fieldByteOrder td.order) (memRead s a n)) :=
    decodeField_plain plain s a
  refine ⟨orderedNat (fieldByteOrder td.order) (memRead s a n), ?run, fun little => ?little, fun big => ?big⟩
  case run =>
    rw [exec_scDec_of_fits fits, value]
    rfl
  case little =>
    rw [fieldByteOrder_of_little little]
    exact leNat_memRead s a n
  case big =>
    rw [fieldByteOrder_of_big big]
    exact beNat_memRead s a n

/-- Settles O26: past the checks, the two copies under the field's policy. -/
theorem scDecTreatsADualFieldByItsPolicy : Obligations.ScDecTreatsADualFieldByItsPolicy := by
  intro s td off
  dsimp only
  rw [← leNat_memRead, ← beNat_memRead]
  intro legal dual struct field
  have fits : FieldFits s td off := ⟨legal, struct, (fieldSize_dual dual).symm ▸ field⟩
  rw [exec_scDec_of_fits fits, decodeField_dual dual]
  refine ⟨fun policy same => ?agree, fun policy differ => ?differ, fun policy => ?little, fun policy => ?big⟩
  case agree =>
    rw [policy, dualValue, if_pos same]
    rfl
  case differ =>
    rw [policy, dualValue, if_neg differ]
    rfl
  case little | big =>
    rw [policy]
    rfl

/-! ## Encoding one field (R113) -/

/-- Settles O27: the bytes of the value where the law of BUF says, in the order of the field. -/
theorem scEncStoresTheField : Obligations.ScEncStoresTheField := by
  intro s td off n a legal struct field range
  have inRange := (fieldOutOfRange_eq_false_iff td s.a1).mpr range
  have stored : ∀ i < fieldSize td,
      bufByte (complete (memWrite s a (encodeField td s.a1))) (a + i) = (encodeField td s.a1).getD i 0 := by
    intro i inside
    rw [bufByte_complete, bufByte_memWrite, encodeField_length, if_pos (by omega), Nat.add_sub_cancel_left]
  refine ⟨_, exec_scEnc_of_fits ⟨legal, struct, field⟩ inRange, rfl, fun x outside => ?kept,
    fun little i inside => ?first, fun big i inside => ?big, fun dual i inside => ?second⟩
  case kept =>
    rw [bufByte_complete, bufByte_memWrite, encodeField_length]
    exact if_neg outside
  case first =>
    by_cases dual : td.order = .dual
    · rw [stored i (by rw [fieldSize_dual dual]; omega), encodeField_dual dual,
        List.getD_append _ _ _ _ (by rwa [bytesLE_length])]
      exact bytesLE_getD_extract s.a1 inside
    · have order := fieldByteOrder_of_little (little.imp_right (Or.resolve_left · dual))
      rw [stored i (by rwa [fieldSize_plain dual]), encodeField_plain dual, order]
      exact bytesLE_getD_extract s.a1 inside
  case big =>
    have plain : td.order ≠ .dual := by
      intro dual
      simp [dual] at big
    rw [stored i (by rwa [fieldSize_plain plain]), encodeField_plain plain, fieldByteOrder_of_big big]
    exact bytesBE_getD_extract s.a1 inside
  case second =>
    rw [Nat.add_assoc, stored (n + i) (by rw [fieldSize_dual dual]; omega), encodeField_dual dual,
      List.getD_append_right _ _ _ _ (by rw [bytesLE_length]; omega), bytesLE_length, Nat.add_sub_cancel_left]
    exact bytesBE_getD_extract s.a1 inside

/-! ## The errors of the check phases (R112 to R115) -/

section Errors

variable {s : State} {td : FieldDesc} {off : Half} {e : Err}

theorem scDec_raises (first : firstError (fieldChecks .truncatedInput td off s) = some e) :
    exec (.scDec td off) s = .next (raiseErr e s) := by
  rw [exec_scDec]
  exact checked_of_some first s _

theorem scEnc_raises (first : firstError (fieldChecks .bounds td off s) = some e) :
    exec (.scEnc td off) s = .next (raiseErr e s) := by
  rw [exec_scEnc]
  refine checked_of_some ?_ s _
  rw [firstError_append, first]
  rfl

/-- R113 check 4: the range is looked at last. -/
theorem scEnc_raises_format (fits : FieldFits s td off) (outOfRange : fieldOutOfRange td s.a1 = true) :
    exec (.scEnc td off) s = .next (raiseErr .format s) := by
  rw [exec_scEnc]
  refine checked_of_some ?_ s _
  rw [firstError_append, (firstError_fieldChecks_none_iff _ td off s).mpr fits]
  exact firstError_cons_of_fail outOfRange _ _

theorem scAdec_raises (first : firstError (arrayChecks .truncatedInput off s) = some e) :
    exec (.scAdec off) s = .next (raiseErr e s) := by
  rw [exec_scAdec]
  exact checked_of_some first s _

theorem scAenc_raises (first : firstError (arrayChecks .bounds off s) = some e) :
    exec (.scAenc off) s = .next (raiseErr e s) := by
  rw [exec_scAenc]
  exact checked_of_some first s _

/-- A region's check fails where the region leaves BUF (R13). -/
theorem boundsCheck_fails {r : Region} (outside : 65536 < r.base + r.len) : (!regionInBounds r) = true := by
  rw [(regionInBounds_eq_false_iff r).mpr outside]
  rfl

/-- A region's check passes where the region lies in BUF (R13). -/
theorem boundsCheck_passes {r : Region} (inside : r.base + r.len ≤ 65536) : (!regionInBounds r) = false := by
  rw [(regionInBounds_iff r).mpr inside]
  rfl

theorem tdIllegal_of_wellFormed (legal : td.wellFormed = true) : tdIllegal td = false := by
  rw [tdIllegal_eq_not_wellFormed, legal]
  rfl

theorem fieldChecks_outside (short : Err) (legal : td.wellFormed = true) (outside : 65536 < f0 s.a0 + f1 s.a0) :
    firstError (fieldChecks short td off s) = some .bounds := by
  rw [fieldChecks, firstError_cons_of_pass (tdIllegal_of_wellFormed legal)]
  exact firstError_cons_of_fail (boundsCheck_fails (r := structRegion s) outside) _ _

theorem fieldChecks_short (short : Err) (legal : td.wellFormed = true) (struct : f0 s.a0 + f1 s.a0 ≤ 65536)
    (beyond : f1 s.a0 < off.toNat + fieldSize td) : firstError (fieldChecks short td off s) = some short := by
  rw [fieldChecks, firstError_cons_of_pass (tdIllegal_of_wellFormed legal),
    firstError_cons_of_pass (boundsCheck_passes (r := structRegion s) struct)]
  exact firstError_cons_of_fail (decide_eq_true beyond) _ _

theorem arrayChecks_outside (short : Err) (outside : 65536 < f0 s.a0 + f1 s.a0) :
    firstError (arrayChecks short off s) = some .bounds :=
  firstError_cons_of_fail (boundsCheck_fails (r := structRegion s) outside) _ _

theorem arrayChecks_arrayOutside (short : Err) (struct : f0 s.a0 + f1 s.a0 ≤ 65536)
    (outside : 65536 < f0 s.a1 + f1 s.a1) : firstError (arrayChecks short off s) = some .bounds := by
  rw [arrayChecks, firstError_cons_of_pass (boundsCheck_passes (r := structRegion s) struct)]
  exact firstError_cons_of_fail (boundsCheck_fails (r := arrayRegion s) outside) _ _

/-- Past both regions' checks, what is left is the field's end and the overlap. -/
theorem arrayChecks_inside (short : Err) (struct : f0 s.a0 + f1 s.a0 ≤ 65536) (array : f0 s.a1 + f1 s.a1 ≤ 65536) :
    firstError (arrayChecks short off s) = firstError
      [ (decide (f1 s.a0 < off.toNat + f1 s.a1), short),
        (regionsOverlap (arrayField s off) (arrayRegion s), .bounds) ] := by
  rw [arrayChecks, firstError_cons_of_pass (boundsCheck_passes (r := structRegion s) struct),
    firstError_cons_of_pass (boundsCheck_passes (r := arrayRegion s) array)]

theorem arrayChecks_short (short : Err) (struct : f0 s.a0 + f1 s.a0 ≤ 65536) (array : f0 s.a1 + f1 s.a1 ≤ 65536)
    (beyond : f1 s.a0 < off.toNat + f1 s.a1) : firstError (arrayChecks short off s) = some short := by
  rw [arrayChecks_inside short struct array]
  exact firstError_cons_of_fail (decide_eq_true beyond) _ _

theorem arrayChecks_overlap (short : Err) (struct : f0 s.a0 + f1 s.a0 ≤ 65536) (array : f0 s.a1 + f1 s.a1 ≤ 65536)
    (field : off.toNat + f1 s.a1 ≤ f1 s.a0) (shared : ∃ x, (arrayField s off).has x ∧ (arrayRegion s).has x) :
    firstError (arrayChecks short off s) = some .bounds := by
  rw [arrayChecks_inside short struct array, firstError_cons_of_pass (decide_eq_false (Nat.not_lt_of_le field))]
  exact firstError_cons_of_fail ((regionsOverlap_iff _ _).mpr shared) _ _

end Errors

/-- Settles O28: each clause is the first failing check of its command. -/
theorem structCommandsCheckInOrder : Obligations.StructCommandsCheckInOrder := by
  intro s td off illegal outside short
  refine ⟨fun illFormed => ?illegal, fun beyond => ?outside, fun struct => ⟨fun legal beyond => ?short,
    fun legal field range => ?range, fun beyond => ?arrayOutside, fun array beyond => ?arrayShort,
    fun array field shared => ?overlap⟩⟩
  case illegal =>
    exact ⟨exec_of_not_wellFormed (i := .scDec td off) illFormed s,
      exec_of_not_wellFormed (i := .scEnc td off) illFormed s⟩
  case outside =>
    exact ⟨fun legal => ⟨scDec_raises (fieldChecks_outside _ legal beyond),
        scEnc_raises (fieldChecks_outside _ legal beyond)⟩,
      scAdec_raises (arrayChecks_outside _ beyond), scAenc_raises (arrayChecks_outside _ beyond)⟩
  case short =>
    exact ⟨scDec_raises (fieldChecks_short _ legal struct beyond),
      scEnc_raises (fieldChecks_short _ legal struct beyond)⟩
  case range => exact scEnc_raises_format ⟨legal, struct, field⟩ ((fieldOutOfRange_eq_true_iff td s.a1).mpr range)
  case arrayOutside =>
    exact ⟨scAdec_raises (arrayChecks_arrayOutside _ struct beyond),
      scAenc_raises (arrayChecks_arrayOutside _ struct beyond)⟩
  case arrayShort =>
    exact ⟨scAdec_raises (arrayChecks_short _ struct array beyond),
      scAenc_raises (arrayChecks_short _ struct array beyond)⟩
  case overlap =>
    exact ⟨scAdec_raises (arrayChecks_overlap _ struct array field shared),
      scAenc_raises (arrayChecks_overlap _ struct array field shared)⟩

/-! ## Copies (R114, R115) -/

theorem bufByte_copied (s : State) (dst : Nat) (src : Region) {i : Nat} (inside : i < src.len) :
    bufByte (complete (memWrite s dst (regionRead s src))) (dst + i) = bufByte s (src.base + i) := by
  rw [bufByte_complete, bufByte_memWrite, regionRead_length, if_pos (by omega), Nat.add_sub_cancel_left, regionRead,
    List.getD_eq_getElem?_getD, memRead_getElem?, if_pos inside]
  rfl

theorem bufByte_outside_copy (s : State) (src : Region) {dst x : Nat} (outside : ¬ (⟨dst, src.len⟩ : Region).has x) :
    bufByte (complete (memWrite s dst (regionRead s src))) x = bufByte s x := by
  rw [bufByte_complete, bufByte_memWrite, regionRead_length]
  exact if_neg outside

/-! ## The order of the fields (R111) -/

/-- Two runs of the same checks both raise the first that fails, or both go on (R266). -/
theorem checked_next_both {checks : List (Bool × Err)} {s t u v : State} {op op' : State → State}
    (run : checked checks s op = .next u) (run' : checked checks t op' = .next v) :
    (∃ e, u = raiseErr e s ∧ v = raiseErr e t) ∨ (firstError checks = none ∧ u = op s ∧ v = op' t) := by
  obtain ⟨e, fails, rfl⟩ | ⟨passed, rfl⟩ := checked_next run
  · rw [checked_of_some fails] at run'
    exact .inl ⟨e, rfl, (Host.Outcome.next.inj run').symm⟩
  · rw [checked_of_none passed] at run'
    exact .inr ⟨passed, rfl, (Host.Outcome.next.inj run').symm⟩

/-- The states share A0, and the bytes of the struct region that it names. -/
structure SameStruct (s t : State) : Prop where
  a0 : t.a0 = s.a0
  bytes : ∀ a, (structRegion s).has a → bufByte t a = bufByte s a

section SameStruct

variable {s t u v : State} {td : FieldDesc} {off : Half}

theorem SameStruct.fieldChecks_eq (same : SameStruct s t) (short : Err) :
    fieldChecks short td off t = fieldChecks short td off s := by
  simp only [fieldChecks, structRegion, same.a0]

theorem SameStruct.decodeField_eq (same : SameStruct s t) (fits : FieldFits s td off) :
    decodeField t td (fieldAddr t off) = decodeField s td (fieldAddr s off) := by
  have inside := fits.field
  have addr : fieldAddr t off = fieldAddr s off := by rw [fieldAddr, fieldAddr, same.a0]
  rw [addr]
  refine decodeField_congr td fun x low high => same.bytes x ?_
  simp only [fieldAddr] at low high
  simp only [Region.has, structRegion]
  omega

/-- R111: a field decodes alike where the struct region is the same. -/
theorem SameStruct.scDec_alike (same : SameStruct s t) (run : exec (.scDec td off) s = .next u)
    (run' : exec (.scDec td off) t = .next v) : v.err = u.err ∧ (u.err = 0 → v.res = u.res) := by
  rw [exec_scDec] at run run'
  rw [same.fieldChecks_eq] at run'
  obtain ⟨e, rfl, rfl⟩ | ⟨passed, rfl, rfl⟩ := checked_next_both run run'
  · exact ⟨rfl, fun good => absurd good (errCode_ne_zero e)⟩
  · rw [same.decodeField_eq ((firstError_fieldChecks_none_iff _ td off s).mp passed)]
    cases decodeField s td (fieldAddr s off) with
    | some value => exact ⟨rfl, fun _ => rfl⟩
    | none => exact ⟨rfl, fun good => absurd good (errCode_ne_zero .format)⟩

/-- R111: so does an array, with the same A1. -/
theorem SameStruct.scAdec_alike (same : SameStruct s t) (a1 : t.a1 = s.a1) (run : exec (.scAdec off) s = .next u)
    (run' : exec (.scAdec off) t = .next v) :
    v.err = u.err ∧ (u.err = 0 → memRead v (f0 s.a1) (f1 s.a1) = memRead u (f0 s.a1) (f1 s.a1)) := by
  have field : arrayField t off = arrayField s off := by simp only [arrayField, fieldAddr, same.a0, a1]
  have checks : arrayChecks .truncatedInput off t = arrayChecks .truncatedInput off s := by
    simp only [arrayChecks, structRegion, arrayRegion, field, same.a0, a1]
  have err : v.err = u.err := by
    rw [exec_scAdec] at run run'
    rw [checks] at run'
    obtain ⟨e, rfl, rfl⟩ | ⟨-, rfl, rfl⟩ := checked_next_both run run'
    · rfl
    · rfl
  refine ⟨err, fun good => ?_⟩
  have inside := (scAdec_succeeds run good).1.field
  have copied := memRead_of_scAdec run' (err.trans good)
  rw [a1, field] at copied
  rw [memRead_of_scAdec run good, copied]
  refine memRead_congr fun x low high => same.bytes x ?_
  simp only [arrayField, fieldAddr] at low high
  simp only [Region.has, structRegion]
  omega

end SameStruct

/-- R111: a decoding command that writes outside the struct region leaves it the same. -/
theorem sameStruct_of_decode {i : Instr} {s t : State} (run : exec i s = .next t)
    (apart : ∀ a, ¬ ((structRegion s).has a ∧ (writeRegion i s).has a)) : SameStruct s t where
  a0 := (exec_updates run).keepsOthers.a0
  bytes a inside := by_contra fun changed => apart a ⟨inside, (commandsWriteInsideTheirRegion i s t a run changed).1⟩

/-! ## Sub-structs (R111) -/

/-- Where the checks are the same and the operation commutes with a change of the registers, the command does. -/
theorem checked_commutes {checks : List (Bool × Err)} {s : State} {op op' : State → State} (f : State → State)
    (raises : ∀ e, raiseErr e (f s) = f (raiseErr e s)) (runs : firstError checks = none → op' (f s) = f (op s)) :
    ∃ u, checked checks s op = .next u ∧ checked checks (f s) op' = .next (f u) := by
  cases first : firstError checks with
  | some e => exact ⟨_, checked_of_some first s op, (checked_of_some first (f s) op').trans (by rw [raises])⟩
  | none => exact ⟨_, checked_of_none first s op, (checked_of_none first (f s) op').trans (by rw [runs first])⟩

/-- `y` names the sub-struct at offset `o` of the struct that A0 names, and `size` bytes at `off` lie inside it. -/
structure SubField (s : State) (y : DWord) (o : Nat) (off : Half) (size : Nat) : Prop where
  struct : f0 s.a0 + f1 s.a0 ≤ 65536
  base : f0 y = f0 s.a0 + o
  inner : o + f1 y ≤ f1 s.a0
  field : off.toNat + size ≤ f1 y

section SubField

variable {s : State} {y : DWord} {o size : Nat} {off : Half}

/-- The offset in the whole struct does not wrap. -/
theorem SubField.toNat_off (sub : SubField s y o off size) :
    (BitVec.ofNat 16 (o + off.toNat)).toNat = o + off.toNat := by
  obtain ⟨-, -, inner, field⟩ := sub
  have := f1_lt s.a0
  rw [BitVec.toNat_ofNat]
  exact Nat.mod_eq_of_lt (by omega)

theorem SubField.fieldAddr_eq (sub : SubField s y o off size) :
    fieldAddr { s with a0 := y } off = fieldAddr s (BitVec.ofNat 16 (o + off.toNat)) := by
  rw [fieldAddr, fieldAddr, sub.toNat_off, ← Nat.add_assoc, ← sub.base]

theorem SubField.struct_passes (sub : SubField s y o off size) : (!regionInBounds (structRegion s)) = false :=
  boundsCheck_passes sub.struct

/-- The sub-struct lies in BUF, as the struct around it does. -/
theorem SubField.nested_passes (sub : SubField s y o off size) :
    (!regionInBounds (structRegion { s with a0 := y })) = false := by
  obtain ⟨struct, base, inner, -⟩ := sub
  exact boundsCheck_passes (show f0 y + f1 y ≤ 65536 by omega)

/-- The field lies in the struct around the sub-struct. -/
theorem SubField.field_inside (sub : SubField s y o off size) : o + off.toNat + size ≤ f1 s.a0 := by
  obtain ⟨-, -, inner, field⟩ := sub
  omega

/-- R111: a field of a sub-struct passes the checks as the same field of the struct does. -/
theorem SubField.fieldChecks_eq {td : FieldDesc} (sub : SubField s y o off (fieldSize td)) (short : Err) :
    fieldChecks short td off { s with a0 := y } = fieldChecks short td (BitVec.ofNat 16 (o + off.toNat)) s := by
  simp only [fieldChecks, sub.struct_passes, sub.nested_passes, sub.toNat_off,
    Nat.not_lt_of_le sub.field, Nat.not_lt_of_le sub.field_inside]

theorem SubField.arrayField_eq (sub : SubField s y o off (f1 s.a1)) :
    arrayField { s with a0 := y } off = arrayField s (BitVec.ofNat 16 (o + off.toNat)) := by
  rw [arrayField, arrayField, sub.fieldAddr_eq]

/-- R111: so does an array. -/
theorem SubField.arrayChecks_eq (sub : SubField s y o off (f1 s.a1)) (short : Err) :
    arrayChecks short off { s with a0 := y } = arrayChecks short (BitVec.ofNat 16 (o + off.toNat)) s := by
  have array : arrayRegion { s with a0 := y } = arrayRegion s := rfl
  simp only [arrayChecks, sub.struct_passes, sub.nested_passes, sub.toNat_off, array, sub.arrayField_eq,
    Nat.not_lt_of_le sub.field, Nat.not_lt_of_le sub.field_inside]

/-- R111: SC_DEC of a field of a sub-struct is SC_DEC of that field of the struct. -/
theorem SubField.scDec {td : FieldDesc} (sub : SubField s y o off (fieldSize td)) :
    ∃ u, exec (.scDec td (BitVec.ofNat 16 (o + off.toNat))) s = .next u
      ∧ exec (.scDec td off) { s with a0 := y } = .next { u with a0 := y } := by
  rw [exec_scDec, exec_scDec, sub.fieldChecks_eq]
  refine checked_commutes (fun x => { x with a0 := y }) (fun _ => rfl) fun _ => ?_
  have value : decodeField { s with a0 := y } td (fieldAddr { s with a0 := y } off)
      = decodeField s td (fieldAddr s (BitVec.ofNat 16 (o + off.toNat))) := by
    rw [sub.fieldAddr_eq]
    exact decodeField_congr td fun _ _ _ => rfl
  rw [value]
  cases decodeField s td (fieldAddr s (BitVec.ofNat 16 (o + off.toNat))) with
  | some u => rfl
  | none => rfl

/-- R111: so it is for SC_ADEC. -/
theorem SubField.scAdec (sub : SubField s y o off (f1 s.a1)) :
    ∃ u, exec (.scAdec (BitVec.ofNat 16 (o + off.toNat))) s = .next u
      ∧ exec (.scAdec off) { s with a0 := y } = .next { u with a0 := y } := by
  rw [exec_scAdec, exec_scAdec, sub.arrayChecks_eq]
  refine checked_commutes (fun x => { x with a0 := y }) (fun _ => rfl) fun _ => ?_
  have source : regionRead { s with a0 := y } (arrayField { s with a0 := y } off)
      = regionRead s (arrayField s (BitVec.ofNat 16 (o + off.toNat))) := by
    rw [sub.arrayField_eq]
    exact memRead_congr fun _ _ _ => rfl
  rw [source]
  rfl

end SubField

/-- Settles O29: the copies by the law of BUF, the order of the fields by the struct region they leave the same, and
sub-structs by the address that the two offsets share. -/
theorem arrayCommandsCopyTheBytes : Obligations.ArrayCommandsCopyTheBytes := by
  refine ⟨fun s off struct array field apart => ?copies, fun i s t x decodes run => ?order,
    fun s y td o off => ?nested⟩
  case copies =>
    have fits : ArrayFits s off := ⟨struct, array, field, apart⟩
    exact ⟨⟨_, exec_scAdec_of_fits fits, rfl, fun i inside => bufByte_copied s _ (arrayField s off) inside,
        fun x outside => bufByte_outside_copy s (arrayField s off) outside⟩,
      ⟨_, exec_scAenc_of_fits fits, rfl, fun i inside => bufByte_copied s _ (arrayRegion s) inside,
        fun x outside => bufByte_outside_copy s (arrayRegion s) outside⟩⟩
  case order =>
    have same : SameStruct s t := by
      refine sameStruct_of_decode run ?_
      obtain ⟨td, off, rfl⟩ | ⟨⟨off, rfl⟩, apart⟩ := decodes
      · exact fun a ⟨_, _, empty⟩ => absurd empty (Nat.not_lt_zero a)
      · exact apart
    have same' : SameStruct { s with a1 := x } { t with a1 := x } := ⟨same.a0, same.bytes⟩
    exact ⟨same.bytes, fun td off u v => same.scDec_alike, fun off u v => same'.scAdec_alike rfl⟩
  case nested =>
    intro whole struct base inner
    exact ⟨fun field => SubField.scDec ⟨struct, base, inner, field⟩,
      fun field => SubField.scAdec ⟨struct, base, inner, field⟩⟩

end Sys2Proof.Proofs
end

-- ==== Proofs: the hash family (spec/42_md5.md, spec/43_sha1.md) ====
section
/-! PROOFS. The two hash cores (spec/42_md5.md, spec/43_sha1.md), whose shared part is proved once for any compression
function: what a push and an absorbed byte do, the message a core holds, and the padded message's hash. Then each command
past its checks, the compression functions in the rules' own form, and a message fed in pieces to any unit (R137, R153,
R175, R245). -/

namespace Sys2Proof.Proofs

open Sys2Proof Sys2Proof.Machine

/-! ## Absorbing bytes (R132, R133, R152, R153) -/

section Absorb

variable {χ : Type} (compress : χ → List Byte → χ)

/-- R132, R152: the byte goes to the end of the block buffer, whether or not it fills it. -/
theorem hashPush_blk (c : HashCore χ) (x : Byte) :
    (hashPush compress c x).blk = c.blk.set c.blkLen.val x c.blkLen.isLt := by
  by_cases full : c.blkLen.val = 63
  · rw [hashPush_full compress c x full]
  · rw [hashPush_partial compress c x full]

theorem toList_hashPush_blk (c : HashCore χ) (x : Byte) :
    (hashPush compress c x).blk.toList = c.blk.toList.set c.blkLen.val x := by
  rw [hashPush_blk, Vector.toList_set]

/-- A push neither reads nor writes the length. -/
theorem hashPush_with_len (c : HashCore χ) (n : DWord) (x : Byte) :
    hashPush compress { c with len := n } x = { hashPush compress c x with len := n } := by
  by_cases full : c.blkLen.val = 63
  · rw [hashPush_full compress c x full, hashPush_full compress { c with len := n } x full]
  · rw [hashPush_partial compress c x full, hashPush_partial compress { c with len := n } x full]

theorem foldl_hashPush_with_len (xs : List Byte) (c : HashCore χ) (n : DWord) :
    xs.foldl (hashPush compress) { c with len := n } = { xs.foldl (hashPush compress) c with len := n } := by
  induction xs generalizing c with
  | nil => rfl
  | cons x xs ih => rw [List.foldl_cons, List.foldl_cons, hashPush_with_len, ih]

theorem foldl_hashPush_len (xs : List Byte) (c : HashCore χ) : (xs.foldl (hashPush compress) c).len = c.len := by
  induction xs generalizing c with
  | nil => rfl
  | cons x xs ih => rw [List.foldl_cons, ih, hashPush_len]

theorem foldl_hashPush_done (xs : List Byte) (c : HashCore χ) : (xs.foldl (hashPush compress) c).done = c.done := by
  induction xs generalizing c with
  | nil => rfl
  | cons x xs ih => rw [List.foldl_cons, ih, hashPush_done]

theorem hashAbsorb_eq_push (c : HashCore χ) (x : Byte) :
    hashAbsorb compress c x = { hashPush compress c x with len := c.len + 8 } :=
  hashPush_with_len compress c (c.len + 8) x

/-- R133, R153: absorbing a sequence pushes its bytes and adds 8 bits for each to the length. -/
theorem hashAbsorbAll_eq_push (c : HashCore χ) (xs : List Byte) :
    hashAbsorbAll compress c xs
      = { xs.foldl (hashPush compress) c with len := c.len + BitVec.ofNat 64 (8 * xs.length) } := by
  induction xs generalizing c with
  | nil => simp [hashAbsorbAll]
  | cons x xs ih =>
    have counted : c.len + 8 + BitVec.ofNat 64 (8 * xs.length) = c.len + BitVec.ofNat 64 (8 * (x :: xs).length) := by
      rw [List.length_cons, Nat.mul_succ, Nat.add_comm, BitVec.ofNat_add, ← BitVec.add_assoc]
      rfl
    calc hashAbsorbAll compress c (x :: xs)
      _ = hashAbsorbAll compress (hashAbsorb compress c x) xs := rfl
      _ = _ := by rw [ih, hashAbsorb_eq_push, foldl_hashPush_with_len, List.foldl_cons, ← counted]

theorem hashAbsorbAll_len (c : HashCore χ) (xs : List Byte) :
    (hashAbsorbAll compress c xs).len = c.len + BitVec.ofNat 64 (8 * xs.length) := by
  rw [hashAbsorbAll_eq_push]

theorem hashAbsorbAll_done (c : HashCore χ) (xs : List Byte) : (hashAbsorbAll compress c xs).done = c.done := by
  rw [hashAbsorbAll_eq_push]
  exact foldl_hashPush_done compress xs c

theorem hashAbsorbAll_blkLen (c : HashCore χ) (xs : List Byte) :
    (hashAbsorbAll compress c xs).blkLen.val = (c.blkLen.val + xs.length) % 64 := by
  rw [hashAbsorbAll_eq_push]
  exact blkLen_foldl_hashPush compress c xs

theorem toList_hashAbsorb_blk (c : HashCore χ) (x : Byte) :
    (hashAbsorb compress c x).blk.toList = c.blk.toList.set c.blkLen.val x :=
  toList_hashPush_blk compress { c with len := c.len + 8 } x

/-- R132, R152: short of a full block, the chaining words stay. -/
theorem hashAbsorb_of_room {c : HashCore χ} (room : c.blkLen.val < 63) (x : Byte) :
    (hashAbsorb compress c x).chain = c.chain ∧ (hashAbsorb compress c x).blkLen.val = c.blkLen.val + 1 := by
  refine ⟨?_, by rw [hashAbsorb_blkLen, Nat.mod_eq_of_lt (by omega)]⟩
  rw [hashAbsorb_eq_push, hashPush_partial compress c x room.ne]

/-- R132, R152: the 64th byte compresses the block. -/
theorem hashAbsorb_of_last {c : HashCore χ} (last : c.blkLen.val = 63) (x : Byte) :
    (hashAbsorb compress c x).chain = compress c.chain (hashAbsorb compress c x).blk.toList
      ∧ (hashAbsorb compress c x).blkLen = 0 := by
  rw [hashAbsorb_eq_push, hashPush_full compress c x last]
  exact ⟨rfl, rfl⟩

end Absorb

/-! ## The blocks of a message (R130, R135, R150, R155) -/

/-- A block that the message already fills is not changed by a further byte. -/
theorem block_append_byte (l : List Byte) (x : Byte) {j : Nat} (full : j < l.length / 64) :
    ((l ++ [x]).drop (64 * j)).take 64 = (l.drop (64 * j)).take 64 := by
  rw [List.drop_append_of_le_length (by omega), List.take_append_of_le_length (by rw [List.length_drop]; omega)]

theorem map_block_append_byte (l : List Byte) (x : Byte) :
    ((List.range (l.length / 64)).map fun j => ((l ++ [x]).drop (64 * j)).take 64) = blocks64 l :=
  List.map_congr_left fun _ listed => block_append_byte l x (List.mem_range.mp listed)

theorem blocks64_append_of_room {l : List Byte} (room : l.length % 64 ≠ 63) (x : Byte) :
    blocks64 (l ++ [x]) = blocks64 l := by
  have count : (l ++ [x]).length / 64 = l.length / 64 := by rw [List.length_append, List.length_singleton]; omega
  rw [blocks64, count, map_block_append_byte]

theorem blocks64_append_of_last {l : List Byte} (last : l.length % 64 = 63) (x : Byte) :
    blocks64 (l ++ [x]) = blocks64 l ++ [l.drop (64 * (l.length / 64)) ++ [x]] := by
  have count : (l ++ [x]).length / 64 = l.length / 64 + 1 := by rw [List.length_append, List.length_singleton]; omega
  have block : ((l ++ [x]).drop (64 * (l.length / 64))).take 64 = l.drop (64 * (l.length / 64)) ++ [x] := by
    rw [List.drop_append_of_le_length (by omega)]
    exact List.take_of_length_le (by rw [List.length_append, List.length_drop, List.length_singleton]; omega)
  rw [blocks64, count, List.range_succ, List.map_append, map_block_append_byte, List.map_singleton, block]

/-- Setting the entry after the first n keeps them, and puts the new one behind them. -/
theorem take_succ_set {n : Nat} {l : List Byte} (inside : n < l.length) (x : Byte) :
    (l.set n x).take (n + 1) = l.take n ++ [x] := by
  rw [List.take_add_one, List.take_set_of_le (Nat.le_refl n), List.getElem?_set_self inside]
  rfl

/-- A core whose pushes since the chaining words `seed` are the bytes `l`: the whole blocks are compressed into the chaining
words, and the rest stands in the block buffer. -/
structure HoldsMessage {χ : Type} (compress : χ → List Byte → χ) (seed : χ) (l : List Byte) (c : HashCore χ) : Prop where
  chain : c.chain = (blocks64 l).foldl compress seed
  fill : c.blkLen.val = l.length % 64
  pending : c.blk.toList.take (l.length % 64) = l.drop (64 * (l.length / 64))

section Message

variable {χ : Type} {compress : χ → List Byte → χ} {seed : χ} {l : List Byte} {c : HashCore χ}

/-- R131, R151: a restarted core holds no byte. -/
theorem holdsMessage_restart (compress : χ → List Byte → χ) (seed : χ) (c : HashCore χ) :
    HoldsMessage compress seed [] (hashRestart seed c) where
  chain := rfl
  fill := rfl
  pending := rfl

/-- A push adds its byte to what the core holds. -/
theorem HoldsMessage.push (holds : HoldsMessage compress seed l c) (x : Byte) :
    HoldsMessage compress seed (l ++ [x]) (hashPush compress c x) := by
  obtain ⟨chain, fill, pending⟩ := holds
  have length : (l ++ [x]).length = l.length + 1 := by rw [List.length_append, List.length_singleton]
  have fill' : (hashPush compress c x).blkLen.val = (l ++ [x]).length % 64 := by
    rw [hashPush_blkLen, fill, length, Nat.mod_add_mod]
  have buffer : (hashPush compress c x).blk.toList.take (l.length % 64 + 1) = l.drop (64 * (l.length / 64)) ++ [x] := by
    rw [toList_hashPush_blk, fill, take_succ_set (by rw [Vector.length_toList]; omega), pending]
  by_cases last : l.length % 64 = 63
  · have whole : (c.blk.set c.blkLen.val x c.blkLen.isLt).toList = l.drop (64 * (l.length / 64)) ++ [x] := by
      rw [last, List.take_of_length_le (by rw [Vector.length_toList]), hashPush_blk] at buffer
      exact buffer
    have boundary : (l ++ [x]).length % 64 = 0 := by omega
    refine ⟨?_, fill', ?_⟩
    · rw [hashPush_full compress c x (fill.trans last), blocks64_append_of_last last, List.foldl_append, ← chain, whole]
      rfl
    · rw [boundary, List.take_zero, List.drop_of_length_le (by omega)]
  · refine ⟨?_, fill', ?_⟩
    · rw [hashPush_partial compress c x (by omega), blocks64_append_of_room last]
      exact chain
    · have next : (l ++ [x]).length % 64 = l.length % 64 + 1 := by omega
      have same : (l ++ [x]).length / 64 = l.length / 64 := by omega
      rw [next, same, buffer, List.drop_append_of_le_length (by omega)]

theorem HoldsMessage.pushAll (holds : HoldsMessage compress seed l c) (xs : List Byte) :
    HoldsMessage compress seed (l ++ xs) (xs.foldl (hashPush compress) c) := by
  induction xs generalizing l c with
  | nil => rwa [List.append_nil]
  | cons x xs ih =>
    rw [List.append_cons]
    exact ih (holds.push x)

theorem HoldsMessage.absorbAll (holds : HoldsMessage compress seed l c) (xs : List Byte) :
    HoldsMessage compress seed (l ++ xs) (hashAbsorbAll compress c xs) := by
  obtain ⟨chain, fill, pending⟩ := holds.pushAll xs
  rw [hashAbsorbAll_eq_push]
  exact ⟨chain, fill, pending⟩

/-- R135, R155: the padding that a core computes from its counters completes the message it has absorbed. -/
theorem append_hashPadding (compress : χ → List Byte → χ) (suffix : Nat → Nat → List Byte) (seed : χ) (c : HashCore χ)
    (m : List Byte) :
    m ++ hashPadding suffix (hashAbsorbAll compress (hashRestart seed c) m) = paddedMessage suffix m := by
  have fill : (hashAbsorbAll compress (hashRestart seed c) m).blkLen.val = m.length % 64 :=
    ((holdsMessage_restart compress seed c).absorbAll m).fill
  have len : (hashAbsorbAll compress (hashRestart seed c) m).len = BitVec.ofNat 64 (8 * m.length) := by
    rw [hashAbsorbAll_len]
    exact BitVec.zero_add _
  rw [hashPadding, fill, len, BitVec.toNat_ofNat, ← List.append_assoc, paddedMessage]

theorem hashFinish_of_running {suffix : Nat → Nat → List Byte} (running : c.done = false) :
    hashFinish compress suffix c = { hashPad compress suffix c with done := true } := by
  rw [hashFinish, if_neg (Bool.eq_false_iff.mp running)]

theorem hashFinish_of_done {suffix : Nat → Nat → List Byte} (done : c.done = true) :
    hashFinish compress suffix c = c := by
  rw [hashFinish, if_pos done]

theorem hashFinish_done (compress : χ → List Byte → χ) (suffix : Nat → Nat → List Byte) (c : HashCore χ) :
    (hashFinish compress suffix c).done = true := by
  by_cases done : c.done = true
  · rw [hashFinish_of_done done, done]
  · rw [hashFinish_of_running (Bool.eq_false_iff.mpr done)]

/-- R134, R135, R154, R155: what FINAL leaves in a core that was restarted and has absorbed `m`. -/
theorem hashFinish_of_message (compress : χ → List Byte → χ) {suffix : Nat → Nat → List Byte}
    (eight : ∀ v n, (suffix v n).length = n) (seed : χ) (c : HashCore χ) {d : HashCore χ} (m : List Byte)
    (finish : d = hashFinish compress suffix (hashAbsorbAll compress (hashRestart seed c) m)) :
    d.chain = hashMessage compress suffix seed m ∧ d.blkLen = 0 ∧ d.len = BitVec.ofNat 64 (8 * m.length) := by
  rw [hashFinish_of_running (hashAbsorbAll_done compress _ m)] at finish
  subst finish
  refine ⟨?_, blkLen_hashPad compress eight _, ?_⟩
  · have holds := ((holdsMessage_restart compress seed c).absorbAll m).pushAll
      (hashPadding suffix (hashAbsorbAll compress (hashRestart seed c) m))
    rw [List.nil_append, append_hashPadding] at holds
    exact holds.chain
  · exact (foldl_hashPush_len compress _ _).trans ((hashAbsorbAll_len compress _ m).trans (BitVec.zero_add _))

end Message

/-! ## The commands of the two cores -/

section Commands

variable {s : State}

theorem exec_md5Reset (s : State) : exec .md5Reset s = .next (complete { s with md5 := hashRestart md5Seed s.md5 }) := rfl

theorem exec_sha1Reset (s : State) : exec .sha1Reset s = .next (complete { s with sha := hashRestart sha1Seed s.sha }) :=
  rfl

theorem exec_md5Byte_of_running (running : s.md5.done = false) (b : Byte) :
    exec (.md5Byte b) s = .next (complete { s with md5 := hashAbsorb md5Compress s.md5 b }) := by
  rw [exec, execMd5Byte]
  exact checked_of_none (firstError_cons_of_pass running _ _) s _

theorem exec_sha1Byte_of_running (running : s.sha.done = false) (b : Byte) :
    exec (.sha1Byte b) s = .next (complete { s with sha := hashAbsorb sha1Compress s.sha b }) := by
  rw [exec, execSha1Byte]
  exact checked_of_none (firstError_cons_of_pass running _ _) s _

/-- The checks of MD5_BUF and SHA1_BUF pass (R133, R153). -/
theorem firstError_absorb_none {done : Bool} (running : done = false) {r : Region} (inside : r.base + r.len ≤ 65536) :
    firstError [(done, .illegalCommand), (!regionInBounds r, .bounds)] = none :=
  (firstError_cons_of_pass running _ _).trans (firstError_cons_of_pass (boundsCheck_passes inside) _ _)

theorem exec_md5Buf_of_running (running : s.md5.done = false) (inside : f0 s.a0 + f1 s.a0 ≤ 65536) :
    exec .md5Buf s
      = .next (complete { s with md5 := hashAbsorbAll md5Compress s.md5 (memRead s (f0 s.a0) (f1 s.a0)) }) := by
  rw [exec, execMd5Buf]
  exact checked_of_none (firstError_absorb_none running inside) s _

theorem exec_sha1Buf_of_running (running : s.sha.done = false) (inside : f0 s.a0 + f1 s.a0 ≤ 65536) :
    exec .sha1Buf s
      = .next (complete { s with sha := hashAbsorbAll sha1Compress s.sha (memRead s (f0 s.a0) (f1 s.a0)) }) := by
  rw [exec, execSha1Buf]
  exact checked_of_none (firstError_absorb_none running inside) s _

/-- A first check that finds the message finalised raises IllegalCommand, and only STATUS changes (R132, R133, R265). -/
theorem checked_of_done {done : Bool} (finalised : done = true) (checks : List (Bool × Err)) (s : State)
    (op : State → State) :
    checked ((done, .illegalCommand) :: checks) s op = .next { s with err := 6, sticky := s.sticky ||| 0x20 } :=
  checked_of_some (firstError_cons_of_fail finalised _ _) s op

theorem exec_md5Byte_of_done (done : s.md5.done = true) (b : Byte) :
    exec (.md5Byte b) s = .next { s with err := 6, sticky := s.sticky ||| 0x20 } := by
  rw [exec, execMd5Byte, checked_of_done done]

theorem exec_md5Buf_of_done (done : s.md5.done = true) :
    exec .md5Buf s = .next { s with err := 6, sticky := s.sticky ||| 0x20 } := by
  rw [exec, execMd5Buf, checked_of_done done]

theorem exec_sha1Byte_of_done (done : s.sha.done = true) (b : Byte) :
    exec (.sha1Byte b) s = .next { s with err := 6, sticky := s.sticky ||| 0x20 } := by
  rw [exec, execSha1Byte, checked_of_done done]

theorem exec_sha1Buf_of_done (done : s.sha.done = true) :
    exec .sha1Buf s = .next { s with err := 6, sticky := s.sticky ||| 0x20 } := by
  rw [exec, execSha1Buf, checked_of_done done]

theorem exec_md5Final_of_inside (inside : f0 s.a0 + 16 ≤ 65536) :
    exec .md5Final s
      = .next (complete (memWrite { s with md5 := md5Finish s.md5 } (f0 s.a0) (md5Digest (md5Finish s.md5).chain))) := by
  rw [exec, execMd5Final]
  exact checked_of_none (firstError_cons_of_pass (boundsCheck_passes inside) _ _) s _

theorem exec_sha1Final_of_inside (inside : f0 s.a0 + 20 ≤ 65536) :
    exec .sha1Final s
      = .next (complete (memWrite { s with sha := sha1Finish s.sha } (f0 s.a0) (sha1Digest (sha1Finish s.sha).chain))) := by
  rw [exec, execSha1Final]
  exact checked_of_none (firstError_cons_of_pass (boundsCheck_passes inside) _ _) s _

end Commands

/-- Settles O31: each RESET command's next state, field by field. -/
theorem hashResetsStartAMessage : Obligations.HashResetsStartAMessage := fun s =>
  ⟨⟨_, exec_md5Reset s, rfl, rfl, rfl, rfl, rfl⟩, ⟨_, exec_sha1Reset s, rfl, rfl, rfl, rfl, rfl⟩⟩

/-- Settles O32: each core's byte command absorbs its byte, by the laws of absorbing one. -/
theorem hashByteCommandsAbsorbOneByte : Obligations.HashByteCommandsAbsorbOneByte := fun _ b =>
  ⟨fun running => ⟨_, exec_md5Byte_of_running running b, rfl, hashAbsorb_len _ _ b,
      (hashAbsorb_done _ _ b).trans running, toList_hashAbsorb_blk _ _ b, (hashAbsorb_of_room _ · b),
      (hashAbsorb_of_last _ · b)⟩,
    (exec_md5Byte_of_done · b),
    fun running => ⟨_, exec_sha1Byte_of_running running b, rfl, hashAbsorb_len _ _ b,
      (hashAbsorb_done _ _ b).trans running, toList_hashAbsorb_blk _ _ b, (hashAbsorb_of_room _ · b),
      (hashAbsorb_of_last _ · b)⟩,
    (exec_sha1Byte_of_done · b)⟩

/-- R133, R153: the counters after a region of `n` bytes. -/
theorem hashAbsorbAll_region {χ : Type} (compress : χ → List Byte → χ) (c : HashCore χ) (s : State) (a n : Nat) :
    (hashAbsorbAll compress c (memRead s a n)).len = c.len + BitVec.ofNat 64 (8 * n)
      ∧ (hashAbsorbAll compress c (memRead s a n)).blkLen.val = (c.blkLen.val + n) % 64 := by
  rw [hashAbsorbAll_len, hashAbsorbAll_blkLen, memRead_length]
  exact ⟨rfl, rfl⟩

/-- Settles O33: each core's region command absorbs the region's bytes, by the laws of absorbing a sequence. -/
theorem hashRegionCommandsAbsorbTheirRegion : Obligations.HashRegionCommandsAbsorbTheirRegion := fun _ =>
  ⟨fun running inside => ⟨_, exec_md5Buf_of_running running inside, rfl, (hashAbsorbAll_done _ _ _).trans running, rfl,
      hashAbsorbAll_region _ _ _ _ _⟩,
    exec_md5Buf_of_done,
    fun running inside => ⟨_, exec_sha1Buf_of_running running inside, rfl, (hashAbsorbAll_done _ _ _).trans running, rfl,
      hashAbsorbAll_region _ _ _ _ _⟩,
    exec_sha1Buf_of_done⟩

/-! ## The digests (R134, R154) -/

theorem bytesLE_getD_word (w : Word) {k : Nat} (inside : k < 4) :
    (bytesLE w.toNat 4).getD k 0 = w.extractLsb' (8 * k) 8 := by
  have wide := bytesLE_getD_extract (w.setWidth 64) inside
  rwa [BitVec.toNat_setWidth_of_le (by decide), BitVec.extractLsb'_setWidth_of_le (by omega)] at wide

theorem bytesBE_getD_word (w : Word) {k : Nat} (inside : k < 4) :
    (bytesBE w.toNat 4).getD k 0 = w.extractLsb' (8 * (3 - k)) 8 := by
  have wide := bytesBE_getD_extract (w.setWidth 64) inside
  rwa [BitVec.toNat_setWidth_of_le (by decide), BitVec.extractLsb'_setWidth_of_le (by omega)] at wide

/-- Four bytes a word, word 0 first. -/
theorem flatMap_bytes_getD {bytes : Word → List Byte} (four : ∀ w, (bytes w).length = 4) {ws : List Word} {j k : Nat}
    (listed : j < ws.length) (inside : k < 4) :
    (ws.flatMap bytes).getD (4 * j + k) 0 = (bytes (ws.getD j 0)).getD k 0 := by
  induction ws generalizing j with
  | nil => exact absurd listed (Nat.not_lt_zero j)
  | cons w ws ih =>
    rw [List.flatMap_cons]
    cases j with
    | zero =>
      rw [List.getD_append _ _ _ _ (by rw [four]; omega)]
      simp
    | succ j =>
      rw [List.getD_append_right _ _ _ _ (by rw [four]; omega), List.getD_cons_succ,
        ← ih (Nat.lt_of_succ_lt_succ listed), four]
      congr 1
      omega

theorem md5Digest_eq_flatMap (h : Md5Chain) :
    md5Digest h = [h.h0, h.h1, h.h2, h.h3].flatMap fun w => bytesLE w.toNat 4 := by
  simp [md5Digest]

theorem sha1Digest_eq_flatMap (h : Sha1Chain) :
    sha1Digest h = [h.h0, h.h1, h.h2, h.h3, h.h4].flatMap fun w => bytesBE w.toNat 4 := by
  simp [sha1Digest]

/-- A byte of words just written. -/
theorem bufByte_flatMap {bytes : Word → List Byte} (four : ∀ w, (bytes w).length = 4) (s : State) (a : Nat)
    {ws : List Word} {j k : Nat} (listed : j < ws.length) (inside : k < 4) :
    bufByte (complete (memWrite s a (ws.flatMap bytes))) (a + 4 * j + k) = (bytes (ws.getD j 0)).getD k 0 := by
  have length : (ws.flatMap bytes).length = 4 * ws.length := by
    simp [List.length_flatMap, four, Nat.mul_comm]
  rw [bufByte_complete, bufByte_memWrite, if_pos (by omega), Nat.add_assoc, Nat.add_sub_cancel_left,
    flatMap_bytes_getD four listed inside]

/-- R134: byte k of word j of MD5's digest is the word's byte from bit 8k. -/
theorem bufByte_md5Digest (s : State) (a : Nat) (h : Md5Chain) {j k : Nat} (listed : j < 4) (inside : k < 4) :
    bufByte (complete (memWrite s a (md5Digest h))) (a + 4 * j + k)
      = ([h.h0, h.h1, h.h2, h.h3].getD j 0).extractLsb' (8 * k) 8 := by
  rw [md5Digest_eq_flatMap, bufByte_flatMap (fun _ => bytesLE_length _ _) s a listed inside, bytesLE_getD_word _ inside]

/-- R154: byte k of word j of SHA-1's digest is the word's byte from bit 8(3-k). -/
theorem bufByte_sha1Digest (s : State) (a : Nat) (h : Sha1Chain) {j k : Nat} (listed : j < 5) (inside : k < 4) :
    bufByte (complete (memWrite s a (sha1Digest h))) (a + 4 * j + k)
      = ([h.h0, h.h1, h.h2, h.h3, h.h4].getD j 0).extractLsb' (8 * (3 - k)) 8 := by
  rw [sha1Digest_eq_flatMap, bufByte_flatMap (fun _ => bytesBE_length _ _) s a listed inside, bytesBE_getD_word _ inside]

theorem bufByte_outside_write (s : State) {a x n : Nat} {bs : List Byte} (length : bs.length = n)
    (outside : ¬ (a ≤ x ∧ x < a + n)) : bufByte (complete (memWrite s a bs)) x = bufByte s x := by
  rw [bufByte_complete, bufByte_memWrite, length, if_neg outside]

/-- Settles O35: FINAL's next state, the digest's bytes word by word, and the law of BUF outside them. -/
theorem finalCommandsWriteTheDigest : Obligations.FinalCommandsWriteTheDigest := fun s =>
  ⟨fun inside => ⟨_, exec_md5Final_of_inside inside, rfl, hashFinish_done _ _ _, hashFinish_of_done,
      fun _ byte => ⟨bufByte_md5Digest _ _ _ (j := 0) (by decide) byte, bufByte_md5Digest _ _ _ (j := 1) (by decide) byte,
        bufByte_md5Digest _ _ _ (j := 2) (by decide) byte, bufByte_md5Digest _ _ _ (j := 3) (by decide) byte⟩,
      fun _ outside => bufByte_outside_write _ (md5Digest_length _) outside⟩,
    fun inside => ⟨_, exec_sha1Final_of_inside inside, rfl, hashFinish_done _ _ _, hashFinish_of_done,
      fun _ byte => ⟨bufByte_sha1Digest _ _ _ (j := 0) (by decide) byte, bufByte_sha1Digest _ _ _ (j := 1) (by decide) byte,
        bufByte_sha1Digest _ _ _ (j := 2) (by decide) byte, bufByte_sha1Digest _ _ _ (j := 3) (by decide) byte,
        bufByte_sha1Digest _ _ _ (j := 4) (by decide) byte⟩,
      fun _ outside => bufByte_outside_write _ (sha1Digest_length _) outside⟩⟩

/-! ## A message in pieces (R137, R153, R175, R245) -/

/-- A unit that takes its input byte by byte: its one-byte command feeds it one byte, and its region command the region's
bytes in order, whenever they end without an error. -/
structure TakesBytes (byteCmd : Byte → Instr) (bufCmd : Instr) {α : Type} (unit : State → α) (absorb : α → Byte → α) :
    Prop where
  byte : ∀ {s t : State} {b : Byte}, exec (byteCmd b) s = .next t → t.err = 0 → unit t = absorb (unit s) b
  region : ∀ {s t : State}, exec bufCmd s = .next t → t.err = 0 →
    unit t = (regionRead s (sourceRegion s)).foldl absorb (unit s)

section Feed

variable {byteCmd : Byte → Instr} {bufCmd : Instr} {α : Type} {unit : State → α} {absorb : α → Byte → α}
  {m : List Byte} {c x y : α}

/-- However a message is split, such a unit ends where feeding it byte by byte ends. -/
theorem feed_eq_foldl (takes : TakesBytes byteCmd bufCmd unit absorb) (feed : Feed byteCmd bufCmd unit x m y) :
    y = m.foldl absorb x := by
  induction feed with
  | done x => rfl
  | byte hx run good _ ih => rw [ih, takes.byte run good, hx, List.foldl_cons]
  | region hx run good _ ih => rw [ih, takes.region run good, hx, List.foldl_append]

/-- Two feeds of one message to such a unit end alike. -/
theorem feed_unique (takes : TakesBytes byteCmd bufCmd unit absorb) (feed : Feed byteCmd bufCmd unit c m x)
    (feed' : Feed byteCmd bufCmd unit c m y) : x = y :=
  (feed_eq_foldl takes feed).trans (feed_eq_foldl takes feed').symm

end Feed

theorem md5_takesBytes : TakesBytes .md5Byte .md5Buf State.md5 (hashAbsorb md5Compress) where
  byte run good := by
    rw [exec, execMd5Byte] at run
    exact congrArg State.md5 (checked_succeeds run good).2
  region run good := by
    rw [exec, execMd5Buf] at run
    exact congrArg State.md5 (checked_succeeds run good).2

theorem sha1_takesBytes : TakesBytes .sha1Byte .sha1Buf State.sha (hashAbsorb sha1Compress) where
  byte run good := by
    rw [exec, execSha1Byte] at run
    exact congrArg State.sha (checked_succeeds run good).2
  region run good := by
    rw [exec, execSha1Buf] at run
    exact congrArg State.sha (checked_succeeds run good).2

theorem crc_takesBytes : TakesBytes .crcByte .crcBuf State.crcReg crcStep where
  byte run _ := congrArg State.crcReg (Host.Outcome.next.inj run).symm
  region run good := by
    rw [exec, execCrcBuf] at run
    exact congrArg State.crcReg (checked_succeeds run good).2

theorem keys_takeBytes : TakesBytes .zcPwByte .zcPwBuf State.keys zcUpdate where
  byte run _ := congrArg State.keys (Host.Outcome.next.inj run).symm
  region run good := by
    rw [exec, execZcPwBuf] at run
    exact congrArg State.keys (checked_succeeds run good).2

/-- Settles O34: each of the four units takes its message byte by byte. -/
theorem unitsDoNotDependOnTheSplitOfAMessage : Obligations.UnitsDoNotDependOnTheSplitOfAMessage :=
  ⟨fun _ _ _ _ _ _ => feed_unique md5_takesBytes, fun _ _ _ _ => feed_unique sha1_takesBytes,
    fun _ _ _ _ => feed_unique crc_takesBytes, fun _ _ _ _ => feed_unique keys_takeBytes⟩

/-! ## The words of a block (R130, R150) -/

theorem wordsOf_length (order : List Byte → Nat) {n : Nat} {bs : List Byte} (length : bs.length = 4 * n) :
    (wordsOf order bs).length = n := by
  induction n generalizing bs with
  | zero => rw [List.eq_nil_of_length_eq_zero length]; rfl
  | succ n ih =>
    match bs, length with
    | _ :: _ :: _ :: _ :: bs, length =>
      simp only [List.length_cons] at length
      rw [wordsOf, List.length_cons, ih (by omega)]

theorem wordsOf_getD (order : List Byte → Nat) {j : Nat} {bs : List Byte} (inside : 4 * j + 4 ≤ bs.length) :
    (wordsOf order bs).getD j 0 = BitVec.ofNat 32 (order ((List.range 4).map fun k => bs.getD (4 * j + k) 0)) := by
  induction j generalizing bs with
  | zero =>
    match bs, inside with
    | b0 :: b1 :: b2 :: b3 :: bs, _ => rfl
  | succ j ih =>
    match bs, inside with
    | b0 :: b1 :: b2 :: b3 :: bs, inside =>
      simp only [List.length_cons] at inside
      rw [wordsOf, List.getD_cons_succ, ih (by omega)]
      have shift : ∀ k, 4 * (j + 1) + k = 4 * j + k + 1 + 1 + 1 + 1 := fun k => by omega
      simp only [shift, List.getD_cons_succ]

theorem leNat_map_range (f : Nat → Byte) (n : Nat) :
    leNat ((List.range n).map f) = (Finset.range n).sum fun k => (f k).toNat * 256 ^ k := by
  induction n with
  | zero => rfl
  | succ n ih =>
    rw [List.range_succ, List.map_append, leNat_append, ih, Finset.sum_range_succ, List.length_map, List.length_range]
    simp [leNat, Nat.mul_comm]

/-- R10: `BE` weighs byte k of four by 256^(3-k). -/
theorem beNat_map_range_four (f : Nat → Byte) :
    beNat ((List.range 4).map f) = (Finset.range 4).sum fun k => (f k).toNat * 256 ^ (3 - k) := by
  have reversed : ((List.range 4).map f).reverse = (List.range 4).map fun k => f (3 - k) := rfl
  rw [beNat, reversed, leNat_map_range, ← Finset.sum_range_reflect (fun k => (f k).toNat * 256 ^ (3 - k))]
  refine Finset.sum_congr rfl fun k listed => ?_
  have twice : 3 - (4 - 1 - k) = k := Nat.sub_sub_self (Nat.le_of_lt_succ (Finset.mem_range.mp listed))
  rw [twice]

/-- R130: a message word is `LE` of its four bytes. -/
theorem wordsOf_leNat_getD {j : Nat} {bs : List Byte} (inside : 4 * j + 4 ≤ bs.length) :
    (wordsOf leNat bs).getD j 0
      = BitVec.ofNat 32 ((Finset.range 4).sum fun k => (bs.getD (4 * j + k) 0).toNat * 256 ^ k) := by
  rw [wordsOf_getD leNat inside, leNat_map_range]

/-- R150: a message word is `BE` of its four bytes. -/
theorem wordsOf_beNat_getD {j : Nat} {bs : List Byte} (inside : 4 * j + 4 ≤ bs.length) :
    (wordsOf beNat bs).getD j 0
      = BitVec.ofNat 32 ((Finset.range 4).sum fun k => (bs.getD (4 * j + k) 0).toNat * 256 ^ (3 - k)) := by
  rw [wordsOf_getD beNat inside, beNat_map_range_four]

/-! ## MD5's rounds (R130) -/

/-- The shift amounts of R130, round 0 first. -/
theorem md5Shift_eq_getD : ∀ i < 64, md5Shift i = ((List.replicate 4 [7, 12, 17, 22] ++ List.replicate 4 [5, 9, 14, 20]
    ++ List.replicate 4 [4, 11, 16, 23] ++ List.replicate 4 [6, 10, 15, 21]).flatten).getD i 0 := by decide

theorem md5Index_lt : ∀ i < 64, md5Index i < 16 := by decide

/-! ## SHA-1's rounds (R150) -/

/-- The function and the constant of round t. -/
theorem sha1Mix_sha1K (t : Nat) (b c d : Word) :
    (sha1Mix t b c d, sha1K t) =
      if t < 20 then ((b &&& c) ||| (~~~b &&& d), 0x5A827999)
      else if t < 40 then (b ^^^ c ^^^ d, 0x6ED9EBA1)
      else if t < 60 then ((b &&& c) ||| (b &&& d) ||| (c &&& d), 0x8F1BBCDC)
      else (b ^^^ c ^^^ d, 0xCA62C1D6) := by
  rw [sha1Mix, sha1K]
  split_ifs
  · rfl
  · rfl
  · rfl
  · rfl

/-! ## SHA-1's message schedule (R150) -/

/-- Word t of a schedule that is listed the newest word first. -/
def scheduleWord (ws : List Word) (t : Nat) : Word := ws.reverse.getD t 0

theorem scheduleWord_cons_of_lt (w : Word) {ws : List Word} {t : Nat} (old : t < ws.length) :
    scheduleWord (w :: ws) t = scheduleWord ws t := by
  rw [scheduleWord, List.reverse_cons, List.getD_append _ _ _ _ (by rwa [List.length_reverse])]
  rfl

theorem scheduleWord_cons_self (w : Word) (ws : List Word) : scheduleWord (w :: ws) ws.length = w := by
  rw [scheduleWord, List.reverse_cons, List.getD_append_right _ _ _ _ (by rw [List.length_reverse]), List.length_reverse,
    Nat.sub_self]
  rfl

/-- The word i places before the next one. -/
theorem scheduleWord_back {ws : List Word} {i : Nat} (inside : i < ws.length) :
    scheduleWord ws (ws.length - (i + 1)) = ws.getD i 0 := by
  rw [scheduleWord, List.getD_reverse _ (by omega)]
  congr 1
  omega

/-- R150: the next word, from the words 3, 8, 14 and 16 places before it. -/
theorem sha1NextWord_eq {ws : List Word} (sixteen : 16 ≤ ws.length) :
    sha1NextWord ws = rotl32 (scheduleWord ws (ws.length - 3) ^^^ scheduleWord ws (ws.length - 8)
      ^^^ scheduleWord ws (ws.length - 14) ^^^ scheduleWord ws (ws.length - 16)) 1 := by
  rw [scheduleWord_back (i := 2) (by omega), scheduleWord_back (i := 7) (by omega), scheduleWord_back (i := 13) (by omega),
    scheduleWord_back (i := 15) (by omega), sha1NextWord]

/-- Extending a schedule keeps its words. -/
theorem scheduleWord_sha1Extend (n : Nat) {ws : List Word} {t : Nat} (old : t < ws.length) :
    scheduleWord (sha1Extend n ws) t = scheduleWord ws t := by
  induction n generalizing ws with
  | zero => rfl
  | succ n ih => rw [sha1Extend, ih (by rw [List.length_cons]; omega), scheduleWord_cons_of_lt _ old]

/-- R150: every word that extends a schedule follows the recurrence. -/
theorem scheduleWord_sha1Extend_step {n : Nat} {ws : List Word} {t : Nat} (sixteen : 16 ≤ ws.length)
    (new : ws.length ≤ t) (inside : t < ws.length + n) :
    scheduleWord (sha1Extend n ws) t = rotl32 (scheduleWord (sha1Extend n ws) (t - 3)
      ^^^ scheduleWord (sha1Extend n ws) (t - 8) ^^^ scheduleWord (sha1Extend n ws) (t - 14)
      ^^^ scheduleWord (sha1Extend n ws) (t - 16)) 1 := by
  induction n generalizing ws with
  | zero => omega
  | succ n ih =>
    obtain rfl | later := Nat.eq_or_lt_of_le new
    · have kept : ∀ i, 0 < i → i ≤ 16 → scheduleWord (sha1Extend (n + 1) ws) (ws.length - i)
          = scheduleWord ws (ws.length - i) := fun i pos le => scheduleWord_sha1Extend _ (by omega)
      rw [kept 3 (by decide) (by decide), kept 8 (by decide) (by decide), kept 14 (by decide) (by decide),
        kept 16 (by decide) (by decide), ← sha1NextWord_eq sixteen, sha1Extend,
        scheduleWord_sha1Extend n (Nat.lt_succ_self _), scheduleWord_cons_self]
    · exact ih (by rw [List.length_cons]; omega) later (by rw [List.length_cons]; omega)

section Sha1Schedule

variable {blk : List Byte}

theorem sha1Schedule_getD (blk : List Byte) (t : Nat) :
    (sha1Schedule blk).getD t 0 = scheduleWord (sha1Extend 64 (wordsOf beNat blk).reverse) t := rfl

theorem length_reverse_words (length : blk.length = 64) : (wordsOf beNat blk).reverse.length = 16 := by
  rw [List.length_reverse, wordsOf_length beNat (n := 16) length]

theorem sha1Schedule_getD_of_lt (length : blk.length = 64) {t : Nat} (message : t < 16) :
    (sha1Schedule blk).getD t 0
      = BitVec.ofNat 32 ((Finset.range 4).sum fun k => (blk.getD (4 * t + k) 0).toNat * 256 ^ (3 - k)) := by
  rw [sha1Schedule_getD, scheduleWord_sha1Extend 64 (by rwa [length_reverse_words length]), scheduleWord,
    List.reverse_reverse, wordsOf_beNat_getD (by omega)]

theorem sha1Schedule_getD_step (length : blk.length = 64) {t : Nat} (sixteen : 16 ≤ t) (inside : t < 80) :
    (sha1Schedule blk).getD t 0 = rotl32 ((sha1Schedule blk).getD (t - 3) 0 ^^^ (sha1Schedule blk).getD (t - 8) 0
      ^^^ (sha1Schedule blk).getD (t - 14) 0 ^^^ (sha1Schedule blk).getD (t - 16) 0) 1 := by
  have words := length_reverse_words length
  exact scheduleWord_sha1Extend_step words.ge (words ▸ sixteen) (words ▸ inside)

end Sha1Schedule

/-! ## The digest of a message (R130, R135, R150, R155) -/

/-- A reset, a message in any pieces, and FINAL: MD5. -/
theorem md5Final_of_feed {s r u t : State} {m : List Byte} (reset : exec .md5Reset s = .next r)
    (feed : Feed .md5Byte .md5Buf State.md5 r.md5 m u.md5) (inside : f0 u.a0 + 16 ≤ 65536)
    (run : exec .md5Final u = .next t) :
    t.md5.chain = hashMessage md5Compress bytesLE md5Seed m ∧ t.md5.blkLen = 0
      ∧ t.md5.len = BitVec.ofNat 64 (8 * m.length) := by
  obtain rfl := Host.Outcome.next.inj ((exec_md5Reset s).symm.trans reset)
  obtain rfl := Host.Outcome.next.inj ((exec_md5Final_of_inside inside).symm.trans run)
  exact hashFinish_of_message md5Compress bytesLE_length md5Seed s.md5 m
    (congrArg md5Finish (feed_eq_foldl md5_takesBytes feed))

/-- A reset, a message in any pieces, and FINAL: SHA-1. -/
theorem sha1Final_of_feed {s r u t : State} {m : List Byte} (reset : exec .sha1Reset s = .next r)
    (feed : Feed .sha1Byte .sha1Buf State.sha r.sha m u.sha) (inside : f0 u.a0 + 20 ≤ 65536)
    (run : exec .sha1Final u = .next t) :
    t.sha.chain = hashMessage sha1Compress bytesBE sha1Seed m ∧ t.sha.blkLen = 0
      ∧ t.sha.len = BitVec.ofNat 64 (8 * m.length) := by
  obtain rfl := Host.Outcome.next.inj ((exec_sha1Reset s).symm.trans reset)
  obtain rfl := Host.Outcome.next.inj ((exec_sha1Final_of_inside inside).symm.trans run)
  exact hashFinish_of_message sha1Compress bytesBE_length sha1Seed s.sha m
    (congrArg sha1Finish (feed_eq_foldl sha1_takesBytes feed))

/-- Vector S1. -/
theorem md5Digest_empty : md5Digest (hashMessage md5Compress bytesLE md5Seed [])
    = [0xD4, 0x1D, 0x8C, 0xD9, 0x8F, 0x00, 0xB2, 0x04, 0xE9, 0x80, 0x09, 0x98, 0xEC, 0xF8, 0x42, 0x7E] := by
  decide +kernel

/-- Vector S2. -/
theorem md5Digest_abc : md5Digest (hashMessage md5Compress bytesLE md5Seed [0x61, 0x62, 0x63])
    = [0x90, 0x01, 0x50, 0x98, 0x3C, 0xD2, 0x4F, 0xB0, 0xD6, 0x96, 0x3F, 0x7D, 0x28, 0xE1, 0x7F, 0x72] := by
  decide +kernel

/-- Vector S3. -/
theorem sha1Digest_abc : sha1Digest (hashMessage sha1Compress bytesBE sha1Seed [0x61, 0x62, 0x63])
    = [0xA9, 0x99, 0x3E, 0x36, 0x47, 0x06, 0x81, 0x6A, 0xBA, 0x3E, 0x25, 0x71, 0x78, 0x50, 0xC2, 0x6C, 0x9C, 0xD0, 0xD8,
      0x9D] := by
  decide +kernel

/-- Vector S4. -/
theorem sha1Digest_empty : sha1Digest (hashMessage sha1Compress bytesBE sha1Seed [])
    = [0xDA, 0x39, 0xA3, 0xEE, 0x5E, 0x6B, 0x4B, 0x0D, 0x32, 0x55, 0xBF, 0xEF, 0x95, 0x60, 0x18, 0x90, 0xAF, 0xD8, 0x07,
      0x09] := by
  decide +kernel

/-- Settles O36: the digest of a fed message, round by round the two compression functions, and the four vectors. -/
theorem digestIsThatOfThePaddedMessage : Obligations.DigestIsThatOfThePaddedMessage := by
  refine ⟨fun _ _ _ _ _ => md5Final_of_feed, fun _ _ _ _ _ => sha1Final_of_feed, fun h blk length => ?md5,
    fun h blk length => ⟨fun t => (sha1Schedule blk).getD t 0, fun _ => sha1Schedule_getD_of_lt length,
      fun _ => sha1Schedule_getD_step length, ?sha1⟩,
    md5Digest_empty, md5Digest_abc, sha1Digest_abc, sha1Digest_empty⟩
  case md5 =>
    intro x amounts round v
    have rounds : (List.range 64).foldl (md5Round (wordsOf leNat blk)) h = v :=
      List.foldl_ext _ _ _ fun u i listed => by
        have below := List.mem_range.mp listed
        have word := md5Index_lt i below
        have read : (wordsOf leNat blk).getD (md5Index i) 0 = x (md5Index i) := wordsOf_leNat_getD (by omega)
        rw [md5Round, read, md5Shift_eq_getD i below]
        rfl
    rw [md5Compress, rounds]
  case sha1 =>
    intro round v
    have rounds : (List.range 80).foldl (sha1Round (sha1Schedule blk)) h = v :=
      List.foldl_ext _ _ _ fun u t _ => by
        have constants := sha1Mix_sha1K t u.h1 u.h2 u.h3
        simp only [round, ← constants]
        rfl
    rw [sha1Compress, rounds]

end Sys2Proof.Proofs
end

-- ==== Proofs: the CRC family (spec/44_crc32.md) ====
section
/-! PROOFS. The CRC-32 generator (spec/44_crc32.md): one bit step is linear over XOR, so eight of them are, and the table
form is the sum of what the low byte and the three upper bytes give. Then each command's next state, and the CRC of a
message fed in pieces. -/

namespace Sys2Proof.Proofs

open Sys2Proof Sys2Proof.Machine

/-! ## The step (R170, R179, R180) -/

/-- One bit step of R170. -/
def crcBit (r : Word) : Word := (r >>> 1) ^^^ if r.getLsbD 0 then crcPoly else 0#32

theorem crcBits_succ (n : Nat) (r : Word) : crcBits (n + 1) r = crcBits n (crcBit r) := by
  rw [crcBits, crcBit]
  split_ifs
  · rfl
  · rw [BitVec.xor_zero]

/-- The polynomial is added exactly when one of the two low bits is set, and cancels when both are. -/
theorem crcBit_xor (a b : Word) : crcBit (a ^^^ b) = crcBit a ^^^ crcBit b := by
  have low : (if (a ^^^ b).getLsbD 0 then crcPoly else 0#32)
      = (if a.getLsbD 0 then crcPoly else 0#32) ^^^ (if b.getLsbD 0 then crcPoly else 0#32) := by
    rw [BitVec.getLsbD_xor]
    cases a.getLsbD 0 <;> cases b.getLsbD 0 <;> rfl
  rw [crcBit, crcBit, crcBit, BitVec.ushiftRight_xor_distrib, low]
  ac_rfl

/-- The bit steps are linear in the register. -/
theorem crcBits_xor (n : Nat) (a b : Word) : crcBits n (a ^^^ b) = crcBits n a ^^^ crcBits n b := by
  induction n generalizing a b with
  | zero => rfl
  | succ n ih => rw [crcBits_succ, crcBits_succ, crcBits_succ, crcBit_xor, ih]

/-- As long as only zeros leave the register, the bit steps just shift it. -/
theorem crcBits_of_low_zero {n : Nat} {r : Word} (zeros : ∀ i < n, r.getLsbD i = false) : crcBits n r = r >>> n := by
  induction n generalizing r with
  | zero => exact (BitVec.ushiftRight_zero r).symm
  | succ n ih =>
    have shifted : crcBit r = r >>> 1 := by
      rw [crcBit, zeros 0 n.succ_pos, if_neg Bool.false_ne_true, BitVec.xor_zero]
    have zeros' : ∀ i < n, (r >>> 1).getLsbD i = false := fun i below => by
      rw [BitVec.getLsbD_ushiftRight]
      exact zeros (1 + i) (by omega)
    rw [crcBits_succ, shifted, ih zeros', ← BitVec.shiftRight_add, Nat.add_comm]

/-- A word is its low byte and its upper three bytes. -/
theorem xor_lowByte_upperBytes (w : Word) : (w.extractLsb' 0 8).setWidth 32 ^^^ (w >>> 8) <<< 8 = w := by
  ext i inside
  by_cases low : i < 8
  · simp [low, BitVec.getLsbD_eq_getElem inside]
  · simp [low, Nat.add_sub_cancel' (Nat.le_of_not_lt low), inside]

/-- Eight bit steps look the low byte up in the table and shift the upper three bytes down. -/
theorem crcBits_eight (w : Word) : crcBits 8 w = (w >>> 8) ^^^ crcBits 8 ((w.extractLsb' 0 8).setWidth 32) := by
  have upper : crcBits 8 ((w >>> 8) <<< 8) = w >>> 8 := by
    rw [crcBits_of_low_zero fun i below => by simp [below]]
    ext i inside
    simpa using BitVec.lt_of_getLsbD
  calc crcBits 8 w
    _ = crcBits 8 ((w.extractLsb' 0 8).setWidth 32 ^^^ (w >>> 8) <<< 8) := by rw [xor_lowByte_upperBytes]
    _ = crcBits 8 ((w.extractLsb' 0 8).setWidth 32) ^^^ (w >>> 8) := by rw [crcBits_xor, upper]
    _ = _ := BitVec.xor_comm _ _

theorem crcStep_zero_register (x : Byte) : crcStep 0 x = crcBits 8 (x.setWidth 32) :=
  congrArg (crcBits 8) BitVec.zero_xor

/-- The data byte does not reach the upper three bytes. -/
theorem xor_byte_shiftRight (r : Word) (x : Byte) : (r ^^^ x.setWidth 32) >>> 8 = r >>> 8 := by
  have above : (x.setWidth 32 : Word) >>> 8 = 0#32 := by
    ext i inside
    simp
  rw [BitVec.ushiftRight_xor_distrib, above, BitVec.xor_zero]

/-- R179: the table form, with `T[i] = crc_step(0, i)`. -/
theorem crcStep_table (r : Word) (x : Byte) :
    crcStep r x = (r >>> 8) ^^^ crcStep 0 ((r ^^^ x.setWidth 32).extractLsb' 0 8) := by
  rw [crcStep_zero_register, crcStep, crcBits_eight, xor_byte_shiftRight]

/-- R180: folding a byte is folding a zero byte into the register that has it XORed in. -/
theorem crcStep_zero_byte (r : Word) (x : Byte) : crcStep r x = crcStep (r ^^^ x.setWidth 32) 0 := by
  have zero : ((0 : Byte).setWidth 32 : Word) = 0#32 := rfl
  rw [crcStep, crcStep, zero, BitVec.xor_zero]

/-- Settles O38: the table form by linearity, its three examples, and the zero byte. -/
theorem crcStepHasItsTableFormAndIsLinear : Obligations.CrcStepHasItsTableFormAndIsLinear :=
  ⟨crcStep_table, by decide, by decide, by decide, crcStep_zero_byte⟩

/-! ## The commands (R172 to R178) -/

section Commands

variable {s : State}

theorem exec_crcInit (s : State) : exec .crcInit s = .next (complete { s with crcReg := 0xFFFFFFFF }) := rfl

theorem exec_crcLoad (s : State) : exec .crcLoad s = .next (complete { s with crcReg := s.a0.setWidth 32 }) := by
  rw [exec, execCrcLoad, low32, ← BitVec.setWidth_eq_extractLsb' (by decide)]

theorem exec_crcRead (s : State) : exec .crcRead s = .next (complete { s with res := (crcFinal s.crcReg).setWidth 64 }) :=
  rfl

theorem exec_crcBuf_of_inside (inside : f0 s.a0 + f1 s.a0 ≤ 65536) :
    exec .crcBuf s = .next (complete { s with crcReg := crcFold s.crcReg (memRead s (f0 s.a0) (f1 s.a0)) }) := by
  rw [exec, execCrcBuf]
  exact checked_of_none (firstError_cons_of_pass (boundsCheck_passes inside) _ _) s _

/-- The final XOR of R171 inverts every bit. -/
theorem crcFinal_eq_not (r : Word) : crcFinal r = ~~~r := BitVec.xor_allOnes

theorem exec_crcCheck_of_match (same : crcFinal s.crcReg = low32 s.a0) :
    exec .crcCheck s = .next (complete { s with res := (crcFinal s.crcReg).setWidth 64 }) := by
  rw [exec, execCrcCheck, if_pos same]

theorem exec_crcCheck_of_mismatch (differ : crcFinal s.crcReg ≠ low32 s.a0) :
    exec .crcCheck s = .next (raiseErr .integrity { s with res := (crcFinal s.crcReg).setWidth 64 }) := by
  rw [exec, execCrcCheck, if_neg differ]

/-- R178's comparison as numbers. -/
theorem crcFinal_eq_low32_iff (s : State) :
    crcFinal s.crcReg = low32 s.a0 ↔ (crcFinal s.crcReg).toNat = s.a0.toNat % 2 ^ 32 := by
  rw [← BitVec.toNat_inj, toNat_low32]

end Commands

/-- Settles O37: each command's next state, CRC_CHECK's by its comparison. -/
theorem crcCommandsEffects : Obligations.CrcCommandsEffects := by
  intro s
  rw [← crcFinal_eq_not, Ne, ← crcFinal_eq_low32_iff]
  exact ⟨exec_crcInit s, exec_crcLoad s, fun _ => rfl, exec_crcBuf_of_inside, exec_crcRead s, rfl, exec_crcCheck_of_match,
    exec_crcCheck_of_mismatch⟩

/-! ## The CRC of a message (R171) -/

/-- CRC_INIT, a message in any pieces, and CRC_READ. -/
theorem crcRead_of_feed {s r u t : State} {m : List Byte} (init : exec .crcInit s = .next r)
    (feed : Feed .crcByte .crcBuf State.crcReg r.crcReg m u.crcReg) (run : exec .crcRead u = .next t) :
    t.res = (crcFold 0xFFFFFFFF m ^^^ 0xFFFFFFFF).setWidth 64 := by
  obtain rfl := Host.Outcome.next.inj ((exec_crcInit s).symm.trans init)
  obtain rfl := Host.Outcome.next.inj ((exec_crcRead u).symm.trans run)
  have folded : u.crcReg = crcFold 0xFFFFFFFF m := feed_eq_foldl crc_takesBytes feed
  rw [complete_res, folded, crcFinal]

/-- Settles O39: the CRC of a fed message, FOLD's two equations, and the CRC of the empty message and of "123456789". -/
theorem crcReadGivesTheCrcOfTheMessage : Obligations.CrcReadGivesTheCrcOfTheMessage :=
  ⟨fun _ _ _ _ _ => crcRead_of_feed, fun _ => rfl, fun _ _ _ => rfl, by decide, by decide +kernel⟩

end Sys2Proof.Proofs
end

-- ==== Proofs: the LZSS family (spec/45_lzss.md) ====
section
/-! PROOFS. The bit packer and the LZSS codec (spec/45_lzss.md): the bits of a field and of a packed stream, the token
reader, BEST and the parse, whose tokens always spell the input, and the decoder's loop turn by turn. A list of tokens that
spells the input bounds the encoding, fits the fields of the tokens, and decodes to the input. -/

namespace Sys2Proof.Proofs

open Sys2Proof Sys2Proof.Machine

/-! ## The bits of a field (R190) -/

theorem testBit_bitsNat (bits : List Bool) (k : Nat) : (bitsNat bits).testBit k = bits.getD k false := by
  induction bits generalizing k with
  | nil => simp [bitsNat]
  | cons b bits ih =>
    have split : bitsNat (b :: bits) = Nat.bit b (bitsNat bits) := by rw [bitsNat, Nat.bit_val, Nat.add_comm]
    cases k with
    | zero => rw [split, Nat.testBit_bit_zero, List.getD_cons_zero]
    | succ k => rw [split, Nat.testBit_bit_succ, ih, List.getD_cons_succ]

/-- The number that a field's bits, in stream order, spell under a bit order (R190). -/
def fieldNat (bo : Bool) (bits : List Bool) : Nat := if bo then bitsNat bits else bitsNat bits.reverse

theorem testBit_fieldNat (bo : Bool) {bits : List Bool} {i : Nat} (inside : i < bits.length) :
    (fieldNat bo bits).testBit (if bo then i else bits.length - 1 - i) = bits.getD i false := by
  cases bo with
  | true => exact testBit_bitsNat bits i
  | false =>
    have mirror : bits.length - 1 - (bits.length - 1 - i) = i := by omega
    have below : bits.length - 1 - i < bits.length := by omega
    have last : (bitsNat bits.reverse).testBit (bits.length - 1 - i) = bits.getD i false := by
      rw [testBit_bitsNat, List.getD_eq_getElem?_getD, List.getElem?_reverse below, mirror, List.getD_eq_getElem?_getD]
    exact last

theorem putBits_getElem? (bo : Bool) (v : Nat) {n i : Nat} (inside : i < n) :
    (putBits bo v n)[i]? = some (v.testBit (if bo then i else n - 1 - i)) := by
  cases bo <;> simp [putBits, inside]

/-- The most significant bit first is the least significant first backwards. -/
theorem putBits_reverse (v n : Nat) : (putBits false v n).reverse = putBits true v n := by
  refine List.ext_getElem (by simp) fun i low high => ?_
  have inside : i < n := by simpa using high
  have mirror : n - 1 - (n - 1 - i) = i := by omega
  simp [putBits, mirror]

/-- R190: a field holds the low bits of the value that was put. -/
theorem fieldNat_putBits (bo : Bool) (v n : Nat) : fieldNat bo (putBits bo v n) = v % 2 ^ n := by
  have lowFirst : bitsNat (putBits true v n) = v % 2 ^ n := by
    apply Nat.eq_of_testBit_eq
    intro k
    rw [testBit_bitsNat, Nat.testBit_mod_two_pow, List.getD_eq_getElem?_getD]
    by_cases inside : k < n
    · rw [putBits_getElem? true v inside]
      simp [inside]
    · simp [putBits, inside]
  cases bo with
  | true => exact lowFirst
  | false => exact (congrArg bitsNat (putBits_reverse v n)).trans lowFirst

theorem getBits_of_le {bo : Bool} {bs : List Byte} {pos n : Nat} (inside : pos + n ≤ 8 * bs.length) :
    getBits bo bs pos n = some (fieldNat bo (streamBits bo bs pos n)) := by
  rw [getBits, if_neg (Nat.not_lt_of_le inside)]
  rfl

theorem getBits_of_gt {bo : Bool} {bs : List Byte} {pos n : Nat} (beyond : 8 * bs.length < pos + n) :
    getBits bo bs pos n = none := if_pos beyond

theorem getBits_one {bo : Bool} {bs : List Byte} {pos : Nat} (inside : pos < 8 * bs.length) :
    getBits bo bs pos 1 = some (streamBit bo bs pos).toNat := by
  rw [getBits_of_le inside]
  cases bo <;> simp [fieldNat, streamBits, bitsNat]

/-! ## Packing (R190, R191) -/

theorem packedLen_eq (nbits : Nat) : packedLen nbits = (nbits + 7) / 8 := Nat.shiftRight_eq_div_pow _ _

/-- R190: where stream bit `8 j + i` stands in byte j. -/
theorem packByte_getLsbD (bo : Bool) (bits : List Bool) (j : Nat) {i : Nat} (inside : i < 8) :
    (packByte bo bits j).getLsbD (if bo then i else 7 - i) = bits.getD (8 * j + i) false := by
  have field := testBit_fieldNat bo (bits := (List.range 8).map fun t => bits.getD (8 * j + t) false) (i := i)
    (by simpa using inside)
  have within : (if bo then i else 7 - i) < 8 := by split <;> omega
  simp only [List.length_map, List.length_range] at field
  rw [packByte, BitVec.getLsbD_ofNat, decide_eq_true within, Bool.true_and]
  exact field.trans (by simp [List.getD_eq_getElem?_getD, inside])

/-- R190, R191: a packed stream reads back bit by bit, and zero bits pad its last byte. -/
theorem streamBit_packBits {bo : Bool} {bits : List Bool} {k : Nat} (inside : k < 8 * (packBits bo bits).length) :
    streamBit bo (packBits bo bits) k = bits.getD k false := by
  have byte : (packBits bo bits).getD (k / 8) 0 = packByte bo bits (k / 8) := by
    have listed : k / 8 < packedLen bits.length := by rw [packBits_length] at inside; omega
    simp [packBits, List.getD_eq_getElem?_getD, listed]
  have bit := packByte_getLsbD bo bits (k / 8) (Nat.mod_lt k (by decide : 8 > 0))
  rw [Nat.div_add_mod] at bit
  rw [streamBit, byte, ← bit]
  cases bo <;> rfl

theorem length_le_packBits (bo : Bool) (bits : List Bool) : bits.length ≤ 8 * (packBits bo bits).length := by
  rw [packBits_length, packedLen_eq]
  omega

/-- A field inside a packed stream stands where it was put. -/
theorem streamBits_packBits (bo : Bool) (before field after : List Bool) :
    streamBits bo (packBits bo (before ++ field ++ after)) before.length field.length = field := by
  refine List.ext_getElem (by simp [streamBits]) fun i _ inside => ?_
  have fits := length_le_packBits bo (before ++ field ++ after)
  simp only [List.length_append] at fits
  simp only [streamBits, List.getElem_map, List.getElem_range]
  rw [streamBit_packBits (by omega)]
  simp [List.getD_eq_getElem?_getD, List.getElem?_append, inside]

/-- R190: GETBITS inverts PUTBITS wherever the field stands. -/
theorem getBits_packBits {bo : Bool} {bits before after : List Bool} {pos v n : Nat}
    (split : bits = before ++ putBits bo v n ++ after) (start : pos = before.length) :
    getBits bo (packBits bo bits) pos n = some (v % 2 ^ n) := by
  subst split start
  have fits := length_le_packBits bo (before ++ putBits bo v n ++ after)
  have stands := streamBits_packBits bo before (putBits bo v n) after
  simp only [List.length_append, putBits_length] at fits stands
  rw [getBits_of_le (by omega), stands, fieldNat_putBits]

/-- Settles O40: each part is a fact about one field or one bit. -/
theorem packedFieldsReadBack : Obligations.PackedFieldsReadBack := by
  refine ⟨fun bs k _ => ?position,
    fun v n i inside => ⟨putBits_getElem? false v inside, putBits_getElem? true v inside⟩,
    putBits_length, fun bo before after v n => getBits_packBits rfl rfl,
    fun bo bits => ⟨(packBits_length bo bits).trans (packedLen_eq _), fun k => streamBit_packBits⟩⟩
  case position =>
    have byte : k >>> 3 = k / 8 := Nat.shiftRight_eq_div_pow k 3
    have bit : k &&& 7 = k % 8 := Nat.and_two_pow_sub_one_eq_mod k 3
    rw [byte, bit]
    exact ⟨rfl, rfl⟩

/-! ## The parameters and the tokens (R192, R193) -/

theorem tokenBits_lit_length (p : LzParams) (x : Byte) : (tokenBits p (.lit x)).length = 9 := by simp [tokenBits]

theorem tokenBits_copy_length (p : LzParams) (dist len : Nat) :
    (tokenBits p (.copy dist len)).length = 1 + p.ob + p.lb := by simp [tokenBits, Nat.add_assoc]

/-- R192: a match of at least MIN bytes is shorter than its literals. -/
theorem matchBits_lt (p : LzParams) : 1 + p.ob + p.lb < 9 * lzMin p := by
  rw [lzMin]
  omega

/-- R101, R192: SETCFG keeps DMAX within the window. -/
theorem lzDistMax_le_window {v : Word} (legal : cfgLegal v = true) :
    lzDistMax (cfgParams v) ≤ 2 ^ (cfgParams v).wb := by
  refine Nat.pow_le_pow_right (by decide) ?_
  simp only [cfgLegal, cfgMisshapen, Bool.and_eq_true, Bool.not_eq_true', Bool.or_eq_false_iff,
    decide_eq_false_iff_not] at legal
  obtain ⟨⟨-, -, inWindow⟩, -⟩ := legal
  exact Nat.le_of_not_lt inWindow

/-- Settles O41: MIN's quotient is the least bound, and the rest are the definitions. -/
theorem lzParametersAreDerivedFromCfg : Obligations.LzParametersAreDerivedFromCfg := by
  refine ⟨fun p => ⟨rfl, matchBits_lt p, fun n below => ?least, tokenBits_lit_length p, tokenBits_copy_length p, rfl,
      rfl⟩,
    fun v => lzDistMax_le_window, by decide⟩
  case least =>
    rw [lzMin] at below
    omega

/-! ## BEST (R194, R195) -/

/-- One turn of BEST's loop: a later start of equal value wins. -/
def pickLater (f : Nat → Nat) (best : Nat × Nat) (j : Nat) : Nat × Nat := if best.1 ≤ f j then (f j, j) else best

/-- The greatest value of `f` at lo to hi - 1, with the last place it stands at. -/
structure LatestMax (f : Nat → Nat) (lo hi : Nat) (best : Nat × Nat) : Prop where
  low : lo ≤ best.2
  high : best.2 < hi
  value : best.1 = f best.2
  greatest : ∀ j, lo ≤ j → j < hi → f j ≤ best.1
  latest : ∀ j, lo ≤ j → j < hi → f j = best.1 → j ≤ best.2

theorem LatestMax.step {f : Nat → Nat} {lo hi : Nat} {best : Nat × Nat} (max : LatestMax f lo hi best) :
    LatestMax f lo (hi + 1) (pickLater f best hi) := by
  obtain ⟨low, high, value, greatest, latest⟩ := max
  unfold pickLater
  split
  case isTrue better =>
    exact ⟨Nat.le_of_lt (Nat.lt_of_le_of_lt low high), Nat.lt_succ_self hi, rfl,
      fun j from_lo below => (Nat.lt_succ_iff_lt_or_eq.mp below).elim
        (fun earlier => Nat.le_trans (greatest j from_lo earlier) better) fun same => same ▸ Nat.le_refl _,
      fun j _ below _ => Nat.le_of_lt_succ below⟩
  case isFalse worse =>
    refine ⟨low, Nat.lt_succ_of_lt high, value, fun j from_lo below => ?_, fun j from_lo below equal => ?_⟩ <;>
      obtain earlier | rfl := Nat.lt_succ_iff_lt_or_eq.mp below
    · exact greatest j from_lo earlier
    · exact Nat.le_of_not_le worse
    · exact latest j from_lo earlier equal
    · exact absurd (Nat.le_of_eq equal.symm) worse

theorem latestMax_foldl (f : Nat → Nat) (lo n : Nat) :
    LatestMax f lo (lo + (n + 1)) ((List.range' lo (n + 1)).foldl (pickLater f) (0, 0)) := by
  induction n with
  | zero =>
    have first : (List.range' lo 1).foldl (pickLater f) (0, 0) = (f lo, lo) := by simp [pickLater]
    rw [first]
    refine ⟨Nat.le_refl lo, Nat.lt_succ_self lo, rfl, fun j from_lo below => ?_,
      fun j _ below _ => Nat.le_of_lt_succ below⟩
    obtain rfl : j = lo := by omega
    exact Nat.le_refl _
  | succ n ih =>
    rw [List.range'_1_concat, List.foldl_append]
    exact ih.step

section Parse

variable {p : LzParams} {inp : List Byte} {i : Nat}

/-- R195: with a start before i, BEST(i) is the longest match, at the latest start. -/
theorem bestMatch_latestMax (p : LzParams) (inp : List Byte) (started : 0 < i) :
    LatestMax (matchLen p inp i) (i - lzDistMax p) i (bestMatch p inp i) := by
  have window : 0 < lzDistMax p := Nat.two_pow_pos _
  obtain ⟨n, count⟩ : ∃ n, i - (i - lzDistMax p) = n + 1 := ⟨i - (i - lzDistMax p) - 1, by omega⟩
  have last : i = i - lzDistMax p + (n + 1) := by omega
  have max := latestMax_foldl (matchLen p inp i) (i - lzDistMax p) n
  rw [← last, ← count] at max
  exact max

/-- R194: the window starts empty. -/
theorem bestMatch_zero (p : LzParams) (inp : List Byte) : bestMatch p inp 0 = (0, 0) := by simp [bestMatch]

/-- BEST(i) is a match that R195 admits. -/
theorem bestMatch_matches (p : LzParams) (inp : List Byte) (started : 0 < i) (inside : i ≤ inp.length) :
    lzMatches p inp i (bestMatch p inp i).2 (bestMatch p inp i).1 := by
  have max := bestMatch_latestMax p inp started
  exact (le_matchLen_iff p inp _ max.high inside).mp (Nat.le_of_eq max.value)

/-- No other start has a longer match, nor an equal one nearer. -/
theorem bestMatch_longest (started : 0 < i) (inside : i ≤ inp.length) {j len : Nat} (window : i - lzDistMax p ≤ j)
    (before : j < i) (found : lzMatches p inp i j len) :
    len ≤ (bestMatch p inp i).1 ∧ (len = (bestMatch p inp i).1 → j ≤ (bestMatch p inp i).2) := by
  have max := bestMatch_latestMax p inp started
  have admitted : len ≤ matchLen p inp i j := (le_matchLen_iff p inp len before inside).mpr found
  have greatest := max.greatest j window before
  exact ⟨Nat.le_trans admitted greatest, fun same => max.latest j window before (by omega)⟩

/-! ## The parse (R195) -/

/-- R195: the byte at i is emitted as a literal. -/
def EmitsLiteral (p : LzParams) (inp : List Byte) (i : Nat) : Prop :=
  (bestMatch p inp i).1 < lzMin p ∨ (i + 1 < inp.length ∧ (bestMatch p inp i).1 < (bestMatch p inp (i + 1)).1)

theorem not_emitsLiteral_iff (p : LzParams) (inp : List Byte) (i : Nat) :
    ¬ EmitsLiteral p inp i ↔ lzMin p ≤ (bestMatch p inp i).1 ∧ lazyDefers p inp i = false := by
  simp only [EmitsLiteral, lazyDefers, not_or, Nat.not_lt, ← Bool.not_eq_true, Bool.and_eq_true, decide_eq_true_eq]

theorem lzParse_of_end (ended : inp.length ≤ i) : lzParse p inp inp.length i = [] :=
  lzParse_turns p inp (n := 0) i (by omega) (by omega)

/-- One turn of the parse, with as many turns left as there are bytes. -/
theorem lzParse_step (inside : i < inp.length) :
    lzParse p inp inp.length i
      = if lzMin p ≤ (bestMatch p inp i).1 ∧ lazyDefers p inp i = false then
          .copy (i - (bestMatch p inp i).2) (bestMatch p inp i).1
            :: lzParse p inp inp.length (i + (bestMatch p inp i).1)
        else .lit (inp.getD i 0) :: lzParse p inp inp.length (i + 1) := by
  rw [lzParse_turns p inp (n := inp.length + 1) i (by omega) (by omega), lzParse, if_pos inside]

theorem lzParse_of_literal (inside : i < inp.length) (literal : EmitsLiteral p inp i) :
    lzParse p inp inp.length i = .lit (inp.getD i 0) :: lzParse p inp inp.length (i + 1) := by
  rw [lzParse_step inside, if_neg fun emits => (not_emitsLiteral_iff p inp i).mpr emits literal]

theorem lzParse_of_match (inside : i < inp.length) (emits : ¬ EmitsLiteral p inp i) :
    lzParse p inp inp.length i = .copy (i - (bestMatch p inp i).2) (bestMatch p inp i).1
      :: lzParse p inp inp.length (i + (bestMatch p inp i).1) := by
  rw [lzParse_step inside, if_pos ((not_emitsLiteral_iff p inp i).mp emits)]

/-- A match's length and distance are among those its fields hold (R193). -/
structure MatchFits (p : LzParams) (dist len : Nat) : Prop where
  dist_pos : 1 ≤ dist
  dist_le : dist ≤ lzDistMax p
  len_ge : lzMin p ≤ len
  len_le : len ≤ lzMax p

/-- A token list that stands for the input from position i on: literals of its bytes, and matches with earlier bytes. -/
inductive LzSpells (p : LzParams) (inp : List Byte) : Nat → List LzToken → Prop where
  | done : LzSpells p inp inp.length []
  | lit {i : Nat} {rest : List LzToken} (inside : i < inp.length) (tail : LzSpells p inp (i + 1) rest) :
      LzSpells p inp i (.lit (inp.getD i 0) :: rest)
  | copy {i dist len : Nat} {rest : List LzToken} (fits : MatchFits p dist len) (back : dist ≤ i)
      (found : lzMatches p inp i (i - dist) len) (tail : LzSpells p inp (i + len) rest) :
      LzSpells p inp i (.copy dist len :: rest)

/-- R193, R194: a best match that is long enough fits the fields of a token. -/
theorem bestMatch_fits (inside : i ≤ inp.length) (long : lzMin p ≤ (bestMatch p inp i).1) :
    MatchFits p (i - (bestMatch p inp i).2) (bestMatch p inp i).1
      ∧ lzMatches p inp i (i - (i - (bestMatch p inp i).2)) (bestMatch p inp i).1 := by
  have least := lzMin_pos p
  have started : 0 < i := Nat.pos_of_ne_zero fun zero => by
    rw [zero, bestMatch_zero] at long
    exact Nat.not_lt_of_le long least
  obtain ⟨low, high, -⟩ := bestMatch_latestMax p inp started
  have found := bestMatch_matches p inp started inside
  refine ⟨⟨by omega, by omega, long, found.1⟩, ?_⟩
  rwa [Nat.sub_sub_self (Nat.le_of_lt high)]

/-- Every parse stands for its input, from whatever position it starts. -/
theorem lzParse_spells (p : LzParams) {inp : List Byte} {i : Nat} (inside : i ≤ inp.length) :
    LzSpells p inp i (lzParse p inp inp.length i) := by
  induction left : inp.length - i using Nat.strong_induction_on generalizing i with
  | _ left ih =>
    obtain ended | more := Nat.eq_or_lt_of_le inside
    · rw [lzParse_of_end (Nat.le_of_eq ended.symm), ended]
      exact .done
    · by_cases literal : EmitsLiteral p inp i
      · rw [lzParse_of_literal more literal]
        exact .lit more (ih _ (by omega) more rfl)
      · obtain ⟨long, -⟩ := (not_emitsLiteral_iff p inp i).mp literal
        obtain ⟨fits, found⟩ := bestMatch_fits inside long
        have least := lzMin_pos p
        have ⟨_, within, _⟩ := found
        rw [lzParse_of_match more literal]
        exact .copy fits (Nat.sub_le _ _) found (ih _ (by omega) within rfl)

theorem LzSpells.match_fits {toks : List LzToken} (spells : LzSpells p inp i toks) {dist len : Nat}
    (listed : .copy dist len ∈ toks) : MatchFits p dist len ∧ dist + len ≤ inp.length := by
  induction spells with
  | done => exact absurd listed List.not_mem_nil
  | lit _ _ ih => exact ih ((List.mem_cons.mp listed).resolve_left nofun)
  | copy fits back found _ ih =>
    obtain here | later := List.mem_cons.mp listed
    · obtain ⟨rfl, rfl⟩ := LzToken.copy.inj here
      have ⟨_, within, _⟩ := found
      exact ⟨fits, by omega⟩
    · exact ih later

/-- R200: no token costs more than 9 bits for each byte it stands for. -/
theorem LzSpells.bits_le {toks : List LzToken} (spells : LzSpells p inp i toks) :
    (toks.flatMap (tokenBits p)).length + 9 * i ≤ 9 * inp.length := by
  induction spells with
  | done => simp
  | lit inside tail ih =>
    rw [List.flatMap_cons, List.length_append, tokenBits_lit_length]
    omega
  | copy fits back found tail ih =>
    have cost := matchBits_lt p
    have long := fits.len_ge
    rw [List.flatMap_cons, List.length_append, tokenBits_copy_length]
    omega

theorem lzParse_zero_spells (p : LzParams) (inp : List Byte) : LzSpells p inp 0 (lzParse p inp inp.length 0) :=
  lzParse_spells p (Nat.zero_le _)

theorem lzEncode_length_le (p : LzParams) (inp : List Byte) : (lzEncode p inp).length ≤ 9 * inp.length :=
  (lzParse_zero_spells p inp).bits_le

end Parse

/-- Settles O43: the bound holds under every parameter, as MIN follows from OB and LB. -/
theorem lzEncodingIsBounded : Obligations.LzEncodingIsBounded := fun v inp _ => lzEncode_length_le (cfgParams v) inp

theorem tokenBits_wb (p : LzParams) (wb : Nat) : tokenBits { p with wb := wb } = tokenBits p := by
  funext tok
  cases tok <;> rfl

/-- The encoding does not read WB either (R192, R194). -/
theorem lzEncode_wb (p : LzParams) (wb : Nat) (inp : List Byte) :
    lzEncode { p with wb := wb } inp = lzEncode p inp := by
  rw [lzEncode, lzEncode, lzParse_wb, tokenBits_wb]

/-- The input of R203's example, "ababcbababc". -/
def regressionText : List Byte := [0x61, 0x62, 0x61, 0x62, 0x63, 0x62, 0x61, 0x62, 0x61, 0x62, 0x63]

theorem lzParse_regressionText (bo : Bool) :
    lzParse ⟨bo, 13, 13, 8⟩ regressionText regressionText.length 0
      = [.lit 0x61, .lit 0x62, .lit 0x61, .lit 0x62, .lit 0x63, .lit 0x62, .copy 6 5] := by
  revert bo
  decide +kernel

theorem lzEncode_regressionText_length (bo : Bool) : (lzEncode ⟨bo, 13, 13, 8⟩ regressionText).length = 76 := by
  rw [lzEncode, lzParse_regressionText]
  simp [tokenBits_lit_length, tokenBits_copy_length]

theorem packBits_regressionText :
    packBits false (lzEncode ⟨false, 13, 13, 8⟩ regressionText)
      = [0x30, 0x98, 0x8C, 0x26, 0x23, 0x19, 0x8A, 0x00, 0x50, 0x20] := by
  rw [lzEncode, lzParse_regressionText]
  decide +kernel

/-- Settles O44: the parse and BEST by their rules, and R203's example under WB = 13, which stands for every WB. -/
theorem lzMatchesFitTheirFields : Obligations.LzMatchesFitTheirFields := by
  refine ⟨fun p inp dist len listed => ?fits,
    fun p inp => ⟨by rw [bestMatch_zero], fun i started inside => ?best⟩,
    fun p inp => ⟨rfl, fun i => lzParse_of_end, fun i inside => ⟨lzParse_of_literal inside, lzParse_of_match inside⟩⟩,
    fun p x dist len => ?tokens, fun bo wb => ?regression⟩
  case fits =>
    obtain ⟨⟨dist_pos, dist_le, len_ge, len_le⟩, within⟩ := (lzParse_zero_spells p inp).match_fits listed
    exact ⟨len_ge, len_le, dist_pos, dist_le, within⟩
  case best =>
    obtain ⟨low, high, -⟩ := bestMatch_latestMax p inp started
    exact ⟨low, high, bestMatch_matches p inp started inside,
      fun j len window before found => bestMatch_longest started inside window before found⟩
  case tokens =>
    cases bo : p.bo <;> simp [tokenBits, putBits, bo]
  case regression =>
    have anyWindow : lzEncode ⟨bo, wb, 13, 8⟩ regressionText = lzEncode ⟨bo, 13, 13, 8⟩ regressionText :=
      lzEncode_wb ⟨bo, 13, 13, 8⟩ wb regressionText
    have size := (congrArg List.length anyWindow).trans (lzEncode_regressionText_length bo)
    refine ⟨(lzParse_wb ⟨bo, 13, 13, 8⟩ wb regressionText _ 0).trans (lzParse_regressionText bo), size, ?_, ?_⟩
    · exact (packBits_length _ _).trans (congrArg packedLen size)
    · rintro rfl
      exact (congrArg (packBits false) anyWindow).trans packBits_regressionText

/-! ## The token reader (R193, R196) -/

section Reader

variable {p : LzParams} {src : List Byte} {pos : Nat}

theorem lzReadToken_past (past : 8 * src.length ≤ pos) : lzReadToken p src pos = none := by
  rw [lzReadToken, getBits_of_gt (Nat.lt_succ_of_le past)]

theorem lzReadToken_of_lit {x : Nat} (flag : getBits p.bo src pos 1 = some 0)
    (byte : getBits p.bo src (pos + 1) 8 = some x) :
    lzReadToken p src pos = some (.lit (BitVec.ofNat 8 x), pos + 9) := by
  rw [lzReadToken, flag, byte]
  rfl

theorem lzReadToken_of_copy {d l : Nat} (flag : getBits p.bo src pos 1 = some 1)
    (offset : getBits p.bo src (pos + 1) p.ob = some d) (length : getBits p.bo src (pos + 1 + p.ob) p.lb = some l) :
    lzReadToken p src pos = some (.copy (d + 1) (l + lzMin p), pos + 1 + p.ob + p.lb) := by
  rw [lzReadToken, flag, offset, length]
  rfl

theorem lzReadToken_literal_short (short : 8 * src.length < pos + 9) (inside : pos < 8 * src.length)
    (flag : streamBit p.bo src pos = false) : lzReadToken p src pos = none := by
  rw [lzReadToken, getBits_one inside, flag, getBits_of_gt (show 8 * src.length < pos + 1 + 8 by omega)]
  rfl

theorem lzReadToken_literal_whole (whole : pos + 9 ≤ 8 * src.length) (flag : streamBit p.bo src pos = false) :
    ∃ x, getBits p.bo src (pos + 1) 8 = some x ∧ lzReadToken p src pos = some (.lit (BitVec.ofNat 8 x), pos + 9) := by
  have bit := getBits_one (bo := p.bo) (show pos < 8 * src.length by omega)
  have byte := getBits_of_le (bo := p.bo) (show pos + 1 + 8 ≤ 8 * src.length by omega)
  rw [flag] at bit
  exact ⟨_, byte, lzReadToken_of_lit bit byte⟩

theorem lzReadToken_match_short (short : 8 * src.length < pos + 1 + p.ob + p.lb) (inside : pos < 8 * src.length)
    (flag : streamBit p.bo src pos = true) : lzReadToken p src pos = none := by
  rw [lzReadToken, getBits_one inside, flag, getBits_of_gt short]
  cases getBits p.bo src (pos + 1) p.ob <;> rfl

theorem lzReadToken_match_whole (whole : pos + 1 + p.ob + p.lb ≤ 8 * src.length)
    (flag : streamBit p.bo src pos = true) :
    ∃ d l, getBits p.bo src (pos + 1) p.ob = some d ∧ getBits p.bo src (pos + 1 + p.ob) p.lb = some l
      ∧ lzReadToken p src pos = some (.copy (d + 1) (l + lzMin p), pos + 1 + p.ob + p.lb) := by
  have bit := getBits_one (bo := p.bo) (show pos < 8 * src.length by omega)
  have offset := getBits_of_le (bo := p.bo) (show pos + 1 + p.ob ≤ 8 * src.length by omega)
  have length := getBits_of_le (bo := p.bo) whole
  rw [flag] at bit
  exact ⟨_, _, offset, length, lzReadToken_of_copy bit offset length⟩

/-- A token that is read ends inside the stream. -/
theorem lzReadToken_next_le {tok : LzToken} {next : Nat} (read : lzReadToken p src pos = some (tok, next)) :
    next ≤ 8 * src.length := by
  obtain inside | past := Nat.lt_or_ge pos (8 * src.length)
  case inr => simp [lzReadToken_past past] at read
  cases flag : streamBit p.bo src pos with
  | false =>
    obtain short | whole := Nat.lt_or_ge (8 * src.length) (pos + 9)
    · simp [lzReadToken_literal_short short inside flag] at read
    · obtain ⟨x, -, token⟩ := lzReadToken_literal_whole whole flag
      obtain ⟨-, rfl⟩ := Prod.mk.inj (Option.some.inj (token.symm.trans read))
      exact whole
  | true =>
    obtain short | whole := Nat.lt_or_ge (8 * src.length) (pos + 1 + p.ob + p.lb)
    · simp [lzReadToken_match_short short inside flag] at read
    · obtain ⟨d, l, -, -, token⟩ := lzReadToken_match_whole whole flag
      obtain ⟨-, rfl⟩ := Prod.mk.inj (Option.some.inj (token.symm.trans read))
      exact whole

/-- A literal inside a packed stream is read back. -/
theorem lzReadToken_packed_lit (p : LzParams) (before after : List Bool) (x : Byte) :
    lzReadToken p (packBits p.bo (before ++ tokenBits p (.lit x) ++ after)) before.length
      = some (.lit x, before.length + 9) := by
  have tok : before ++ tokenBits p (.lit x) ++ after
      = before ++ putBits p.bo 0 1 ++ putBits p.bo x.toNat 8 ++ after := by simp only [tokenBits, List.append_assoc]
  have flag := getBits_packBits (tok.trans (List.append_assoc _ _ _)) rfl
  have byte := getBits_packBits (pos := before.length + 1) tok (by simp)
  have value : x.toNat % 2 ^ 8 = x.toNat := Nat.mod_eq_of_lt x.isLt
  rw [lzReadToken_of_lit flag byte, value, BitVec.ofNat_toNat, BitVec.setWidth_eq]

/-- A match inside a packed stream is read back, when its fields hold it. -/
theorem lzReadToken_packed_copy {dist len : Nat} (fits : MatchFits p dist len) (before after : List Bool) :
    lzReadToken p (packBits p.bo (before ++ tokenBits p (.copy dist len) ++ after)) before.length
      = some (.copy dist len, before.length + (1 + p.ob + p.lb)) := by
  obtain ⟨dist_pos, dist_le, len_ge, len_le⟩ := fits
  have tok : before ++ tokenBits p (.copy dist len) ++ after
      = before ++ putBits p.bo 1 1 ++ putBits p.bo (dist - 1) p.ob ++ putBits p.bo (len - lzMin p) p.lb ++ after := by
    simp only [tokenBits, List.append_assoc]
  have upToOffset := tok.trans (List.append_assoc _ _ _)
  have flag := getBits_packBits (upToOffset.trans (List.append_assoc _ _ _)) rfl
  have offset := getBits_packBits (pos := before.length + 1) upToOffset
    (by simp only [List.length_append, putBits_length])
  have length := getBits_packBits (pos := before.length + 1 + p.ob) tok
    (by simp only [List.length_append, putBits_length])
  have offsetValue : (dist - 1) % 2 ^ p.ob = dist - 1 := by
    rw [lzDistMax] at dist_le
    exact Nat.mod_eq_of_lt (by omega)
  have lengthValue : (len - lzMin p) % 2 ^ p.lb = len - lzMin p := by
    rw [lzMax] at len_le
    have := Nat.two_pow_pos p.lb
    exact Nat.mod_eq_of_lt (by omega)
  rw [lzReadToken_of_copy flag offset length, offsetValue, lengthValue, Nat.sub_add_cancel dist_pos,
    Nat.sub_add_cancel len_ge]
  simp only [Nat.add_assoc]

end Reader

/-! ## The decoder's loop (R196) -/

/-- The decoder from a stream position, with the bytes produced so far, the newest first. -/
def lzDecodeFrom (p : LzParams) (src : List Byte) (total pos : Nat) (out : List Byte) : LzEnd :=
  lzDecodeLoop p src total total pos out

/-- What a match copy appends: each byte is the one `dist` before it (R196). -/
theorem copyBack_repeats {dist : Nat} (dist_pos : 1 ≤ dist) (len : Nat) {out : List Byte} (back : dist ≤ out.length) :
    ∃ copied : List Byte, copied.length = len ∧ copyBack dist len out = copied ++ out
      ∧ ∀ t < len, (copied ++ out).reverse[out.length + t]? = (copied ++ out).reverse[out.length + t - dist]? := by
  induction len generalizing out with
  | zero => exact ⟨[], rfl, rfl, fun t below => absurd below (Nat.not_lt_zero t)⟩
  | succ len ih =>
    obtain ⟨copied, length, copies, repeats⟩ := ih (out := out.getD (dist - 1) 0 :: out) (Nat.le_succ_of_le back)
    have regroup : copied ++ [out.getD (dist - 1) 0] ++ out = copied ++ out.getD (dist - 1) 0 :: out := by simp
    refine ⟨copied ++ [out.getD (dist - 1) 0], by simp [length], by rw [copyBack, copies, regroup], fun t below => ?_⟩
    rw [regroup]
    cases t with
    | zero =>
      have source : out.length - 1 - (out.length - dist) = dist - 1 := by omega
      have inside : out.length - dist < out.length := by omega
      have listed : dist - 1 < out.length := by omega
      simp [List.getElem?_append, source, inside, listed]
    | succ t =>
      have later := repeats t (Nat.lt_of_succ_lt_succ below)
      rwa [List.length_cons, Nat.add_right_comm, Nat.add_assoc] at later

section Loop

variable {p : LzParams} {src : List Byte} {total pos : Nat} {out : List Byte}

theorem lzDecodeFrom_of_done (full : total ≤ out.length) : lzDecodeFrom p src total pos out = .ok pos out :=
  lzDecodeLoop_turns p src total (n := 0) pos out (by omega) (by omega)

/-- One turn of the loop, with as many turns left as there are bytes asked for. -/
theorem lzDecodeFrom_step (more : out.length < total) :
    lzDecodeFrom p src total pos out =
      match lzReadToken p src pos with
      | none => .failed .truncatedInput pos out
      | some (.lit x, next) => lzDecodeFrom p src total next (x :: out)
      | some (.copy dist len, next) =>
        if out.length < dist ∨ total < out.length + len then .failed .codec pos out
        else lzDecodeFrom p src total next (copyBack dist len out) := by
  rw [lzDecodeFrom, lzDecodeLoop_turns p src total (n := total + 1) pos out (by omega) (by omega), lzDecodeLoop,
    if_pos more]
  rfl

theorem lzDecodeFrom_of_truncated (more : out.length < total) (ended : lzReadToken p src pos = none) :
    lzDecodeFrom p src total pos out = .failed .truncatedInput pos out := by
  rw [lzDecodeFrom_step more, ended]

theorem lzDecodeFrom_of_lit (more : out.length < total) {x : Byte} {next : Nat}
    (read : lzReadToken p src pos = some (.lit x, next)) :
    lzDecodeFrom p src total pos out = lzDecodeFrom p src total next (x :: out) := by
  rw [lzDecodeFrom_step more, read]

theorem lzDecodeFrom_of_corrupt (more : out.length < total) {dist len next : Nat}
    (read : lzReadToken p src pos = some (.copy dist len, next))
    (corrupt : out.length < dist ∨ total < out.length + len) :
    lzDecodeFrom p src total pos out = .failed .codec pos out := by
  rw [lzDecodeFrom_step more, read]
  exact if_pos corrupt

theorem lzDecodeFrom_of_copy (more : out.length < total) {dist len next : Nat}
    (read : lzReadToken p src pos = some (.copy dist len, next)) (back : dist ≤ out.length)
    (room : out.length + len ≤ total) :
    lzDecodeFrom p src total pos out = lzDecodeFrom p src total next (copyBack dist len out) := by
  rw [lzDecodeFrom_step more, read]
  exact if_neg (by omega)

/-- Every end the decoder may come to (R196, R201). -/
def LzEndFits (p : LzParams) (src : List Byte) (total : Nat) : LzEnd → Prop
  | .ok pos out => out.length = total ∧ pos ≤ 8 * src.length
  | .failed e start out =>
    ((e = .truncatedInput ∧ lzReadToken p src start = none)
      ∨ (e = .codec ∧ ∃ dist len next, lzReadToken p src start = some (.copy dist len, next)
          ∧ (out.length < dist ∨ total < out.length + len)))
      ∧ out.length < total ∧ start ≤ 8 * src.length

/-- R196: N bytes and the bits consumed, or the failing token and the reason it fails. -/
theorem lzDecodeFrom_fits (inside : pos ≤ 8 * src.length) (bounded : out.length ≤ total) :
    LzEndFits p src total (lzDecodeFrom p src total pos out) := by
  induction left : total - out.length using Nat.strong_induction_on generalizing pos out with
  | _ left ih =>
    obtain full | more := Nat.eq_or_lt_of_le bounded
    · rw [lzDecodeFrom_of_done (Nat.le_of_eq full.symm)]
      exact ⟨full, inside⟩
    · cases read : lzReadToken p src pos with
      | none =>
        rw [lzDecodeFrom_of_truncated more read]
        exact ⟨.inl ⟨rfl, read⟩, more, inside⟩
      | some token =>
        obtain ⟨tok, next⟩ := token
        have next_le := lzReadToken_next_le read
        cases tok with
        | lit x =>
          rw [lzDecodeFrom_of_lit more read]
          exact ih _ (by rw [List.length_cons]; omega) next_le more rfl
        | copy dist len =>
          by_cases corrupt : out.length < dist ∨ total < out.length + len
          · rw [lzDecodeFrom_of_corrupt more read corrupt]
            exact ⟨.inr ⟨rfl, dist, len, next, read, corrupt⟩, more, inside⟩
          · have least := lzMin_pos p
            have long := (lzReadToken_copy read).2
            rw [lzDecodeFrom_of_copy more read (by omega) (by omega)]
            exact ih _ (by rw [copyBack_length]; omega) next_le (by rw [copyBack_length]; omega) rfl

end Loop

/-! ## Decoding an encoding (R202) -/

section RoundTrip

variable {p : LzParams} {inp : List Byte} {i : Nat}

/-- Copying a match appends the input's next bytes. -/
theorem copyBack_of_matches {dist len : Nat} (dist_pos : 1 ≤ dist) (back : dist ≤ i) (within : i + len ≤ inp.length)
    (same : ∀ t < len, inp.getD (i - dist + t) 0 = inp.getD (i + t) 0) :
    copyBack dist len (inp.take i).reverse = (inp.take (i + len)).reverse := by
  induction len generalizing i with
  | zero => rfl
  | succ len ih =>
    have inside : i < inp.length := by omega
    have byte : (inp.take i).reverse.getD (dist - 1) 0 = inp[i] := by
      have source : i - 1 - (dist - 1) = i - dist := by omega
      have listed : (inp.take i).length = i := List.length_take_of_le (Nat.le_of_lt inside)
      have first := same 0 (Nat.succ_pos len)
      simp only [Nat.add_zero, List.getD_eq_getElem?_getD, List.getElem?_eq_getElem inside, Option.getD_some] at first
      rw [List.getD_eq_getElem?_getD, List.getElem?_reverse (by omega), listed, source,
        List.getElem?_take_of_lt (by omega), first]
    have shown : inp[i] :: (inp.take i).reverse = (inp.take (i + 1)).reverse := by
      rw [List.take_succ_eq_append_getElem inside, List.reverse_append]
      rfl
    rw [copyBack, byte, shown, ih (by omega) (by omega) fun t below => ?_, Nat.add_right_comm, Nat.add_assoc]
    have next := same (t + 1) (Nat.succ_lt_succ below)
    rwa [show i - dist + (t + 1) = i + 1 - dist + t by omega, show i + (t + 1) = i + 1 + t by omega] at next

/-- The decoder takes tokens that spell the input from i on back to the input, wherever they stand in a stream. -/
theorem LzSpells.decodes {toks : List LzToken} (spells : LzSpells p inp i toks) (inside : i ≤ inp.length)
    (before : List Bool) :
    lzDecodeFrom p (packBits p.bo (before ++ toks.flatMap (tokenBits p))) inp.length before.length (inp.take i).reverse
      = .ok (before ++ toks.flatMap (tokenBits p)).length inp.reverse := by
  induction spells generalizing before with
  | done => rw [lzDecodeFrom_of_done (by simp)]; simp
  | @lit i rest below tail ih =>
    have produced : (inp.take i).reverse.length = i := by simp [inside]
    have shown : inp.getD i 0 :: (inp.take i).reverse = (inp.take (i + 1)).reverse := by
      rw [List.take_succ_eq_append_getElem below, List.reverse_append]
      simp [below]
    have decoded := ih below (before ++ tokenBits p (.lit (inp.getD i 0)))
    rw [List.length_append, tokenBits_lit_length] at decoded
    rw [List.flatMap_cons, ← List.append_assoc,
      lzDecodeFrom_of_lit (by omega) (lzReadToken_packed_lit p before _ _), shown, decoded]
  | @copy i dist len rest fits back found tail ih =>
    have produced : (inp.take i).reverse.length = i := by simp [inside]
    have least := lzMin_pos p
    have long := fits.len_ge
    obtain ⟨-, within, same⟩ := found
    have decoded := ih within (before ++ tokenBits p (.copy dist len))
    rw [List.length_append, tokenBits_copy_length] at decoded
    rw [List.flatMap_cons, ← List.append_assoc,
      lzDecodeFrom_of_copy (by omega) (lzReadToken_packed_copy fits before _) (by omega) (by omega),
      copyBack_of_matches fits.dist_pos back within same, decoded]

/-- R202 on byte lists. -/
theorem lzDecode_lzEncode (p : LzParams) (inp : List Byte) :
    lzDecode p (packBits p.bo (lzEncode p inp)) inp.length = .ok (lzEncode p inp).length inp.reverse :=
  (lzParse_zero_spells p inp).decodes (Nat.zero_le _) []

end RoundTrip

/-! ## The commands (R200, R201) -/

/-- `{hi[31:0], lo[31:0]}` as a number (R9). -/
theorem toNat_pair32 (hi lo : Nat) : (pair32 hi lo).toNat = hi % 2 ^ 32 * 2 ^ 32 + lo % 2 ^ 32 := by
  rw [pair32, BitVec.toNat_append, BitVec.toNat_ofNat, BitVec.toNat_ofNat,
    ← Nat.shiftLeft_add_eq_or_of_lt (Nat.mod_lt lo (Nat.two_pow_pos 32)), Nat.shiftLeft_eq]

theorem pair32_eq_ofNat (hi : Nat) {lo : Nat} (low : lo < 2 ^ 32) :
    pair32 hi lo = BitVec.ofNat 64 (hi * 2 ^ 32 + lo) := by
  apply BitVec.eq_of_toNat_eq
  rw [toNat_pair32, BitVec.toNat_ofNat]
  omega

section Commands

variable {s t : State}

/-- The regions of LZ_COMP and LZ_DECOMP pass their checks (R200, R201). -/
structure LzRegionsFit (s : State) : Prop where
  source : f0 s.a0 + f1 s.a0 ≤ 65536
  dest : f2 s.a0 + f3 s.a0 ≤ 65536
  apart : ∀ a, ¬ ((lzSource s).has a ∧ (lzDest s).has a)

theorem firstError_lzChecks_none_iff (s : State) : firstError (lzChecks s) = none ↔ LzRegionsFit s := by
  have disjoint : regionsOverlap (lzSource s) (lzDest s) = false ↔ ∀ a, ¬ ((lzSource s).has a ∧ (lzDest s).has a) := by
    rw [← Bool.not_eq_true, regionsOverlap_iff, not_exists]
    rfl
  simp only [firstError_none_iff, lzChecks, List.forall_mem_cons, Bool.not_eq_false', regionInBounds_iff, disjoint]
  exact ⟨fun ⟨source, dest, apart, _⟩ => ⟨source, dest, apart⟩,
    fun ⟨source, dest, apart⟩ => ⟨source, dest, apart, nofun⟩⟩

/-- The bits of the encoding that LZ_COMP makes in a state. -/
def lzCompBits (s : State) : List Bool := lzEncode (cfgParams s.cfg) (memRead s (f0 s.a0) (f1 s.a0))

theorem lzCompBits_length_lt (s : State) : (lzCompBits s).length < 9 * 65536 := by
  have bound := lzEncode_length_le (cfgParams s.cfg) (memRead s (f0 s.a0) (f1 s.a0))
  have source := f1_lt s.a0
  rw [memRead_length] at bound
  exact Nat.lt_of_le_of_lt bound (by omega)

/-- RES with the sizes of the encoding (R200). -/
def lzCompSized (s : State) : State :=
  { s with res := pair32 (lzCompBits s).length (packedLen (lzCompBits s).length) }

/-- LZ_COMP past its checks (R200). -/
def lzCompEnd (s : State) : State :=
  if f3 s.a0 < packedLen (lzCompBits s).length then
    raiseErr .bounds (lzCompSized s)
  else
    complete (memWrite (lzCompSized s) (f2 s.a0) (packBits (cfgParams s.cfg).bo (lzCompBits s)))

theorem exec_lzComp (s : State) : exec .lzComp s = checked (lzChecks s) s lzCompEnd := rfl

theorem exec_lzComp_of_fits (fits : LzRegionsFit s) : exec .lzComp s = .next (lzCompEnd s) :=
  (exec_lzComp s).trans (checked_of_none ((firstError_lzChecks_none_iff s).mpr fits) s _)

theorem lzCompEnd_of_room (room : packedLen (lzCompBits s).length ≤ f3 s.a0) :
    lzCompEnd s = complete (memWrite (lzCompSized s) (f2 s.a0) (packBits (cfgParams s.cfg).bo (lzCompBits s))) :=
  if_neg (Nat.not_lt_of_le room)

theorem lzCompEnd_of_tooLong (tooLong : f3 s.a0 < packedLen (lzCompBits s).length) :
    lzCompEnd s = raiseErr .bounds (lzCompSized s) :=
  if_pos tooLong

/-- R200: an LZ_COMP without an error passed its checks, and its output fits. -/
theorem lzComp_succeeds (run : exec .lzComp s = .next t) (good : t.err = 0) :
    LzRegionsFit s ∧ packedLen (lzCompBits s).length ≤ f3 s.a0 ∧ t = lzCompEnd s := by
  rw [exec_lzComp] at run
  obtain ⟨passed, rfl⟩ := checked_succeeds run good
  refine ⟨(firstError_lzChecks_none_iff s).mp passed, Nat.le_of_not_lt fun tooLong => ?_, rfl⟩
  rw [lzCompEnd_of_tooLong tooLong] at good
  exact errCode_ne_zero .bounds good

/-- How LZ_DECOMP's decoder ends in a state. -/
def lzDecompRun (s : State) : LzEnd := lzDecode (cfgParams s.cfg) (memRead s (f0 s.a0) (f1 s.a0)) (f3 s.a0)

theorem exec_lzDecomp_of_ok (fits : LzRegionsFit s) {pos : Nat} {out : List Byte} (run : lzDecompRun s = .ok pos out) :
    exec .lzDecomp s
      = .next (complete { memWrite s (f2 s.a0) out.reverse with res := pair32 pos (f3 s.a0) }) := by
  have ended : lzDecode (cfgParams s.cfg) (regionRead s (lzSource s)) (f3 s.a0) = .ok pos out := run
  rw [exec, execLzDecomp, checked_of_none ((firstError_lzChecks_none_iff s).mpr fits), ended]

theorem exec_lzDecomp_of_failed (fits : LzRegionsFit s) {e : Err} {start : Nat} {out : List Byte}
    (run : lzDecompRun s = .failed e start out) :
    exec .lzDecomp s
      = .next (raiseErr e { memWrite s (f2 s.a0) out.reverse with res := pair32 start out.length }) := by
  have ended : lzDecode (cfgParams s.cfg) (regionRead s (lzSource s)) (f3 s.a0) = .failed e start out := run
  rw [exec, execLzDecomp, checked_of_none ((firstError_lzChecks_none_iff s).mpr fits), ended]

theorem lzDecompRun_fits (s : State) :
    LzEndFits (cfgParams s.cfg) (memRead s (f0 s.a0) (f1 s.a0)) (f3 s.a0) (lzDecompRun s) :=
  lzDecodeFrom_fits (Nat.zero_le _) (Nat.zero_le _)

/-- A state whose BUF is another's with `bs` written at `b` holds `bs` there, and the other's bytes elsewhere. -/
theorem stored_of_memWrite {b n : Nat} {bs : List Byte} (length : bs.length = n) (mem : t.mem = memPut s.mem b bs)
    (resets : t.resets = s.resets) :
    memRead t b n = bs ∧ ∀ a, ¬ (b ≤ a ∧ a < b + n) → bufByte t a = bufByte s a := by
  subst length
  have alike : ∀ a, bufByte t a = bufByte (memWrite s b bs) a := bufByte_congr (s := memWrite s b bs) mem resets
  refine ⟨(memRead_congr fun a _ _ => alike a).trans (memRead_memWrite_self s b bs), fun a outside => ?_⟩
  rw [alike, bufByte_memWrite, if_neg outside]

/-- Everything an LZ_COMP past its checks ends with (R200), its encoding being `bits` of `nbytes` bytes. -/
theorem lzComp_ends (fits : LzRegionsFit s) {bits : List Bool} (encoded : lzCompBits s = bits) {nbytes : Nat}
    (size : packedLen bits.length = nbytes) :
    (nbytes ≤ f3 s.a0 → ∃ t, exec .lzComp s = .next t
      ∧ t = { s with mem := t.mem, res := BitVec.ofNat 64 (bits.length * 2 ^ 32 + nbytes), err := 0 }
      ∧ memRead t (f2 s.a0) nbytes = packBits (cfgParams s.cfg).bo bits
      ∧ ∀ a, ¬ (f2 s.a0 ≤ a ∧ a < f2 s.a0 + nbytes) → bufByte t a = bufByte s a)
    ∧ (f3 s.a0 < nbytes → exec .lzComp s = .next
        { s with res := BitVec.ofNat 64 (bits.length * 2 ^ 32 + nbytes), err := 7, sticky := s.sticky ||| 0x40 }) := by
  have bound := lzCompBits_length_lt s
  rw [encoded] at bound
  have small : nbytes < 2 ^ 32 := by rw [← size, packedLen_eq]; omega
  have written : (packBits (cfgParams s.cfg).bo bits).length = nbytes := (packBits_length _ _).trans size
  have sized : lzCompSized s = { s with res := pair32 bits.length nbytes } := by rw [lzCompSized, encoded, size]
  rw [exec_lzComp_of_fits fits, ← pair32_eq_ofNat _ small]
  refine ⟨fun room => ?fit, fun tooLong => ?noFit⟩
  case fit =>
    rw [lzCompEnd_of_room (by rwa [encoded, size]), sized, encoded]
    exact ⟨_, rfl, rfl, stored_of_memWrite written rfl rfl⟩
  case noFit =>
    rw [lzCompEnd_of_tooLong (by rwa [encoded, size]), sized]
    rfl

/-- R201: an LZ_DECOMP that succeeds. -/
theorem lzDecomp_ends_ok (fits : LzRegionsFit s) {pos : Nat} {out : List Byte} (run : lzDecompRun s = .ok pos out) :
    out.length = f3 s.a0 ∧ pos ≤ 8 * f1 s.a0 ∧ ∃ t, exec .lzDecomp s = .next t
      ∧ t = { s with mem := t.mem, res := BitVec.ofNat 64 (pos * 2 ^ 32 + f3 s.a0), err := 0 }
      ∧ memRead t (f2 s.a0) (f3 s.a0) = out.reverse ∧ ∀ a, ¬ (lzDest s).has a → bufByte t a = bufByte s a := by
  have ends := lzDecompRun_fits s
  rw [run] at ends
  obtain ⟨length, inside⟩ := ends
  rw [memRead_length] at inside
  have total := f3_lt s.a0
  rw [exec_lzDecomp_of_ok fits run, pair32_eq_ofNat pos (by omega)]
  exact ⟨length, inside, _, rfl, rfl, stored_of_memWrite (List.length_reverse.trans length) rfl rfl⟩

/-- R201: an LZ_DECOMP that fails. -/
theorem lzDecomp_ends_failed (fits : LzRegionsFit s) {e : Err} {start : Nat} {out : List Byte}
    (run : lzDecompRun s = .failed e start out) :
    LzEndFits (cfgParams s.cfg) (memRead s (f0 s.a0) (f1 s.a0)) (f3 s.a0) (.failed e start out)
      ∧ start ≤ 8 * f1 s.a0 ∧ ∃ t, exec .lzDecomp s = .next t
      ∧ t = { s with
          mem := t.mem, res := BitVec.ofNat 64 (start * 2 ^ 32 + out.length), err := errCode e,
          sticky := s.sticky ||| stickyBit e }
      ∧ memRead t (f2 s.a0) out.length = out.reverse
      ∧ ∀ a, ¬ (f2 s.a0 ≤ a ∧ a < f2 s.a0 + out.length) → bufByte t a = bufByte s a := by
  have ends := lzDecompRun_fits s
  rw [run] at ends
  have ⟨_, short, inside⟩ := ends
  rw [memRead_length] at inside
  have total := f3_lt s.a0
  rw [exec_lzDecomp_of_failed fits run, pair32_eq_ofNat start (by omega)]
  exact ⟨ends, inside, _, rfl, rfl, stored_of_memWrite List.length_reverse rfl rfl⟩

end Commands

/-- Settles O42: the two ends of LZ_COMP. -/
theorem lzCompWritesAllOrNothing : Obligations.LzCompWritesAllOrNothing :=
  fun _ source dest apart => lzComp_ends ⟨source, dest, apart⟩ rfl (packedLen_eq _)

/-- Settles O45: LZ_DECOMP's two ends, the loop turn by turn, and the token reader. -/
theorem lzDecompWritesWhatItDecodes : Obligations.LzDecompWritesWhatItDecodes := by
  refine ⟨fun s source dest apart =>
      ⟨fun pos out => lzDecomp_ends_ok ⟨source, dest, apart⟩, fun e start out run => ?failed⟩,
    fun p src total => ⟨rfl, fun pos out => ⟨lzDecodeFrom_of_done, fun more =>
      ⟨lzDecodeFrom_of_truncated more, fun x next => lzDecodeFrom_of_lit more, fun dist len next read =>
        ⟨lzDecodeFrom_of_corrupt more read, fun back room => ?copies⟩⟩⟩⟩,
    fun p src pos => ⟨lzReadToken_past, fun inside flag =>
      ⟨fun short => lzReadToken_literal_short short inside flag, fun whole => lzReadToken_literal_whole whole flag⟩,
      fun inside flag =>
      ⟨fun short => lzReadToken_match_short short inside flag, fun whole => lzReadToken_match_whole whole flag⟩⟩⟩
  case failed =>
    obtain ⟨⟨reason, short, -⟩, inside, stored⟩ := lzDecomp_ends_failed ⟨source, dest, apart⟩ run
    exact ⟨reason, short, inside, stored⟩
  case copies =>
    obtain ⟨copied, length, copies, repeats⟩ := copyBack_repeats (lzReadToken_copy read).1 len back
    exact ⟨copied, length, copies ▸ lzDecodeFrom_of_copy more read back room, repeats⟩

/-- R202: LZ_DECOMP's regions for LZ_COMP's output, and what its decoder makes of it. -/
theorem lzDecomp_after_lzComp {s t : State} {x : DWord} (run : exec .lzComp s = .next t) (good : t.err = 0)
    (base : f0 x = f2 s.a0) (len : f1 x = t.res.toNat % 2 ^ 32) (total : f3 x = f1 s.a0) :
    f0 x + f1 x ≤ 65536 ∧ lzDecompRun { t with a0 := x }
      = .ok (t.res.toNat / 2 ^ 32) (memRead s (f0 s.a0) (f1 s.a0)).reverse := by
  obtain ⟨fits, room, -⟩ := lzComp_succeeds run good
  obtain ⟨bits, encoded⟩ : ∃ bits, lzCompBits s = bits := ⟨_, rfl⟩
  rw [encoded] at room
  obtain ⟨t', ends, regs, stored, -⟩ := (lzComp_ends fits encoded rfl).1 room
  obtain rfl := Host.Outcome.next.inj (ends.symm.trans run)
  have bound := lzCompBits_length_lt s
  have dest := fits.dest
  have capacity := f3_lt s.a0
  have res : t'.res.toNat = bits.length * 2 ^ 32 + packedLen bits.length := by
    rw [encoded] at bound
    rw [congrArg State.res regs, BitVec.toNat_ofNat, Nat.mod_eq_of_lt (by omega)]
  have size : f1 x = packedLen bits.length := by omega
  have nbits : t'.res.toNat / 2 ^ 32 = bits.length := by omega
  have cfg : t'.cfg = s.cfg := (exec_updates run).keepsOthers.cfg nofun nofun
  have source : memRead { t' with a0 := x } (f2 s.a0) (packedLen bits.length) = packBits (cfgParams s.cfg).bo bits :=
    (memRead_congr (s := t') (t := { t' with a0 := x }) fun _ _ _ => rfl).trans stored
  have inverse := lzDecode_lzEncode (cfgParams s.cfg) (memRead s (f0 s.a0) (f1 s.a0))
  rw [memRead_length] at inverse
  refine ⟨by omega, ?_⟩
  change lzDecode (cfgParams t'.cfg) (memRead { t' with a0 := x } (f0 x) (f1 x)) (f3 x) = _
  rw [base, size, total, source, cfg, nbits, ← encoded]
  exact inverse

/-- Settles O46: LZ_COMP's output decodes to its input (`lzDecode_lzEncode`), under any CFG. -/
theorem lzRoundTripIsLossless : Obligations.LzRoundTripIsLossless := by
  intro s t u x _ run good base len total dest apart run'
  obtain ⟨source, decoded⟩ := lzDecomp_after_lzComp run good base len total
  obtain ⟨-, -, v, ends, regs, bytes, -⟩ := lzDecomp_ends_ok (s := { t with a0 := x }) ⟨source, dest, apart⟩ decoded
  obtain rfl : v = u := Host.Outcome.next.inj (ends.symm.trans run')
  have written := f3_lt x
  have res : v.res.toNat = t.res.toNat / 2 ^ 32 * 2 ^ 32 + f3 x := by
    have fits : t.res.toNat / 2 ^ 32 * 2 ^ 32 + f3 x < 2 ^ 64 := by omega
    rw [congrArg State.res regs, BitVec.toNat_ofNat]
    exact Nat.mod_eq_of_lt fits
  exact ⟨congrArg State.err regs, bytes.trans (List.reverse_reverse _), by omega⟩

end Sys2Proof.Proofs
end

-- ==== Proofs: the Huffman family (spec/46_huffman.md) ====
section
/-! PROOFS. The canonical Huffman decoder (spec/46_huffman.md): the symbols of a length and their ranks, the nodes of
the code tree that the codes take, by which the Kraft sum says that the tree is full, the canonical codes, and
the symbol procedure, which follows the bits from node to node. The loop and the commands rest on what it answers. -/

namespace Sys2Proof.Proofs

open Sys2Proof Sys2Proof.Machine

/-! ## Symbols and their order (R221) -/

theorem filter_range_getElem? {p : Nat → Bool} {n s : Nat} (inside : s < n) (kept : p s = true) :
    ((List.range n).filter p)[((List.range s).filter p).length]? = some s := by
  obtain ⟨rest, rfl⟩ : ∃ rest, n = s + (1 + rest) := ⟨n - s - 1, by omega⟩
  rw [List.range_add, List.filter_append, List.getElem?_append_right le_rfl, Nat.sub_self, Nat.add_comm 1,
    List.range_succ_eq_map, List.map_cons, Nat.add_zero, List.filter_cons_of_pos kept]
  rfl

/-- A table is its entries, by symbol: counting entries is counting symbols. -/
theorem countP_take_eq (table : List Byte) (q : Byte → Bool) {n : Nat} (inside : n ≤ table.length) :
    (table.take n).countP q = ((List.range n).filter fun s => q (table.getD s 0)).length := by
  have entries : table.take n = (List.range n).map fun s => table.getD s 0 := by
    refine List.ext_getElem (by simpa using inside) fun i left right => ?_
    have listed : i < table.length := by rw [List.length_take] at left; omega
    simp [List.getD_eq_getElem?_getD, listed]
  rw [entries, List.countP_map, List.countP_eq_length_filter]
  rfl

/-- The number of symbols before a symbol that have its code length (`r` of R221). -/
def hufRank (table : List Byte) (sym : Nat) : Nat :=
  ((List.range sym).filter fun t => decide ((table.getD t 0).toNat = (table.getD sym 0).toNat)).length

section Order

variable {table : List Byte} {sym l : Nat}

theorem hufCodeOf_eq (inside : sym < table.length) :
    hufCodeOf table sym = hufFirst table (table.getD sym 0).toNat + hufRank table sym := by
  rw [hufCodeOf, countP_take_eq table _ inside.le, hufRank]
  simp only [BitVec.toNat_inj]

theorem hufSymbolsOf_length (table : List Byte) (l : Nat) : (hufSymbolsOf table l).length = hufCount table l := by
  have counted := countP_take_eq table (fun len => decide (len.toNat = l)) le_rfl
  rw [List.take_length] at counted
  exact counted.symm

theorem mem_hufSymbolsOf : sym ∈ hufSymbolsOf table l ↔ sym < table.length ∧ (table.getD sym 0).toNat = l := by
  simp [hufSymbolsOf]

theorem hufSymbolsOf_pairwise (table : List Byte) (l : Nat) : (hufSymbolsOf table l).Pairwise (· < ·) :=
  List.pairwise_lt_range.filter _

theorem hufSymbolsOf_rank (inside : sym < table.length) :
    (hufSymbolsOf table (table.getD sym 0).toNat)[hufRank table sym]? = some sym :=
  filter_range_getElem? inside (decide_eq_true rfl)

theorem hufRank_lt (inside : sym < table.length) : hufRank table sym < hufCount table (table.getD sym 0).toNat := by
  rw [← hufSymbolsOf_length]
  exact (List.getElem?_eq_some_iff.mp (hufSymbolsOf_rank inside)).1

/-- Every rank below `COUNT[L]` is that of a symbol of length L. -/
theorem exists_hufRank {r : Nat} (below : r < hufCount table l) :
    ∃ sym, sym < table.length ∧ (table.getD sym 0).toNat = l ∧ hufRank table sym = r := by
  rw [← hufSymbolsOf_length] at below
  obtain ⟨inside, length⟩ := mem_hufSymbolsOf.mp (List.getElem_mem below)
  refine ⟨(hufSymbolsOf table l)[r], inside, length, ?_⟩
  have ranked := hufSymbolsOf_rank inside
  rw [length] at ranked
  obtain ⟨listed, same⟩ := List.getElem?_eq_some_iff.mp ranked
  have distinct : (hufSymbolsOf table l).Nodup := (hufSymbolsOf_pairwise table l).imp ne_of_lt
  exact distinct.getElem_inj_iff.mp same

theorem hufPresent_iff : hufPresent table sym ↔ sym < table.length ∧ 1 ≤ (table.getD sym 0).toNat := by
  rw [hufPresent, Nat.one_le_iff_ne_zero, ne_eq, ne_eq, ← BitVec.toNat_inj]
  rfl

/-- `OFFS[L]` of R221 counts the symbols of the lengths before L. -/
theorem hufOffs_succ (table : List Byte) (k : Nat) :
    hufOffs table (k + 1) = ((List.range' 1 k).flatMap (hufSymbolsOf table)).length := by
  induction k with
  | zero => rfl
  | succ k ih =>
    rw [hufOffs, ih, List.range'_1_concat, List.flatMap_append, List.length_append, List.flatMap_singleton,
      hufSymbolsOf_length, Nat.add_comm 1 k]

/-- R221: the symbols of length L stand in ORDER from `OFFS[L]` on. -/
theorem hufOrder_getElem?_offs (pos : 1 ≤ l) (short : l ≤ 16) {r : Nat} (below : r < hufCount table l) :
    (hufOrder table)[hufOffs table l + r]? = (hufSymbolsOf table l)[r]? := by
  obtain ⟨k, rfl⟩ : ∃ k, l = k + 1 := ⟨l - 1, by omega⟩
  have lengths : List.range' 1 Config.maxCodeLen = List.range' 1 k ++ (1 + k) :: List.range' (1 + k + 1) (15 - k) := by
    rw [← List.range'_succ, List.range'_append_1]
    congr 1
    exact (by omega : 16 = k + (15 - k + 1))
  rw [hufOrder, lengths, List.flatMap_append, List.flatMap_cons, hufOffs_succ,
    List.getElem?_append_right (Nat.le_add_right _ _), Nat.add_sub_cancel_left, Nat.add_comm 1 k,
    List.getElem?_append_left (by rwa [hufSymbolsOf_length])]

theorem hufOrder_pairwise (table : List Byte) :
    (hufOrder table).Pairwise fun s t => (table.getD s 0).toNat < (table.getD t 0).toNat
      ∨ ((table.getD s 0).toNat = (table.getD t 0).toNat ∧ s < t) := by
  refine List.pairwise_flatMap.mpr ⟨fun l _ => ?_,
    (List.pairwise_lt_range' 1).imp fun {k l} shorter s inK t inL => .inl ?_⟩
  · refine (hufSymbolsOf_pairwise table l).imp_of_mem fun inS inT before => .inr ⟨?_, before⟩
    rw [(mem_hufSymbolsOf.mp inS).2, (mem_hufSymbolsOf.mp inT).2]
  · rwa [(mem_hufSymbolsOf.mp inK).2, (mem_hufSymbolsOf.mp inL).2]

end Order

/-! ## Validity and the Kraft sum (R220) -/

/-- The nodes of depth k of the code tree that are a code or stand below one. -/
def hufTaken (table : List Byte) : Nat → Nat
  | 0 => 0
  | k + 1 => 2 * hufTaken table k + hufCount table (k + 1)

/-- R221: the codes of length k + 1 begin after the nodes that shorter codes take. -/
theorem hufFirst_succ (table : List Byte) (k : Nat) : hufFirst table (k + 1) = 2 * hufTaken table k := by
  induction k with
  | zero => rfl
  | succ k ih => rw [hufFirst, ih, hufTaken]

theorem hufTaken_succ (table : List Byte) (k : Nat) :
    hufTaken table (k + 1) = hufFirst table (k + 1) + hufCount table (k + 1) := by rw [hufFirst_succ, hufTaken]

/-- A node that is taken takes every node below it. -/
theorem hufTaken_mul_le (table : List Byte) (k j : Nat) : hufTaken table k * 2 ^ j ≤ hufTaken table (k + j) := by
  induction j with
  | zero => rw [Nat.pow_zero, Nat.mul_one, Nat.add_zero]
  | succ j ih =>
    rw [← Nat.add_assoc, hufTaken, Nat.pow_succ, ← Nat.mul_assoc]
    omega

theorem hufTaken_nil (k : Nat) : hufTaken [] k = 0 := by
  induction k with
  | zero => rfl
  | succ k ih => rw [hufTaken, ih]; rfl

/-- An entry L takes one node of depth L, and so 2^(k - L) nodes of depth k. -/
theorem hufTaken_cons (len : Byte) (table : List Byte) (k : Nat) :
    hufTaken (len :: table) k
      = (if 1 ≤ len.toNat ∧ len.toNat ≤ k then 2 ^ (k - len.toNat) else 0) + hufTaken table k := by
  induction k with
  | zero => rw [if_neg (by omega)]; rfl
  | succ k ih =>
    have counted : hufCount (len :: table) (k + 1)
        = hufCount table (k + 1) + if len.toNat = k + 1 then 1 else 0 := by simp [hufCount, List.countP_cons]
    rw [hufTaken, hufTaken, ih, counted]
    obtain absent | pos := Nat.eq_zero_or_pos len.toNat
    · simp [absent]
    obtain shorter | same | longer := lt_trichotomy len.toNat (k + 1)
    · have one := Nat.le_of_lt_succ shorter
      simp only [Nat.succ_le_of_lt pos, one, shorter.le, shorter.ne, and_self, if_true, if_false]
      rw [Nat.succ_sub one, Nat.pow_succ]
      omega
    · simp [same, Nat.add_comm 1, Nat.add_assoc]
    · simp [longer.ne', longer.not_ge, (Nat.lt_of_succ_lt longer).not_ge]

/-- R220: the Kraft sum counts the nodes of depth 16 that the codes take. -/
theorem hufTaken_eq_kraftSum {table : List Byte} (bounded : ∀ len ∈ table, len.toNat ≤ 16) :
    hufTaken table 16 = kraftSum table := by
  induction table with
  | nil => exact hufTaken_nil 16
  | cons len table ih =>
    obtain ⟨small, bounded⟩ := List.forall_mem_cons.mp bounded
    have head : kraftSum (len :: table) = kraftTerm len + kraftSum table := rfl
    have absent : len = 0 ↔ len.toNat = 0 := by rw [← BitVec.toNat_inj]; rfl
    rw [hufTaken_cons, ih bounded, head, kraftTerm]
    by_cases zero : len.toNat = 0
    · rw [if_neg (by omega), if_pos (absent.mpr zero)]
    · rw [if_pos (by omega), if_neg (mt absent.mp zero)]
      rfl

section Valid

variable {table : List Byte} (valid : hufTableValid table = true)

include valid

theorem hufLen_le (sym : Nat) : (table.getD sym 0).toNat ≤ 16 := by
  by_cases inside : sym < table.length
  · rw [List.getD_eq_getElem?_getD, List.getElem?_eq_getElem inside]
    exact ((hufTableValid_iff table).mp valid).1 _ (List.getElem_mem inside)
  · rw [List.getD_eq_default _ _ (Nat.le_of_not_lt inside)]
    exact Nat.zero_le 16

/-- R220, R226: the codes fill the tree. -/
theorem hufTaken_full : hufTaken table 16 = 2 ^ 16 := by
  obtain ⟨bounded, sum⟩ := (hufTableValid_iff table).mp valid
  rw [hufTaken_eq_kraftSum bounded, kraftSum_eq_sum_filter, sum]
  rfl

theorem hufTaken_le {k : Nat} (short : k ≤ 16) : hufTaken table k ≤ 2 ^ k := by
  have below := hufTaken_mul_le table k (16 - k)
  rw [Nat.add_sub_cancel' short, hufTaken_full valid, ← Nat.pow_sub_mul_pow 2 short, Nat.mul_comm] at below
  exact Nat.le_of_mul_le_mul_left below (Nat.two_pow_pos _)

theorem mem_hufOrder {sym : Nat} : sym ∈ hufOrder table ↔ hufPresent table sym := by
  have short := hufLen_le valid sym
  rw [hufPresent_iff, hufOrder, List.mem_flatMap]
  constructor
  · rintro ⟨l, listed, inL⟩
    obtain ⟨inside, rfl⟩ := mem_hufSymbolsOf.mp inL
    exact ⟨inside, (List.mem_range'_1.mp listed).1⟩
  · rintro ⟨inside, present⟩
    exact ⟨_, List.mem_range'_1.mpr ⟨present, Nat.lt_succ_of_le short⟩, mem_hufSymbolsOf.mpr ⟨inside, rfl⟩⟩

end Valid

/-! ## The canonical code (R221) -/

section Code

variable {table : List Byte} {sym : Nat}

/-- The codes of a length run from its `FIRST` to the nodes taken by then. -/
theorem hufCodeOf_bounds (present : hufPresent table sym) :
    hufFirst table (table.getD sym 0).toNat ≤ hufCodeOf table sym
      ∧ hufCodeOf table sym < hufTaken table (table.getD sym 0).toNat := by
  obtain ⟨inside, long⟩ := hufPresent_iff.mp present
  have rank := hufRank_lt inside
  have taken := hufTaken_succ table ((table.getD sym 0).toNat - 1)
  rw [Nat.sub_add_cancel long] at taken
  rw [hufCodeOf_eq inside, taken]
  omega

/-- Every number from `FIRST[L]` to the nodes taken by then is a code of length L. -/
theorem exists_hufCodeOf {k c : Nat} (first : hufFirst table (k + 1) ≤ c) (below : c < hufTaken table (k + 1)) :
    ∃ sym, hufPresent table sym ∧ (table.getD sym 0).toNat = k + 1 ∧ hufCodeOf table sym = c := by
  rw [hufTaken_succ] at below
  obtain ⟨sym, inside, length, rank⟩ := exists_hufRank (Nat.sub_lt_left_of_lt_add first below)
  refine ⟨sym, hufPresent_iff.mpr ⟨inside, by omega⟩, length, ?_⟩
  rw [hufCodeOf_eq inside, length, rank, Nat.add_sub_cancel' first]

/-- The nodes that shorter codes take come before those on the way to a longer code. -/
theorem hufTaken_le_code_prefix (present : hufPresent table sym) {k : Nat} (shorter : k < (table.getD sym 0).toNat) :
    hufTaken table k ≤ hufCodeOf table sym / 2 ^ ((table.getD sym 0).toNat - k) := by
  obtain ⟨first, -⟩ := hufCodeOf_bounds present
  obtain ⟨j, length⟩ : ∃ j, (table.getD sym 0).toNat = k + j + 1 := ⟨(table.getD sym 0).toNat - k - 1, by omega⟩
  have below := hufTaken_mul_le table k j
  rw [length, hufFirst_succ] at first
  rw [length, Nat.le_div_iff_mul_le (Nat.two_pow_pos _), Nat.add_assoc, Nat.add_sub_cancel_left, Nat.pow_succ,
    ← Nat.mul_assoc]
  omega

/-- R221: a code is below what any longer code begins with at its length. -/
theorem hufCodeOf_lt_longer {other : Nat} (present : hufPresent table sym) (present' : hufPresent table other)
    (shorter : (table.getD sym 0).toNat < (table.getD other 0).toNat) :
    hufCodeOf table sym
      < hufCodeOf table other / 2 ^ ((table.getD other 0).toNat - (table.getD sym 0).toNat) :=
  (hufCodeOf_bounds present).2.trans_le (hufTaken_le_code_prefix present' shorter)

theorem hufCodeOf_lt (valid : hufTableValid table = true) (present : hufPresent table sym) :
    hufCodeOf table sym < 2 ^ (table.getD sym 0).toNat :=
  (hufCodeOf_bounds present).2.trans_le (hufTaken_le valid (hufLen_le valid sym))

/-- R221: ORDER gives back the symbol of a code. -/
theorem hufOrder_code (valid : hufTableValid table = true) (present : hufPresent table sym) :
    (hufOrder table)[hufOffs table (table.getD sym 0).toNat
      + (hufCodeOf table sym - hufFirst table (table.getD sym 0).toNat)]? = some sym := by
  obtain ⟨inside, long⟩ := hufPresent_iff.mp present
  rw [hufCodeOf_eq inside, Nat.add_sub_cancel_left,
    hufOrder_getElem?_offs long (hufLen_le valid sym) (hufRank_lt inside), hufSymbolsOf_rank inside]

theorem hufCodeBits_length (table : List Byte) (sym : Nat) :
    (hufCodeBits table sym).length = (table.getD sym 0).toNat := putBits_length _ _ _

end Code

/-! ## Bits, the most significant first (R224) -/

theorem fieldNat_concat (bits : List Bool) (b : Bool) :
    fieldNat false (bits ++ [b]) = 2 * fieldNat false bits + b.toNat := by
  simp [fieldNat, bitsNat, Nat.add_comm]

/-- PUTBITS inverts the reading of a field. -/
theorem putBits_fieldNat (bits : List Bool) : putBits false (fieldNat false bits) bits.length = bits := by
  refine List.ext_getElem (putBits_length _ _ _) fun i _ inside => Option.some.inj ?_
  rw [← List.getElem?_eq_getElem, putBits_getElem? false _ inside, testBit_fieldNat false inside,
    List.getD_eq_getElem?_getD, List.getElem?_eq_getElem inside, Option.getD_some]

theorem fieldNat_lt (bits : List Bool) : fieldNat false bits < 2 ^ bits.length := by
  have kept := fieldNat_putBits false (fieldNat false bits) bits.length
  rw [putBits_fieldNat] at kept
  rw [kept]
  exact Nat.mod_lt _ (Nat.two_pow_pos _)

theorem putBits_take (v : Nat) {k n : Nat} (short : k ≤ n) :
    (putBits false v n).take k = putBits false (v / 2 ^ (n - k)) k := by
  refine List.ext_getElem (by simpa using short) fun i _ inside => ?_
  have within : i < k := by simpa using inside
  have mirror : n - 1 - i = k - 1 - i + (n - k) := by omega
  simp [putBits, Nat.testBit_div_two_pow, mirror]

theorem streamBits_length (bo : Bool) (src : List Byte) (pos n : Nat) : (streamBits bo src pos n).length = n := by
  simp [streamBits]

theorem streamBits_add (bo : Bool) (src : List Byte) (pos m n : Nat) :
    streamBits bo src pos (m + n) = streamBits bo src pos m ++ streamBits bo src (pos + m) n := by
  simp [streamBits, List.range_add, Nat.add_assoc]

theorem streamBits_succ (bo : Bool) (src : List Byte) (pos n : Nat) :
    streamBits bo src pos (n + 1) = streamBits bo src pos n ++ [streamBit bo src (pos + n)] := by
  simp [streamBits, List.range_succ]

theorem streamBits_prefix (bo : Bool) (src : List Byte) (pos : Nat) {m n : Nat} (le : m ≤ n) :
    streamBits bo src pos m <+: streamBits bo src pos n := by
  rw [← Nat.add_sub_cancel' le, streamBits_add]
  exact List.prefix_append _ _

/-! ## The code tree (R226) -/

section Tree

variable {table : List Byte} {sym : Nat} {bits : List Bool}

theorem fieldNat_hufCodeBits (valid : hufTableValid table = true) (present : hufPresent table sym) :
    fieldNat false (hufCodeBits table sym) = hufCodeOf table sym := by
  rw [hufCodeBits, fieldNat_putBits, Nat.mod_eq_of_lt (hufCodeOf_lt valid present)]

/-- Bits short of a whole code lead to a node that no code takes. -/
theorem hufTaken_le_of_prefix (valid : hufTableValid table = true) (present : hufPresent table sym)
    (start : bits <+: hufCodeBits table sym) (shorter : bits.length < (table.getD sym 0).toNat) :
    hufTaken table bits.length ≤ fieldNat false bits := by
  have value := List.prefix_iff_eq_take.mp start
  rw [hufCodeBits, putBits_take _ shorter.le] at value
  have small : hufCodeOf table sym / 2 ^ ((table.getD sym 0).toNat - bits.length) < 2 ^ bits.length := by
    rw [Nat.div_lt_iff_lt_mul (Nat.two_pow_pos _), ← Nat.pow_add, Nat.add_sub_cancel' shorter.le]
    exact hufCodeOf_lt valid present
  have node := congrArg (fieldNat false) value
  rw [fieldNat_putBits, Nat.mod_eq_of_lt small] at node
  rw [node]
  exact hufTaken_le_code_prefix present shorter

/-- R226: a code that begins another symbol's code, or equals it, is that symbol's own. -/
theorem eq_of_hufCodeBits_prefix {other : Nat} (valid : hufTableValid table = true) (present : hufPresent table sym)
    (present' : hufPresent table other) (start : hufCodeBits table sym <+: hufCodeBits table other) : sym = other := by
  have value := fieldNat_hufCodeBits valid present
  have le := start.length_le
  rw [hufCodeBits_length, hufCodeBits_length] at le
  obtain shorter | same := Nat.lt_or_eq_of_le le
  · have beyond := hufTaken_le_of_prefix valid present' start (by rwa [hufCodeBits_length])
    rw [value, hufCodeBits_length] at beyond
    exact absurd beyond (Nat.not_le_of_lt (hufCodeOf_bounds present).2)
  · have bits := congrArg (fieldNat false) (start.eq_of_length (by rwa [hufCodeBits_length, hufCodeBits_length]))
    have code := value.symm.trans (bits.trans (fieldNat_hufCodeBits valid present'))
    have found := hufOrder_code valid present
    rw [same, code, hufOrder_code valid present'] at found
    exact (Option.some.inj found).symm

/-- R223, R226: every leaf is reachable, so 16 bits always start with a code. -/
theorem exists_hufCodeBits_prefix (valid : hufTableValid table = true) (long : 16 ≤ bits.length) :
    ∃ sym, hufPresent table sym ∧ hufCodeBits table sym <+: bits := by
  by_contra none
  have beyond (k : Nat) (short : k ≤ 16) : hufTaken table k ≤ fieldNat false (bits.take k) := by
    induction k with
    | zero => exact Nat.zero_le _
    | succ k ih =>
      have inside : k < bits.length := by omega
      have node := fieldNat_concat (bits.take k) bits[k]
      rw [List.take_concat_get' bits k inside] at node
      have first : hufFirst table (k + 1) ≤ fieldNat false (bits.take (k + 1)) := by
        rw [hufFirst_succ]
        have := ih (Nat.le_of_succ_le short)
        omega
      refine Nat.le_of_not_lt fun below => none ?_
      obtain ⟨sym, present, length, code⟩ := exists_hufCodeOf first below
      have whole := putBits_fieldNat (bits.take (k + 1))
      rw [List.length_take_of_le inside] at whole
      refine ⟨sym, present, ?_⟩
      rw [hufCodeBits, length, code, whole]
      exact List.take_prefix _ _
  have full := beyond 16 le_rfl
  have small := fieldNat_lt (bits.take 16)
  rw [List.length_take_of_le long] at small
  rw [hufTaken_full valid] at full
  exact absurd small (Nat.not_lt_of_le full)

end Tree

/-! ## HUF_SYMBOL (R224) -/

section Symbol

variable {table : List Byte} {bo : Bool} {src : List Byte} {pos sym : Nat}

theorem hufSymbolFrom_past (turns l code : Nat) (past : 8 * src.length ≤ pos) :
    hufSymbolFrom table bo src turns l code pos = none := by
  cases turns with
  | zero => rfl
  | succ turns => rw [hufSymbolFrom, if_neg (Nat.not_lt_of_le past)]

/-- One turn of the procedure: bit k is read, and the k + 1 bits read by then are a code or go on. -/
theorem hufSymbolFrom_turn (turns : Nat) {k : Nat} (inside : pos + k < 8 * src.length) :
    hufSymbolFrom table bo src (turns + 1) (k + 1) (fieldNat false (streamBits bo src pos k)) (pos + k)
      = if fieldNat false (streamBits bo src pos (k + 1)) - hufFirst table (k + 1) < hufCount table (k + 1) then
          some ((hufOrder table).getD (hufOffs table (k + 1)
            + (fieldNat false (streamBits bo src pos (k + 1)) - hufFirst table (k + 1))) 0, pos + (k + 1))
        else
          hufSymbolFrom table bo src turns (k + 2) (fieldNat false (streamBits bo src pos (k + 1)))
            (pos + (k + 1)) := by
  rw [hufSymbolFrom, if_pos inside, streamBits_succ, fieldNat_concat]
  rfl

/-- Inside a code the procedure reads on. -/
theorem hufSymbol_inside (valid : hufTableValid table = true) (present : hufPresent table sym) {k : Nat}
    (shorter : k < (table.getD sym 0).toNat) (room : pos + k ≤ 8 * src.length)
    (start : streamBits bo src pos k <+: hufCodeBits table sym) :
    hufSymbol table bo src pos
      = hufSymbolFrom table bo src (16 - k) (k + 1) (fieldNat false (streamBits bo src pos k)) (pos + k) := by
  induction k with
  | zero => rfl
  | succ k ih =>
    have short := hufLen_le valid sym
    have turns : 16 - k = 16 - (k + 1) + 1 := by omega
    have node := hufTaken_le_of_prefix valid present start (by rwa [streamBits_length])
    rw [streamBits_length, hufTaken_succ] at node
    have noCode : ¬ fieldNat false (streamBits bo src pos (k + 1)) - hufFirst table (k + 1)
        < hufCount table (k + 1) := by omega
    rw [ih (by omega) (by omega) ((streamBits_prefix bo src pos k.le_succ).trans start), turns,
      hufSymbolFrom_turn _ (by omega), if_neg noCode]

/-- R224: a whole code is read. -/
theorem hufSymbol_of_codeAt (valid : hufTableValid table = true) (code : hufCodeAt table bo src pos sym) :
    hufSymbol table bo src pos = some (sym, pos + (table.getD sym 0).toNat) := by
  obtain ⟨present, room, stands⟩ := code
  have found := hufOrder_code valid present
  obtain ⟨first, below⟩ := hufCodeOf_bounds present
  obtain ⟨-, long⟩ := hufPresent_iff.mp present
  have short := hufLen_le valid sym
  have value := (congrArg (fieldNat false) stands).trans (fieldNat_hufCodeBits valid present)
  have start := streamBits_prefix bo src pos (Nat.sub_le (table.getD sym 0).toNat 1)
  rw [stands] at start
  rw [hufSymbol_inside valid present (by omega) (by omega) start]
  obtain ⟨k, length⟩ : ∃ k, (table.getD sym 0).toNat = k + 1 := ⟨_, (Nat.sub_add_cancel long).symm⟩
  rw [length] at found first below short room value ⊢
  have turns : 16 - (k + 1 - 1) = 15 - k + 1 := by omega
  rw [hufTaken_succ] at below
  rw [turns, Nat.add_sub_cancel, hufSymbolFrom_turn _ (by omega), value, if_pos (by omega),
    List.getD_eq_getElem?_getD, found, Option.getD_some]

/-- R223: a stream that ends inside a code gives no symbol. -/
theorem hufSymbol_of_endsInside (valid : hufTableValid table = true) (room : pos ≤ 8 * src.length)
    (ends : hufEndsInside table bo src pos) : hufSymbol table bo src pos = none := by
  obtain ⟨sym, present, shorter, start⟩ := ends
  rw [hufSymbol_inside valid present shorter (by omega) start]
  exact hufSymbolFrom_past _ _ _ (by omega)

/-- R223: either a code stands at a position, or the stream ends inside one. -/
theorem hufCodeAt_or_endsInside (valid : hufTableValid table = true) (room : pos ≤ 8 * src.length) :
    (∃ sym, hufCodeAt table bo src pos sym) ∨ hufEndsInside table bo src pos := by
  obtain ⟨left, rest⟩ : ∃ left, 8 * src.length - pos = left := ⟨_, rfl⟩
  obtain ⟨sym, present, start⟩ := exists_hufCodeBits_prefix valid
    (bits := streamBits bo src pos left ++ List.replicate 16 false) (by simp)
  have stream := List.prefix_append (streamBits bo src pos left) (List.replicate 16 false)
  obtain cut | whole := Nat.lt_or_ge left (table.getD sym 0).toNat
  · have inside := List.prefix_of_prefix_length_le stream start
      (by rw [streamBits_length, hufCodeBits_length]; exact cut.le)
    exact .inr ⟨sym, present, by rwa [rest], by rwa [rest]⟩
  · have within := streamBits_prefix bo src pos whole
    have same := List.prefix_of_prefix_length_le (within.trans stream) start
      (by rw [streamBits_length, hufCodeBits_length])
    exact .inl ⟨sym, present, by omega, same.eq_of_length (by rw [streamBits_length, hufCodeBits_length])⟩

/-- R224: HUF_SYMBOL answers the symbol whose code stands at the position. -/
theorem hufSymbol_eq_some_iff (valid : hufTableValid table = true) (room : pos ≤ 8 * src.length) {next : Nat} :
    hufSymbol table bo src pos = some (sym, next)
      ↔ hufCodeAt table bo src pos sym ∧ next = pos + (table.getD sym 0).toNat := by
  constructor
  · intro read
    obtain ⟨found, code⟩ | ends := hufCodeAt_or_endsInside (bo := bo) valid room
    · have same := read.symm.trans (hufSymbol_of_codeAt valid code)
      obtain ⟨rfl, rfl⟩ := Prod.mk.inj (Option.some.inj same)
      exact ⟨code, rfl⟩
    · exact nomatch read.symm.trans (hufSymbol_of_endsInside valid room ends)
  · rintro ⟨code, rfl⟩
    exact hufSymbol_of_codeAt valid code

/-- R223: HUF_SYMBOL fails exactly when the stream ends inside a code. -/
theorem hufSymbol_eq_none_iff (valid : hufTableValid table = true) (room : pos ≤ 8 * src.length) :
    hufSymbol table bo src pos = none ↔ hufEndsInside table bo src pos := by
  refine ⟨fun fails => ?_, hufSymbol_of_endsInside valid room⟩
  obtain ⟨sym, code⟩ | ends := hufCodeAt_or_endsInside (bo := bo) valid room
  · exact nomatch fails.symm.trans (hufSymbol_of_codeAt valid code)
  · exact ends

/-- What HUF_SYMBOL reads lies in the stream, whatever the table. -/
theorem hufSymbolFrom_next_le {turns l code next : Nat}
    (read : hufSymbolFrom table bo src turns l code pos = some (sym, next)) : next ≤ 8 * src.length := by
  induction turns generalizing l code pos with
  | zero => nomatch read
  | succ turns ih =>
    rw [hufSymbolFrom] at read
    split at read
    · dsimp only at read
      split at read
      · obtain ⟨-, rfl⟩ := Prod.mk.inj (Option.some.inj read)
        omega
      · exact ih read
    · nomatch read

end Symbol

/-! ## The loop of HUF_DECODE (R223) -/

section Loop

variable {table : List Byte} {bo : Bool} {src : List Byte} {pos sym : Nat} {syms : List Nat}

theorem hufSpells_nil {next : Nat} :
    hufSpells table bo src pos [] next ↔ next = pos ∧ pos ≤ 8 * src.length := by
  have nothing : streamBits bo src pos 0 = [] := rfl
  constructor
  · rintro ⟨-, rfl, room, -⟩
    exact ⟨rfl, room⟩
  · rintro ⟨rfl, room⟩
    exact ⟨nofun, rfl, room, by rw [Nat.sub_self, nothing]; rfl⟩

/-- The codes of a list of symbols are the first one's code and, after it, the codes of the others. -/
theorem hufSpells_cons {next : Nat} :
    hufSpells table bo src pos (sym :: syms) next
      ↔ hufCodeAt table bo src pos sym ∧ hufSpells table bo src (pos + (table.getD sym 0).toNat) syms next := by
  simp only [hufSpells, hufCodeAt, List.forall_mem_cons, List.map_cons, List.sum_cons, List.flatMap_cons]
  obtain ⟨rest, total⟩ : ∃ rest, (syms.map fun sym => (table.getD sym 0).toNat).sum = rest := ⟨_, rfl⟩
  rw [total, ← Nat.add_assoc]
  have split : streamBits bo src pos (pos + (table.getD sym 0).toNat + rest - pos)
      = streamBits bo src pos (table.getD sym 0).toNat
        ++ streamBits bo src (pos + (table.getD sym 0).toNat)
          (pos + (table.getD sym 0).toNat + rest - (pos + (table.getD sym 0).toNat)) := by
    rw [Nat.add_sub_cancel_left, Nat.add_assoc, Nat.add_sub_cancel_left, streamBits_add]
  have widths : (streamBits bo src pos (table.getD sym 0).toNat).length = (hufCodeBits table sym).length := by
    rw [streamBits_length, hufCodeBits_length]
  constructor
  · rintro ⟨⟨present, others⟩, rfl, room, bits⟩
    rw [split] at bits
    obtain ⟨code, codes⟩ := List.append_inj bits widths
    exact ⟨⟨present, by omega, code⟩, others, rfl, room, codes⟩
  · rintro ⟨⟨present, -, code⟩, others, rfl, room, codes⟩
    exact ⟨⟨present, others⟩, rfl, room, by rw [split, code, codes]⟩

theorem hufDecodeLoop_of_none (count : Nat) (fails : hufSymbol table bo src pos = none) :
    hufDecodeLoop table bo src (count + 1) pos = .truncated [] pos := by rw [hufDecodeLoop, fails]

theorem hufDecodeLoop_of_codeAt (valid : hufTableValid table = true) (count : Nat)
    (code : hufCodeAt table bo src pos sym) :
    hufDecodeLoop table bo src (count + 1) pos
      = hufPrepend sym (hufDecodeLoop table bo src count (pos + (table.getD sym 0).toNat)) := by
  rw [hufDecodeLoop, hufSymbol_of_codeAt valid code]

/-- Where a loop ended, or where the incomplete code began. -/
def hufEndPos : HufEnd → Nat
  | .ended _ pos => pos
  | .truncated _ start => start

/-- The loop stays in the stream, whatever the table. -/
theorem hufDecodeLoop_pos_le (room : pos ≤ 8 * src.length) (count : Nat) :
    hufEndPos (hufDecodeLoop table bo src count pos) ≤ 8 * src.length := by
  induction count generalizing pos with
  | zero => exact room
  | succ count ih =>
    rw [hufDecodeLoop]
    split
    · exact room
    · next sym next read =>
      have kept : ∀ e, hufEndPos (hufPrepend sym e) = hufEndPos e := by rintro (_ | _) <;> rfl
      rw [kept]
      exact ih (hufSymbolFrom_next_le read)

theorem hufPrepend_eq_ended_iff {e : HufEnd} {next : Nat} :
    hufPrepend sym e = .ended syms next ↔ ∃ rest, syms = sym :: rest ∧ e = .ended rest next := by
  cases e <;> simp [hufPrepend, eq_comm]

theorem hufPrepend_eq_truncated_iff {e : HufEnd} {start : Nat} :
    hufPrepend sym e = .truncated syms start ↔ ∃ rest, syms = sym :: rest ∧ e = .truncated rest start := by
  cases e <;> simp [hufPrepend, eq_comm]

/-- No two symbols' codes stand at one position. -/
theorem hufCodeAt_unique (valid : hufTableValid table = true) {other : Nat} (code : hufCodeAt table bo src pos sym)
    (code' : hufCodeAt table bo src pos other) : other = sym := by
  have same := (hufSymbol_of_codeAt valid code').symm.trans (hufSymbol_of_codeAt valid code)
  exact (Prod.mk.inj (Option.some.inj same)).1

/-- A code does not stand where the stream ends inside one. -/
theorem not_hufCodeAt_of_endsInside (valid : hufTableValid table = true) (room : pos ≤ 8 * src.length)
    (ends : hufEndsInside table bo src pos) : ¬ hufCodeAt table bo src pos sym := fun code =>
  nomatch (hufSymbol_of_codeAt valid code).symm.trans (hufSymbol_of_endsInside valid room ends)

/-- Where a code stands, the stream spells its symbol first, or nothing. -/
theorem hufSpells_of_codeAt (valid : hufTableValid table = true) (room : pos ≤ 8 * src.length)
    (code : hufCodeAt table bo src pos sym) {next : Nat} :
    hufSpells table bo src pos syms next ↔ (syms = [] ∧ next = pos)
      ∨ ∃ rest, syms = sym :: rest ∧ hufSpells table bo src (pos + (table.getD sym 0).toNat) rest next := by
  cases syms with
  | nil => simp [hufSpells_nil, room]
  | cons x rest =>
    rw [hufSpells_cons]
    constructor
    · rintro ⟨code', spells⟩
      obtain rfl := hufCodeAt_unique valid code code'
      exact .inr ⟨rest, rfl, spells⟩
    · rintro (⟨none, -⟩ | ⟨rest, same, spells⟩)
      · nomatch none
      · obtain ⟨rfl, rfl⟩ := List.cons.inj same
        exact ⟨code, spells⟩

/-- Where the stream ends inside a code, it spells nothing more. -/
theorem hufSpells_of_endsInside (valid : hufTableValid table = true) (room : pos ≤ 8 * src.length)
    (ends : hufEndsInside table bo src pos) {next : Nat} :
    hufSpells table bo src pos syms next ↔ syms = [] ∧ next = pos := by
  cases syms with
  | nil => simp [hufSpells_nil, room]
  | cons x rest =>
    rw [hufSpells_cons]
    exact ⟨fun ⟨code, _⟩ => absurd code (not_hufCodeAt_of_endsInside valid room ends), nofun⟩

/-- R223: the loop ends with the symbols that the stream spells. -/
theorem hufDecodeLoop_eq_ended_iff (valid : hufTableValid table = true) (room : pos ≤ 8 * src.length)
    {count next : Nat} :
    hufDecodeLoop table bo src count pos = .ended syms next
      ↔ syms.length = count ∧ hufSpells table bo src pos syms next := by
  induction count generalizing pos syms with
  | zero =>
    rw [hufDecodeLoop, List.length_eq_zero_iff, HufEnd.ended.injEq]
    constructor
    · rintro ⟨rfl, rfl⟩
      exact ⟨rfl, hufSpells_nil.mpr ⟨rfl, room⟩⟩
    · rintro ⟨rfl, spells⟩
      exact ⟨rfl, (hufSpells_nil.mp spells).1.symm⟩
  | succ count ih =>
    obtain ⟨sym, code⟩ | ends := hufCodeAt_or_endsInside (bo := bo) valid room
    · rw [hufDecodeLoop_of_codeAt valid count code, hufPrepend_eq_ended_iff, hufSpells_of_codeAt valid room code]
      simp only [ih code.2.1]
      constructor
      · rintro ⟨rest, rfl, length, spells⟩
        exact ⟨congrArg Nat.succ length, .inr ⟨rest, rfl, spells⟩⟩
      · rintro ⟨length, ⟨rfl, -⟩ | ⟨rest, rfl, spells⟩⟩
        · nomatch length
        · exact ⟨rest, rfl, Nat.succ.inj length, spells⟩
    · rw [hufDecodeLoop_of_none count (hufSymbol_of_endsInside valid room ends),
        hufSpells_of_endsInside valid room ends]
      refine ⟨nofun, ?_⟩
      rintro ⟨length, rfl, -⟩
      nomatch length

/-- R223: a truncated loop has all the symbols before the incomplete code, and where it begins. -/
theorem hufDecodeLoop_eq_truncated_iff (valid : hufTableValid table = true) (room : pos ≤ 8 * src.length)
    {count start : Nat} :
    hufDecodeLoop table bo src count pos = .truncated syms start
      ↔ syms.length < count ∧ hufSpells table bo src pos syms start ∧ hufEndsInside table bo src start := by
  induction count generalizing pos syms with
  | zero => exact ⟨nofun, fun ⟨fewer, _⟩ => absurd fewer (Nat.not_lt_zero _)⟩
  | succ count ih =>
    obtain ⟨sym, code⟩ | ends := hufCodeAt_or_endsInside (bo := bo) valid room
    · rw [hufDecodeLoop_of_codeAt valid count code, hufPrepend_eq_truncated_iff, hufSpells_of_codeAt valid room code]
      simp only [ih code.2.1]
      constructor
      · rintro ⟨rest, rfl, fewer, spells, ends⟩
        exact ⟨Nat.succ_lt_succ fewer, .inr ⟨rest, rfl, spells⟩, ends⟩
      · rintro ⟨fewer, ⟨rfl, rfl⟩ | ⟨rest, rfl, spells⟩, ends⟩
        · exact absurd code (not_hufCodeAt_of_endsInside valid room ends)
        · exact ⟨rest, rfl, Nat.lt_of_succ_lt_succ fewer, spells, ends⟩
    · rw [hufDecodeLoop_of_none count (hufSymbol_of_endsInside valid room ends),
        hufSpells_of_endsInside valid room ends, HufEnd.truncated.injEq]
      constructor
      · rintro ⟨rfl, rfl⟩
        exact ⟨Nat.succ_pos count, ⟨rfl, rfl⟩, ends⟩
      · rintro ⟨-, ⟨rfl, rfl⟩, -⟩
        exact ⟨rfl, rfl⟩

end Loop

/-! ## HUF_DECODE (R223) -/

/-- R224: byte k of symbol i. -/
theorem symbolBytes_getD {syms : List Nat} {i k : Nat} (inside : i < syms.length) (byte : k < 2) :
    (symbolBytes syms).getD (2 * i + k) 0 = BitVec.ofNat 8 (syms.getD i 0 / 256 ^ k) := by
  induction syms generalizing i with
  | nil => exact absurd inside (Nat.not_lt_zero i)
  | cons x syms ih =>
    have split : symbolBytes (x :: syms) = bytesLE x 2 ++ symbolBytes syms := rfl
    rw [split]
    cases i with
    | zero =>
      rw [List.getD_append _ _ _ _ (by rw [bytesLE_length]; omega), List.getD_cons_zero, Nat.mul_zero, Nat.zero_add,
        bytesLE_getD x byte]
    | succ i =>
      rw [List.getD_append_right _ _ _ _ (by rw [bytesLE_length]; omega), bytesLE_length, List.getD_cons_succ,
        ← ih (Nat.lt_of_succ_lt_succ inside)]
      congr 1
      omega

/-- The bytes of symbols that a region holds, one by one. -/
theorem bufByte_of_symbolBytes {t : State} {dst : Nat} {syms : List Nat}
    (stored : memRead t dst (2 * syms.length) = symbolBytes syms) (i : Nat) (inside : i < syms.length) (k : Nat)
    (byte : k < 2) : bufByte t (dst + 2 * i + k) = BitVec.ofNat 8 (syms.getD i 0 / 256 ^ k) := by
  have read := memRead_getElem? t dst (2 * syms.length) (2 * i + k)
  rw [if_pos (by omega), stored, ← Nat.add_assoc] at read
  rw [← symbolBytes_getD inside byte, List.getD_eq_getElem?_getD, read, Option.getD_some]

section Decode

variable {s : State}

/-- The operands of HUF_DECODE pass its checks (R223). -/
structure HufOperandsFit (s : State) : Prop where
  table : s.huf.valid = true
  source : f0 s.a0 + f1 s.a0 ≤ 65536
  dest : f2 s.a0 + 2 * f3 s.a0 ≤ 65536
  apart : ∀ a, ¬ ((hufSource s).has a ∧ (hufDest s).has a)
  start : (low32 s.a1).toNat ≤ 8 * f1 s.a0

/-- How HUF_DECODE's loop ends in a state. -/
def hufDecodeRun (s : State) : HufEnd :=
  hufDecodeLoop (hufTable s) (cfgParams s.cfg).bo (memRead s (f0 s.a0) (f1 s.a0)) (f3 s.a0) (low32 s.a1).toNat

theorem HufOperandsFit.checks_pass (fits : HufOperandsFit s) :
    firstError
      [ (!s.huf.valid, .codec),
        (!regionInBounds (hufSource s), .bounds),
        (!regionInBounds (hufDest s), .bounds),
        (regionsOverlap (hufSource s) (hufDest s), .bounds),
        (decide (8 * f1 s.a0 < (low32 s.a1).toNat), .bounds) ] = none := by
  have disjoint : regionsOverlap (hufSource s) (hufDest s) = false := by
    rw [← Bool.not_eq_true, regionsOverlap_iff]
    exact fun ⟨a, shared⟩ => fits.apart a shared
  simp only [firstError_none_iff, List.forall_mem_cons, Bool.not_eq_false', regionInBounds_iff, decide_eq_false_iff_not,
    Nat.not_lt]
  exact ⟨fits.table, fits.source, fits.dest, disjoint, fits.start, nofun⟩

theorem exec_hufDecode_of_ended (fits : HufOperandsFit s) {syms : List Nat} {pos : Nat}
    (run : hufDecodeRun s = .ended syms pos) :
    exec .hufDecode s
      = .next (complete { memWrite s (f2 s.a0) (symbolBytes syms) with res := pair32 (f3 s.a0) pos }) := by
  have ended : hufDecodeLoop (hufTable s) (cfgParams s.cfg).bo (regionRead s (hufSource s)) (f3 s.a0)
    (low32 s.a1).toNat = .ended syms pos := run
  rw [exec, execHufDecode, checked_of_none fits.checks_pass, ended]

theorem exec_hufDecode_of_truncated (fits : HufOperandsFit s) {syms : List Nat} {start : Nat}
    (run : hufDecodeRun s = .truncated syms start) :
    exec .hufDecode s = .next (raiseErr .truncatedInput
      { memWrite s (f2 s.a0) (symbolBytes syms) with res := pair32 syms.length start }) := by
  have truncated : hufDecodeLoop (hufTable s) (cfgParams s.cfg).bo (regionRead s (hufSource s)) (f3 s.a0)
    (low32 s.a1).toNat = .truncated syms start := run
  rw [exec, execHufDecode, checked_of_none fits.checks_pass, truncated]

theorem hufDecodeRun_pos_le (fits : HufOperandsFit s) : hufEndPos (hufDecodeRun s) ≤ 8 * f1 s.a0 := by
  have inside := hufDecodeLoop_pos_le (table := hufTable s) (bo := (cfgParams s.cfg).bo)
    (src := memRead s (f0 s.a0) (f1 s.a0)) (by simpa using fits.start) (f3 s.a0)
  rwa [memRead_length] at inside

/-- R223: a HUF_DECODE that decodes all its symbols. -/
theorem hufDecode_ends_ended (fits : HufOperandsFit s) {syms : List Nat} {pos : Nat}
    (run : hufDecodeRun s = .ended syms pos) :
    syms.length = f3 s.a0 ∧ pos ≤ 8 * f1 s.a0 ∧ ∃ t, exec .hufDecode s = .next t
      ∧ t = { s with mem := t.mem, res := BitVec.ofNat 64 (f3 s.a0 * 2 ^ 32 + pos), err := 0 }
      ∧ memRead t (f2 s.a0) (2 * f3 s.a0) = symbolBytes syms
      ∧ ∀ a, ¬ (hufDest s).has a → bufByte t a = bufByte s a := by
  have inside := hufDecodeRun_pos_le fits
  rw [run] at inside
  have length : syms.length = f3 s.a0 := by
    obtain ⟨syms', pos', ended, length⟩ | ⟨syms', start, truncated, -⟩ := hufDecodeLoop_cases (hufTable s)
      (cfgParams s.cfg).bo (memRead s (f0 s.a0) (f1 s.a0)) (f3 s.a0) (low32 s.a1).toNat
    · obtain ⟨rfl, -⟩ := HufEnd.ended.inj (run.symm.trans ended)
      exact length
    · nomatch run.symm.trans truncated
  have room := f1_lt s.a0
  have low : pos < 2 ^ 32 := Nat.lt_of_le_of_lt inside (by omega)
  rw [exec_hufDecode_of_ended fits run, pair32_eq_ofNat _ low]
  exact ⟨length, inside, _, rfl, rfl,
    stored_of_memWrite ((symbolBytes_length syms).trans (congrArg (2 * ·) length)) rfl rfl⟩

/-- R223: a HUF_DECODE whose stream ends inside a code. -/
theorem hufDecode_ends_truncated (fits : HufOperandsFit s) {syms : List Nat} {start : Nat}
    (run : hufDecodeRun s = .truncated syms start) :
    syms.length < f3 s.a0 ∧ start ≤ 8 * f1 s.a0 ∧ ∃ t, exec .hufDecode s = .next t
      ∧ t = { s with
          mem := t.mem, res := BitVec.ofNat 64 (syms.length * 2 ^ 32 + start), err := 4,
          sticky := s.sticky ||| 0x08 }
      ∧ memRead t (f2 s.a0) (2 * syms.length) = symbolBytes syms
      ∧ ∀ a, ¬ (f2 s.a0 ≤ a ∧ a < f2 s.a0 + 2 * syms.length) → bufByte t a = bufByte s a := by
  have inside := hufDecodeRun_pos_le fits
  rw [run] at inside
  have fewer : syms.length < f3 s.a0 := by
    obtain ⟨syms', pos, ended, -⟩ | ⟨syms', start', truncated, fewer, -⟩ := hufDecodeLoop_cases (hufTable s)
      (cfgParams s.cfg).bo (memRead s (f0 s.a0) (f1 s.a0)) (f3 s.a0) (low32 s.a1).toNat
    · nomatch run.symm.trans ended
    · obtain ⟨rfl, -⟩ := HufEnd.truncated.inj (run.symm.trans truncated)
      exact fewer
  have room := f1_lt s.a0
  have low : start < 2 ^ 32 := Nat.lt_of_le_of_lt inside (by omega)
  rw [exec_hufDecode_of_truncated fits run, pair32_eq_ofNat _ low]
  exact ⟨fewer, inside, _, rfl, rfl, stored_of_memWrite (symbolBytes_length syms) rfl rfl⟩

end Decode

/-- Settles O50: the command's two ends, then HUF_SYMBOL and the loop for a valid table. -/
theorem hufDecodeStoresTheSymbols : Obligations.HufDecodeStoresTheSymbols := by
  constructor
  · intro s run table source dest apart start
    have fits : HufOperandsFit s := ⟨table, source, dest, apart, start⟩
    constructor
    · intro syms pos ended
      obtain ⟨length, inside, t, ends, regs, stored, frame⟩ := hufDecode_ends_ended fits ended
      rw [← length] at stored
      exact ⟨length, inside, t, ends, regs, length ▸ bufByte_of_symbolBytes stored, frame⟩
    · intro syms start truncated
      obtain ⟨fewer, inside, t, ends, regs, stored, frame⟩ := hufDecode_ends_truncated fits truncated
      exact ⟨fewer, inside, t, ends, regs, bufByte_of_symbolBytes stored, frame⟩
  · intro table bo src pos valid room
    exact ⟨fun sym next => hufSymbol_eq_some_iff valid room, hufSymbol_eq_none_iff valid room, fun count syms =>
      ⟨fun next => hufDecodeLoop_eq_ended_iff valid room, fun start => hufDecodeLoop_eq_truncated_iff valid room⟩⟩

/-- Settles O51: 16 bits start with a code (`exists_hufCodeBits_prefix`), so it stands at the position. -/
theorem validTablesAlwaysDecodeASymbol : Obligations.ValidTablesAlwaysDecodeASymbol := by
  intro table bo src pos valid room
  obtain ⟨sym, code⟩ | ⟨sym, -, cut, -⟩ := hufCodeAt_or_endsInside (bo := bo) valid (by omega : pos ≤ 8 * src.length)
  · exact ⟨sym, code.1, hufSymbol_of_codeAt valid code⟩
  · have short := hufLen_le valid sym
    omega

/-- R226: the Kraft sum as a sum of fractions. -/
theorem sum_fractions_eq (lens : List Byte) (bounded : ∀ len ∈ lens, len.toNat ≤ 16) :
    (lens.map fun len => (1 : ℚ) / 2 ^ len.toNat).sum
      = ((lens.map fun len => 2 ^ (16 - len.toNat)).sum : Nat) / 2 ^ 16 := by
  induction lens with
  | nil => simp
  | cons len lens ih =>
    obtain ⟨small, bounded⟩ := List.forall_mem_cons.mp bounded
    have head : (1 : ℚ) / 2 ^ len.toNat = 2 ^ (16 - len.toNat) / 2 ^ 16 := by
      rw [div_eq_div_iff (by positivity) (by positivity), one_mul, pow_sub_mul_pow 2 small]
    rw [List.map_cons, List.sum_cons, ih bounded, List.map_cons, List.sum_cons, head]
    push_cast
    exact (add_div _ _ _).symm

/-- Settles O52: `eq_of_hufCodeBits_prefix`, the Kraft sum, and the loop on a stream that spells the symbols. -/
theorem huffmanCodesArePrefixFreeAndDecode : Obligations.HuffmanCodesArePrefixFreeAndDecode := by
  refine ⟨fun table x y valid presentX presentY other start =>
      other (eq_of_hufCodeBits_prefix valid presentX presentY start), fun table valid => ?fills, ?decodes⟩
  case fills =>
    obtain ⟨bounded, sum⟩ := (hufTableValid_iff table).mp valid
    rw [sum_fractions_eq _ fun len listed => bounded len (List.mem_of_mem_filter listed), sum]
    norm_num
  case decodes =>
    intro s syms table bits src loaded valid present count source dest apart room stands
    have total : bits.length = (syms.map fun x => (table.getD x 0).toNat).sum := by
      rw [List.length_flatMap]
      simp only [hufCodeBits_length]
    have start : (low32 s.a1).toNat ≤ 8 * f1 s.a0 := by omega
    have spells : hufSpells table (cfgParams s.cfg).bo src (low32 s.a1).toNat syms ((low32 s.a1).toNat + bits.length) :=
      ⟨present, by rw [total], by rwa [memRead_length], by rwa [Nat.add_sub_cancel_left]⟩
    have run := (hufDecodeLoop_eq_ended_iff valid (by rwa [memRead_length])).mpr ⟨count.symm, spells⟩
    obtain ⟨-, -, t, ends, regs, stored, -⟩ := hufDecode_ends_ended ⟨loaded, source, dest, apart, start⟩ run
    refine ⟨t, ends, congrArg State.err regs, stored, ?_⟩
    have bound := f1_lt s.a0
    rw [congrArg State.res regs, BitVec.toNat_ofNat, ← total]
    omega

/-- Settles O48: the tables by definition, ORDER, and the canonical codes by `hufCodeOf_bounds` and `hufOrder_code`. -/
theorem huffmanTablesAreCanonical : Obligations.HuffmanTablesAreCanonical := by
  refine ⟨?_, by decide, by decide⟩
  intro table valid len
  refine ⟨fun l _ _ => (hufSymbolsOf_length table l).symm, rfl, rfl, fun l two _ => ?recurrence,
    fun s => mem_hufOrder valid, hufOrder_pairwise table, fun s present =>
      ⟨hufCodeOf_eq (hufPresent_iff.mp present).1, hufCodeOf_lt valid present, hufCodeBits_length table s,
        fun i inside => putBits_getElem? false _ inside, hufOrder_code valid present,
        fun t present' => hufCodeOf_lt_longer present present'⟩⟩
  case recurrence =>
    obtain ⟨k, rfl⟩ : ∃ k, l = k + 2 := ⟨l - 2, by omega⟩
    exact ⟨rfl, rfl⟩

/-! ## HUF_CODE (R225) -/

section HufCode

variable {s : State} {sym : Half}

theorem exec_hufCode_of_symbol (valid : s.huf.valid = true) (inside : sym.toNat < s.huf.nsym.toNat) :
    exec (.hufCode sym) s = .next (complete { s with
      res := if (hufTable s).getD sym.toNat 0 = 0 then 0
        else pair32 ((hufTable s).getD sym.toNat 0).toNat (hufCodeOf (hufTable s) sym.toNat) }) := by
  have table : (!s.huf.valid) = false := by rw [valid]; rfl
  have listed : decide (s.huf.nsym.toNat ≤ sym.toNat) = false := decide_eq_false (Nat.not_le_of_lt inside)
  rw [exec, execHufCode]
  exact checked_of_none ((firstError_cons_of_pass table _ _).trans (firstError_cons_of_pass listed _ _)) s _

theorem exec_hufCode_beyond (valid : s.huf.valid = true) (beyond : s.huf.nsym.toNat ≤ sym.toNat) :
    exec (.hufCode sym) s = .next { s with err := 6, sticky := s.sticky ||| 0x20 } := by
  have table : (!s.huf.valid) = false := by rw [valid]; rfl
  rw [exec, execHufCode]
  exact checked_of_some ((firstError_cons_of_pass table _ _).trans
    (firstError_cons_of_fail (decide_eq_true beyond) .illegalCommand _)) s _

/-- R223, R225: with no valid table, both commands' first check decides. -/
theorem checked_of_noTable (noTable : s.huf.valid = false) (checks : List (Bool × Err)) (op : State → State) :
    checked ((!s.huf.valid, .codec) :: checks) s op = .next { s with err := 3, sticky := s.sticky ||| 0x04 } :=
  checked_of_some (firstError_cons_of_fail (by rw [noTable]; rfl) .codec checks) s op

theorem exec_hufCode_of_noTable (noTable : s.huf.valid = false) :
    exec (.hufCode sym) s = .next { s with err := 3, sticky := s.sticky ||| 0x04 } := by
  rw [exec, execHufCode]
  exact checked_of_noTable noTable _ _

theorem exec_hufDecode_of_noTable (noTable : s.huf.valid = false) :
    exec .hufDecode s = .next { s with err := 3, sticky := s.sticky ||| 0x04 } := by
  rw [exec, execHufDecode]
  exact checked_of_noTable noTable _ _

end HufCode

/-- Settles O49: HUF_CODE check by check, and HUF_DECODE with no valid table. -/
theorem hufCodeReportsTheCode : Obligations.HufCodeReportsTheCode := by
  intro s sym table len
  have absent : (hufTable s).getD sym.toNat 0 = 0 ↔ len = 0 := BitVec.toNat_inj.symm
  refine ⟨fun valid inside => ?_, fun noTable => ⟨exec_hufCode_of_noTable noTable, exec_hufDecode_of_noTable noTable⟩,
    exec_hufCode_beyond⟩
  rw [exec_hufCode_of_symbol valid inside]
  refine ⟨fun present => ?_, fun zero => ?_⟩
  · rw [if_neg (mt absent.mp present)]
    rfl
  · rw [if_pos (absent.mpr zero)]
    rfl

end Sys2Proof.Proofs
end

-- ==== Proofs: the PKWARE family (spec/47_pkware.md) ====
section
/-! PROOFS. The PKWARE stream cipher (spec/47_pkware.md): the keys and the keystream byte in integers, what the cipher's
loops store and feed as functions on lists of bytes, the commands past their checks, and the plaintext that the keys have
been fed. -/

namespace Sys2Proof.Proofs

open Sys2Proof Sys2Proof.Machine

/-! ## The key update (R241, R252) -/

theorem toNat_mul_add (x m c : Word) : (x * m + c).toNat = (x.toNat * m.toNat + c.toNat) % 2 ^ 32 := by
  rw [BitVec.toNat_add, BitVec.toNat_mul, Nat.mod_add_mod]

/-- KEY1's step is the source's LCG modulo 2^32, after KEY0's low byte is added. -/
theorem toNat_zcKey1Step (key1 key0 : Word) :
    (zcKey1Step key1 key0).toNat = ((key1.toNat + key0.toNat % 256) * 134775813 + 1) % 2 ^ 32 := by
  have lowByte : ((key0.extractLsb' 0 8).setWidth 32).toNat = key0.toNat % 256 := by
    rw [BitVec.toNat_setWidth, BitVec.extractLsb'_toNat, Nat.shiftRight_zero]
    omega
  calc (zcKey1Step key1 key0).toNat
      = ((key1 + (key0.extractLsb' 0 8).setWidth 32).toNat * 134775813 + 1) % 2 ^ 32 := toNat_mul_add _ _ _
    _ = ((key1.toNat + key0.toNat % 256) * 134775813 + 1) % 2 ^ 32 := by
      rw [BitVec.toNat_add, lowByte]
      omega

/-- Settles O54: each key's step, and the spec's example. -/
theorem keyUpdateFollowsItsOrder : Obligations.KeyUpdateFollowsItsOrder := by
  refine ⟨fun k p => ⟨rfl, toNat_zcKey1Step _ _, ?_⟩, by decide⟩
  rw [← Nat.shiftRight_eq_div_pow]
  rfl

/-- KEY0 accumulates the raw CRC of the bytes fed, whatever KEY1 and KEY2 are (R252). -/
theorem key0_foldl_zcUpdate (ps : List Byte) (k : ZcKeys) : (ps.foldl zcUpdate k).key0 = ps.foldl crcStep k.key0 := by
  induction ps generalizing k with
  | nil => rfl
  | cons p ps ih => exact ih (zcUpdate k p)

/-! ## The keystream byte (R242) -/

/-- The product of R242 is below 2^32, so that taking it on 32 bits loses nothing. -/
theorem toNat_zcKsb {k : ZcKeys} {t : Nat} (word : (k.key2.toNat ||| 2) % 65536 = t) :
    (zcKsb k).toNat = t * (t ^^^ 1) / 256 % 256 := by
  have low : t < 2 ^ 16 := by omega
  have small : t * (t ^^^ 1) < 2 ^ 32 :=
    (Nat.mul_lt_mul'' low (Nat.xor_lt_two_pow low (by decide))).trans_eq (Nat.pow_add 2 16 16).symm
  have mask : (0xFFFF : Word).toNat = 2 ^ 16 - 1 := rfl
  have masked : ((k.key2 ||| 2) &&& 0xFFFF).toNat = t := by
    rw [BitVec.toNat_and, mask, Nat.and_two_pow_sub_one_eq_mod]
    exact word
  have product : ((k.key2 ||| 2) &&& 0xFFFF) * (((k.key2 ||| 2) &&& 0xFFFF) ^^^ 1) = BitVec.ofNat 32 (t * (t ^^^ 1)) := by
    apply BitVec.eq_of_toNat_eq
    rw [BitVec.toNat_mul, BitVec.toNat_xor, masked]
    rfl
  rw [zcKsb, product, BitVec.extractLsb'_toNat, BitVec.toNat_ofNat, Nat.mod_eq_of_lt small,
    Nat.shiftRight_eq_div_pow]

theorem zcKsb_congr {k l : ZcKeys} (low : k.key2.toNat % 65536 = l.key2.toNat % 65536) : zcKsb k = zcKsb l := by
  have word : (k.key2.toNat ||| 2) % 2 ^ 16 = (l.key2.toNat ||| 2) % 2 ^ 16 := by
    rw [Nat.or_mod_two_pow, Nat.or_mod_two_pow]
    exact congrArg (· ||| 2) low
  exact BitVec.eq_of_toNat_eq ((toNat_zcKsb word).trans (toNat_zcKsb rfl).symm)

theorem exec_zcKsb (s : State) : exec .zcKsb s = .next (complete { s with res := (zcKsb s.keys).setWidth 64 }) := rfl

/-- Settles O55: the byte in integers, its dependence on KEY2[15:0], ZC_KSB's frame, and the three examples. -/
theorem keystreamByteIsThatOfKey2 : Obligations.KeystreamByteIsThatOfKey2 := by
  refine ⟨fun k => ⟨toNat_zcKsb rfl, ?halves⟩, fun k l => zcKsb_congr, fun s t run => ?frame, fun key0 key1 => ?examples⟩
  case halves => rw [Nat.xor_div_two, Nat.xor_zero]
  case frame =>
    obtain rfl := Host.Outcome.next.inj ((exec_zcKsb s).symm.trans run)
    rfl
  case examples =>
    have key2Alone (v : Word) : zcKsb ⟨key0, key1, v⟩ = zcKsb ⟨0, 0, v⟩ := zcKsb_congr rfl
    rw [key2Alone, key2Alone, key2Alone]
    decide

/-! ## The commands without a data loop (R240, R244, R245, R249, R250) -/

section KeyCommands

variable {s : State}

theorem exec_zcPwBuf_of_inside (inside : f0 s.a0 + f1 s.a0 ≤ 65536) :
    exec .zcPwBuf s
      = .next (complete { s with keys := (memRead s (f0 s.a0) (f1 s.a0)).foldl zcUpdate s.keys }) := by
  rw [exec, execZcPwBuf]
  exact checked_of_none (firstError_cons_of_pass (boundsCheck_passes inside) _ _) s _

theorem exec_zcKey_of_illegal {idx : Byte} (illegal : 2 < idx.toNat) :
    exec (.zcKey idx) s = .next { s with err := 6, sticky := s.sticky ||| 0x20 } := by
  rw [exec, execZcKey]
  exact checked_of_some (firstError_cons_of_fail (decide_eq_true illegal) .illegalCommand []) s _

end KeyCommands

/-- Settles O53: the next state of each command that writes no byte of BUF. -/
theorem cipherKeyCommandsEffects : Obligations.CipherKeyCommandsEffects := fun s =>
  ⟨rfl, fun _ => rfl, exec_zcPwBuf_of_inside, rfl, rfl, rfl, fun _ => exec_zcKey_of_illegal, exec_zcKsb s⟩

/-! ## The bytes stored and the bytes fed (R246, R247) -/

/-- What a cipher loop makes of its source bytes from keys `k`: the byte `out k x` for each source byte `x`, the keys then
fed `feed k x`. With the loop's `store` for `out` it lists the bytes stored, with `feed` for `out` the plaintext
(`memRead_zcLoop`, `keys_zcLoop`). -/
def zcBytes (out feed : ZcKeys → Byte → Byte) : ZcKeys → List Byte → List Byte
  | _, [] => []
  | k, x :: xs => out k x :: zcBytes out feed (zcUpdate k (feed k x)) xs

section Bytes

variable {out feed : ZcKeys → Byte → Byte}

@[simp] theorem zcBytes_length (k : ZcKeys) (xs : List Byte) : (zcBytes out feed k xs).length = xs.length := by
  induction xs generalizing k with
  | nil => rfl
  | cons x xs ih => exact congrArg Nat.succ (ih _)

/-- Byte `i` is made with the keys that the plaintext before it has left. -/
theorem zcBytes_getElem? (k : ZcKeys) (xs : List Byte) (i : Nat) :
    (zcBytes out feed k xs)[i]? = xs[i]?.map (out (((zcBytes feed feed k xs).take i).foldl zcUpdate k)) := by
  induction xs generalizing k i with
  | nil => rfl
  | cons x xs ih =>
    cases i with
    | zero => rfl
    | succ i => exact ih _ i

end Bytes

/-- ZC_ENC's output bytes for a plaintext (R246). -/
def zcEncrypt (k : ZcKeys) (ps : List Byte) : List Byte := zcBytes (fun k p => p ^^^ zcKsb k) (fun _ p => p) k ps

/-- ZC_DEC's output bytes for a ciphertext, which are its plaintext (R247). -/
def zcDecrypt (k : ZcKeys) (cs : List Byte) : List Byte :=
  zcBytes (fun k c => c ^^^ zcKsb k) (fun k c => c ^^^ zcKsb k) k cs

/-- ZC_ENC feeds the keys its source bytes. -/
theorem zcBytes_plain (k : ZcKeys) (ps : List Byte) : zcBytes (fun _ p => p) (fun _ p => p) k ps = ps := by
  induction ps generalizing k with
  | nil => rfl
  | cons p ps ih => exact congrArg (p :: ·) (ih _)

/-- R251 on byte strings: `(p ^ k) ^ k = p`, so both sides feed the keys the same plaintext byte at each step. -/
theorem zcDecrypt_zcEncrypt (k : ZcKeys) (ps : List Byte) : zcDecrypt k (zcEncrypt k ps) = ps := by
  induction ps generalizing k with
  | nil => rfl
  | cons p ps ih =>
    have plain : p ^^^ zcKsb k ^^^ zcKsb k = p := by rw [BitVec.xor_assoc, BitVec.xor_self, BitVec.xor_zero]
    simp only [zcDecrypt, zcEncrypt, zcBytes, plain] at ih ⊢
    rw [ih]

/-! ## The loops on BUF (R243) -/

/-- A write that goes on where a one-byte write ended is one write. -/
theorem bufByte_memWrite_memWrite_succ (s : State) (b : Nat) (x : Byte) (xs : List Byte) (a : Nat) :
    bufByte (memWrite (memWrite s b [x]) (b + 1) xs) a = bufByte (memWrite s b (x :: xs)) a := by
  rw [bufByte_memWrite, bufByte_memWrite, bufByte_memWrite, List.length_singleton, List.length_cons]
  by_cases first : a = b
  · subst first
    rw [if_neg (by omega), if_pos (by omega), if_pos (by omega), Nat.sub_self]
    rfl
  · by_cases later : b + 1 ≤ a ∧ a < b + 1 + xs.length
    · obtain ⟨i, rfl⟩ : ∃ i, a = b + 1 + i := ⟨a - (b + 1), by omega⟩
      rw [if_pos later, if_pos (by omega), Nat.add_sub_cancel_left, show b + 1 + i - b = i + 1 by omega]
      rfl
    · rw [if_neg later, if_neg (by omega), if_neg (by omega)]

theorem memRead_take (s : State) (a : Nat) {m n : Nat} (le : m ≤ n) : (memRead s a n).take m = memRead s a m := by
  obtain ⟨k, rfl⟩ := Nat.exists_eq_add_of_le le
  rw [memRead_append]
  exact List.take_left' (memRead_length s a m)

section Loops

variable {s : State} {store feed : ZcKeys → Byte → Byte} {n src dst : Nat}

/-- R243: a turn overwrites no source byte still to be read, because the byte it writes lies no higher than the byte it has
read, or beyond the source. -/
theorem memRead_later (ahead : dst ≤ src ∨ src + (n + 1) ≤ dst) (x : Byte) (k : ZcKeys) :
    memRead { memWrite s dst [x] with keys := k } (src + 1) n = memRead s (src + 1) n :=
  memRead_congr fun a low high =>
    (bufByte_memWrite s dst [x] a).trans (if_neg (by rw [List.length_singleton]; omega))

/-- A loop leaves BUF as one write of its bytes would. -/
theorem bufByte_zcLoop (ahead : dst ≤ src ∨ src + n ≤ dst) (a : Nat) :
    bufByte (zcLoop store feed n src dst s) a
      = bufByte (memWrite s dst (zcBytes store feed s.keys (memRead s src n))) a := by
  induction n generalizing src dst s with
  | zero =>
    rw [bufByte_memWrite, memRead, zcBytes, List.length_nil, if_neg (by omega)]
    rfl
  | succ n ih =>
    rw [zcLoop, ih (by omega), memRead_later ahead]
    exact bufByte_memWrite_memWrite_succ s dst _ _ a

/-- The destination of a loop holds its bytes. -/
theorem memRead_zcLoop (ahead : dst ≤ src ∨ src + n ≤ dst) :
    memRead (zcLoop store feed n src dst s) dst n = zcBytes store feed s.keys (memRead s src n) := by
  have length : (zcBytes store feed s.keys (memRead s src n)).length = n := by rw [zcBytes_length, memRead_length]
  have whole := memRead_memWrite_self s dst (zcBytes store feed s.keys (memRead s src n))
  rw [length] at whole
  exact (memRead_congr fun a _ _ => bufByte_zcLoop ahead a).trans whole

/-- A loop feeds the keys its plaintext. -/
theorem keys_zcLoop (ahead : dst ≤ src ∨ src + n ≤ dst) :
    (zcLoop store feed n src dst s).keys = (zcBytes feed feed s.keys (memRead s src n)).foldl zcUpdate s.keys := by
  induction n generalizing src dst s with
  | zero => rfl
  | succ n ih =>
    rw [zcLoop, ih (by omega), memRead_later ahead]
    rfl

/-- Byte `i` of the destination is made of byte `i` of the source. -/
theorem bufByte_zcLoop_add (ahead : dst ≤ src ∨ src + n ≤ dst) {i : Nat} (inside : i < n) :
    bufByte (zcLoop store feed n src dst s) (dst + i)
      = store (((zcBytes feed feed s.keys (memRead s src n)).take i).foldl zcUpdate s.keys) (bufByte s (src + i)) := by
  have byte := congrArg (·[i]?) (memRead_zcLoop (s := s) (store := store) (feed := feed) ahead)
  simpa only [zcBytes_getElem?, memRead_getElem?, if_pos inside, Option.map_some, Option.some.injEq] using byte

theorem memRead_zcEncLoop (ahead : dst ≤ src ∨ src + n ≤ dst) :
    memRead (zcEncLoop n src dst s) dst n = zcEncrypt s.keys (memRead s src n) := by
  rw [zcEncLoop_eq_zcLoop]
  exact memRead_zcLoop ahead

theorem keys_zcEncLoop (ahead : dst ≤ src ∨ src + n ≤ dst) :
    (zcEncLoop n src dst s).keys = (memRead s src n).foldl zcUpdate s.keys := by
  rw [zcEncLoop_eq_zcLoop, keys_zcLoop ahead, zcBytes_plain]

theorem bufByte_zcEncLoop (ahead : dst ≤ src ∨ src + n ≤ dst) {i : Nat} (inside : i < n) :
    bufByte (zcEncLoop n src dst s) (dst + i)
      = bufByte s (src + i) ^^^ zcKsb (((memRead s src n).take i).foldl zcUpdate s.keys) := by
  rw [zcEncLoop_eq_zcLoop, bufByte_zcLoop_add ahead inside, zcBytes_plain]

theorem memRead_zcDecLoop (ahead : dst ≤ src ∨ src + n ≤ dst) :
    memRead (zcDecLoop n src dst s) dst n = zcDecrypt s.keys (memRead s src n) := by
  rw [zcDecLoop_eq_zcLoop]
  exact memRead_zcLoop ahead

theorem keys_zcDecLoop (ahead : dst ≤ src ∨ src + n ≤ dst) :
    (zcDecLoop n src dst s).keys = (memRead (zcDecLoop n src dst s) dst n).foldl zcUpdate s.keys := by
  rw [memRead_zcDecLoop ahead, zcDecLoop_eq_zcLoop]
  exact keys_zcLoop ahead

theorem bufByte_zcDecLoop (ahead : dst ≤ src ∨ src + n ≤ dst) {i : Nat} (inside : i < n) :
    bufByte (zcDecLoop n src dst s) (dst + i)
      = bufByte s (src + i) ^^^ zcKsb ((memRead (zcDecLoop n src dst s) dst i).foldl zcUpdate s.keys) := by
  rw [← memRead_take _ dst inside.le, memRead_zcDecLoop ahead, zcDecLoop_eq_zcLoop]
  exact bufByte_zcLoop_add ahead inside

end Loops

/-! ## The commands past their checks (R243, R246 to R248) -/

/-- The regions of `n` bytes pass the cipher's checks: in bounds, and equal or disjoint (R243). -/
structure ZcRegionsFit (s : State) (n : Nat) : Prop where
  source : f0 s.a0 + n ≤ 65536
  dest : f2 s.a0 + n ≤ 65536
  apart : f0 s.a0 = f2 s.a0 ∨ ∀ a, ¬ ((Region.mk (f0 s.a0) n).has a ∧ (Region.mk (f2 s.a0) n).has a)

theorem firstError_zcChecks_none_iff (s : State) (n : Nat) : firstError (zcChecks s n) = none ↔ ZcRegionsFit s n := by
  have apart : (decide (f0 s.a0 ≠ f2 s.a0) && regionsOverlap ⟨f0 s.a0, n⟩ ⟨f2 s.a0, n⟩) = false ↔
      f0 s.a0 = f2 s.a0 ∨ ∀ a, ¬ ((Region.mk (f0 s.a0) n).has a ∧ (Region.mk (f2 s.a0) n).has a) := by
    rw [Bool.and_eq_false_iff, decide_eq_false_iff_not, not_ne_iff, ← Bool.not_eq_true, regionsOverlap_iff, not_exists]
    rfl
  simp only [firstError_none_iff, zcChecks, List.forall_mem_cons, Bool.not_eq_false', regionInBounds_iff, apart]
  exact ⟨fun ⟨source, dest, apart, _⟩ => ⟨source, dest, apart⟩,
    fun ⟨source, dest, apart⟩ => ⟨source, dest, apart, nofun⟩⟩

/-- The cipher's checks name one error (R246, R248). -/
theorem zcChecks_error {s : State} {n : Nat} {e : Err} (first : firstError (zcChecks s n) = some e) : e = .bounds := by
  have fails : ∃ c ∈ zcChecks s n, c.1 = true := by
    by_contra passes
    have passed : firstError (zcChecks s n) = none :=
      (firstError_none_iff _).mpr fun c listed => Bool.eq_false_of_not_eq_true fun fail => passes ⟨c, listed, fail⟩
    exact absurd (passed.symm.trans first) nofun
  have bounds : firstError (zcChecks s n) = some .bounds := firstError_eq_some_of_exists (by simp [zcChecks]) fails
  exact Option.some.inj (first.symm.trans bounds)

section Commands

variable {s t : State} {n : Nat} {check : Byte}

/-- Equal or disjoint regions: no byte is written before it is read. -/
theorem ZcRegionsFit.ahead (fits : ZcRegionsFit s n) : f2 s.a0 ≤ f0 s.a0 ∨ f0 s.a0 + n ≤ f2 s.a0 := by
  obtain same | apart := fits.apart
  · exact .inl same.ge
  · have first := apart (f2 s.a0)
    simp only [Region.has] at first
    omega

theorem exec_zcEnc_of_fits (fits : ZcRegionsFit s (f1 s.a0)) :
    exec .zcEnc s = .next (complete (zcEncLoop (f1 s.a0) (f0 s.a0) (f2 s.a0) s)) := by
  rw [exec, execZcEnc]
  exact checked_of_none ((firstError_zcChecks_none_iff s _).mpr fits) s _

theorem exec_zcDec_of_fits (fits : ZcRegionsFit s (f1 s.a0)) :
    exec .zcDec s = .next (complete (zcDecLoop (f1 s.a0) (f0 s.a0) (f2 s.a0) s)) := by
  rw [exec, execZcDec]
  exact checked_of_none ((firstError_zcChecks_none_iff s _).mpr fits) s _

theorem zcEnc_succeeds (run : exec .zcEnc s = .next t) (good : t.err = 0) :
    ZcRegionsFit s (f1 s.a0) ∧ t = complete (zcEncLoop (f1 s.a0) (f0 s.a0) (f2 s.a0) s) := by
  rw [exec, execZcEnc] at run
  obtain ⟨passed, rfl⟩ := checked_succeeds run good
  exact ⟨(firstError_zcChecks_none_iff s _).mp passed, rfl⟩

theorem zcDec_succeeds (run : exec .zcDec s = .next t) (good : t.err = 0) :
    ZcRegionsFit s (f1 s.a0) ∧ t = complete (zcDecLoop (f1 s.a0) (f0 s.a0) (f2 s.a0) s) := by
  rw [exec, execZcDec] at run
  obtain ⟨passed, rfl⟩ := checked_succeeds run good
  exact ⟨(firstError_zcChecks_none_iff s _).mp passed, rfl⟩

/-- What ZC_HDRCHK ends with past its checks (R248): ZC_DEC's loop over the header, and its last byte compared. -/
def zcHdrChkEnd (check : Byte) (s : State) : State :=
  let t := zcDecLoop 12 (f0 s.a0) (f2 s.a0) s
  let last := bufByte t (f2 s.a0 + 11)
  if last = check then complete { t with res := last.setWidth 64 }
  else raiseErr .integrity { t with res := last.setWidth 64 }

theorem exec_zcHdrChk (check : Byte) (s : State) :
    exec (.zcHdrChk check) s = checked (zcChecks s 12) s (zcHdrChkEnd check) := rfl

theorem exec_zcHdrChk_of_fits (fits : ZcRegionsFit s 12) (check : Byte) :
    exec (.zcHdrChk check) s = .next (zcHdrChkEnd check s) := by
  rw [exec_zcHdrChk]
  exact checked_of_none ((firstError_zcChecks_none_iff s 12).mpr fits) s _

/-- Both ends of ZC_HDRCHK keep the decrypted bytes and the keys. -/
theorem zcHdrChkEnd_eq {u : State} (loop : zcDecLoop 12 (f0 s.a0) (f2 s.a0) s = u) {last : Byte}
    (read : bufByte u (f2 s.a0 + 11) = last) :
    zcHdrChkEnd check s = { s with
      mem := u.mem, keys := u.keys, res := last.setWidth 64, err := if last = check then 0 else 2,
      sticky := if last = check then s.sticky else s.sticky ||| 0x02 } := by
  have frame := zcDecLoop_frame 12 (f0 s.a0) (f2 s.a0) s
  rw [loop] at frame
  rw [zcHdrChkEnd, loop, read]
  by_cases same : last = check
  · rw [if_pos same, if_pos same, if_pos same]
    conv_lhs => rw [frame]
    rfl
  · rw [if_neg same, if_neg same, if_neg same]
    conv_lhs => rw [frame]
    rfl

/-- The ZC_HDRCHKs that fed their header (R248). -/
theorem zcHdrChk_feeds (run : exec (.zcHdrChk check) s = .next t) (good : t.err = 0 ∨ t.err = errCode .integrity) :
    ZcRegionsFit s 12 ∧ t = zcHdrChkEnd check s := by
  rw [exec_zcHdrChk] at run
  obtain ⟨e, first, raised⟩ | ⟨passed, ended⟩ := checked_next run
  · rw [raised, raiseErr_err, zcChecks_error first] at good
    exact absurd good (by decide)
  · exact ⟨(firstError_zcChecks_none_iff s 12).mp passed, ended⟩

/-- ZC_HDRCHK leaves BUF as ZC_DEC's loop does. -/
theorem bufByte_zcHdrChkEnd {u : State} (loop : zcDecLoop 12 (f0 s.a0) (f2 s.a0) s = u) (a : Nat) :
    bufByte (zcHdrChkEnd check s) a = bufByte u a := by
  have frame := zcDecLoop_frame 12 (f0 s.a0) (f2 s.a0) s
  rw [loop] at frame
  rw [zcHdrChkEnd_eq loop rfl]
  refine bufByte_congr ?mem ?resets a
  case mem => rfl
  case resets => exact (congrArg State.resets frame).symm

theorem memRead_zcHdrChkEnd {u : State} (loop : zcDecLoop 12 (f0 s.a0) (f2 s.a0) s = u) (a m : Nat) :
    memRead (zcHdrChkEnd check s) a m = memRead u a m :=
  memRead_congr fun x _ _ => bufByte_zcHdrChkEnd loop x

/-! ## What a command feeds the keys (R252) -/

theorem keys_of_zcPwByte {b : Byte} (run : exec (.zcPwByte b) s = .next t) : t.keys = zcUpdate s.keys b :=
  congrArg State.keys (Host.Outcome.next.inj run).symm

theorem keys_of_zcPwBuf (run : exec .zcPwBuf s = .next t) (good : t.err = 0) :
    t.keys = (memRead s (f0 s.a0) (f1 s.a0)).foldl zcUpdate s.keys :=
  keys_takeBytes.region run good

theorem keys_of_zcEnc (run : exec .zcEnc s = .next t) (good : t.err = 0) :
    t.keys = (memRead s (f0 s.a0) (f1 s.a0)).foldl zcUpdate s.keys := by
  obtain ⟨fits, rfl⟩ := zcEnc_succeeds run good
  exact keys_zcEncLoop fits.ahead

theorem keys_of_zcDec (run : exec .zcDec s = .next t) (good : t.err = 0) :
    t.keys = (memRead t (f2 s.a0) (f1 s.a0)).foldl zcUpdate s.keys := by
  obtain ⟨fits, rfl⟩ := zcDec_succeeds run good
  rw [memRead_complete]
  exact keys_zcDecLoop fits.ahead

theorem keys_of_zcHdrChk (run : exec (.zcHdrChk check) s = .next t) (good : t.err = 0 ∨ t.err = errCode .integrity) :
    t.keys = (memRead t (f2 s.a0) 12).foldl zcUpdate s.keys := by
  obtain ⟨fits, ended⟩ := zcHdrChk_feeds run good
  have keys := keys_zcDecLoop (s := s) fits.ahead
  generalize loop : zcDecLoop 12 (f0 s.a0) (f2 s.a0) s = u at keys
  rw [ended, memRead_zcHdrChkEnd loop, ← keys, zcHdrChkEnd_eq loop rfl]

/-! ## What ZC_ENC and ZC_DEC store (R246, R247) -/

theorem memRead_of_zcEnc (run : exec .zcEnc s = .next t) (good : t.err = 0) :
    memRead t (f2 s.a0) (f1 s.a0) = zcEncrypt s.keys (memRead s (f0 s.a0) (f1 s.a0)) := by
  obtain ⟨fits, rfl⟩ := zcEnc_succeeds run good
  rw [memRead_complete]
  exact memRead_zcEncLoop fits.ahead

theorem memRead_of_zcDec (run : exec .zcDec s = .next t) (good : t.err = 0) :
    memRead t (f2 s.a0) (f1 s.a0) = zcDecrypt s.keys (memRead s (f0 s.a0) (f1 s.a0)) := by
  obtain ⟨fits, rfl⟩ := zcDec_succeeds run good
  rw [memRead_complete]
  exact memRead_zcDecLoop fits.ahead

end Commands

/-- Settles O56: past the checks, ZC_ENC's loop byte by byte, and its frame. -/
theorem zcEncEncryptsTheRegion : Obligations.ZcEncEncryptsTheRegion := by
  intro s n plain source dest apart
  have fits : ZcRegionsFit s n := ⟨source, dest, apart⟩
  refine ⟨_, exec_zcEnc_of_fits fits, ?frame, fun i inside => bufByte_zcEncLoop fits.ahead inside,
    zcEncLoop_outside n (f0 s.a0) (f2 s.a0) s⟩
  case frame =>
    rw [← keys_zcEncLoop fits.ahead]
    exact congrArg complete (zcEncLoop_frame n (f0 s.a0) (f2 s.a0) s)

/-- Settles O57: past the checks, ZC_DEC's loop byte by byte, and its frame. -/
theorem zcDecDecryptsTheRegion : Obligations.ZcDecDecryptsTheRegion := by
  intro s n source dest apart
  have fits : ZcRegionsFit s n := ⟨source, dest, apart⟩
  refine ⟨_, exec_zcDec_of_fits fits, ?frame, fun i inside => ?byte, zcDecLoop_outside n (f0 s.a0) (f2 s.a0) s⟩
  case frame =>
    rw [memRead_complete, ← keys_zcDecLoop fits.ahead]
    exact congrArg complete (zcDecLoop_frame n (f0 s.a0) (f2 s.a0) s)
  case byte =>
    rw [memRead_complete]
    exact bufByte_zcDecLoop fits.ahead inside

/-- Settles O58: ZC_HDRCHK keeps what ZC_DEC's loop leaves, in both of its ends. -/
theorem zcHdrChkDecryptsAndChecksTheHeader : Obligations.ZcHdrChkDecryptsAndChecksTheHeader := by
  intro s check source dest apart
  have fits : ZcRegionsFit s 12 := ⟨source, dest, apart⟩
  have run := exec_zcHdrChk_of_fits fits check
  have keys := keys_zcDecLoop (s := s) fits.ahead
  have byte := fun i inside => bufByte_zcDecLoop (s := s) fits.ahead (i := i) inside
  have outside := zcDecLoop_outside 12 (f0 s.a0) (f2 s.a0) s
  generalize loop : zcDecLoop 12 (f0 s.a0) (f2 s.a0) s = u at keys byte outside
  have bytes (a : Nat) : bufByte (zcHdrChkEnd check s) a = bufByte u a := bufByte_zcHdrChkEnd loop a
  refine ⟨zcHdrChkEnd check s, run, ?_⟩
  simp only [bytes, memRead_zcHdrChkEnd loop, ← keys]
  rw [zcHdrChkEnd_eq loop rfl]
  exact ⟨rfl, byte, outside, rfl, fun same => ⟨if_pos same, if_pos same⟩, fun differ => ⟨if_neg differ, if_neg differ⟩⟩

/-! ## The laws (R251, R252) -/

/-- Settles O59: ZC_DEC reads the bytes that ZC_ENC stored, and decryption inverts encryption; both feed the keys the
plaintext. -/
theorem zcDecInvertsZcEnc : Obligations.ZcDecInvertsZcEnc := by
  intro s t u x enc good source length dec good'
  have cipher : memRead t (f0 x) (f1 x) = zcEncrypt s.keys (memRead s (f0 s.a0) (f1 s.a0)) := by
    rw [source, length]
    exact memRead_of_zcEnc enc good
  have decrypted := memRead_of_zcDec dec good'
  have keys := keys_of_zcDec dec good'
  have plain : memRead u (f2 x) (f1 x) = memRead s (f0 s.a0) (f1 s.a0) :=
    calc memRead u (f2 x) (f1 x)
        = zcDecrypt s.keys (memRead { t with a0 := x, keys := s.keys } (f0 x) (f1 x)) := decrypted
      _ = zcDecrypt s.keys (memRead t (f0 x) (f1 x)) := congrArg _ (memRead_congr fun _ _ _ => bufByte_congr rfl rfl _)
      _ = memRead s (f0 s.a0) (f1 s.a0) := by rw [cipher, zcDecrypt_zcEncrypt]
  refine ⟨plain, ?_⟩
  calc u.keys
      = (memRead u (f2 x) (f1 x)).foldl zcUpdate s.keys := keys
    _ = (memRead s (f0 s.a0) (f1 s.a0)).foldl zcUpdate s.keys := by rw [plain]
    _ = t.keys := (keys_of_zcEnc enc good).symm

/-- Whatever commands feed it, a plaintext leaves the keys as feeding it byte by byte does. -/
theorem zcFeed_eq_foldl {m : List Byte} {k l : ZcKeys} (feed : ZcFeed k m l) : l = m.foldl zcUpdate k := by
  induction feed with
  | done k => rfl
  | pwByte hk run _ ih => rw [ih, keys_of_zcPwByte run, hk, List.foldl_cons]
  | pwBuf hk run good _ ih => rw [ih, keys_of_zcPwBuf run good, hk, List.foldl_append]
  | enc hk run good _ ih => rw [ih, keys_of_zcEnc run good, hk, List.foldl_append]
  | dec hk run good _ ih => rw [ih, keys_of_zcDec run good, hk, List.foldl_append]
  | hdrChk hk run good _ ih => rw [ih, keys_of_zcHdrChk run good, hk, List.foldl_append]

/-- Settles O60: KEY0 and CRC_REG start alike and take the same steps. -/
theorem key0IsARawCrc : Obligations.Key0IsARawCrc := by
  intro s r c d m k y init feed seed load crcFeed
  obtain rfl := Host.Outcome.next.inj init
  obtain rfl := Host.Outcome.next.inj load
  have crcSeed : low32 c.a0 = 0x12345678 := by
    rw [low32_eq_ofNat, seed]
    rfl
  calc k.key0
      = m.foldl crcStep 0x12345678 := by rw [zcFeed_eq_foldl feed, key0_foldl_zcUpdate]; rfl
    _ = m.foldl crcStep (low32 c.a0) := by rw [crcSeed]
    _ = y := (feed_eq_foldl crc_takesBytes crcFeed).symm

end Sys2Proof.Proofs
end

-- ==== Proofs: the exceptions family (spec/60_exceptions.md) ====
section
/-! PROOFS. How a command ends (spec/60_exceptions.md): the step that executes it, and its outcome in STATUS with what an
error of the check phase leaves unchanged, said once (`CommandOutcome`) and shown command by command. -/

namespace Sys2Proof.Proofs

open Sys2Proof Sys2Proof.Machine

/-! ## Execution and completion (R260, R265) -/

/-- Settles O5: the step hands the word to `issue`, which executes what it decodes to. -/
theorem stepExecutesTheDecodedCommand : Obligations.StepExecutesTheDecodedCommand := by
  intro s w rest i next decoded
  rw [step_cmdWrite next, issue, decoded]

/-- Settles O15: a command without checks answers a next state, and so does the check phase of every other. -/
theorem everyCommandCompletes : Obligations.EveryCommandCompletes := exec_next

/-! ## How a command ends (R264, R266, R267) -/

/-- `CommandOutcome i s t`: the command `i` can end in `t` from the state `s`. A failed check raises its error on `s` itself; an
error of the data phase may follow updates, but its code is at most 4 unless LZ_COMP's destination is too small for the
encoding (R200). `exec_outcome` says that every command ends in one of these ways. -/
inductive CommandOutcome (i : Instr) (s : State) : State → Prop where
  | completes {t : State} (keeps : t.sticky = s.sticky) (notClrErr : i ≠ .clrErr) (notSreset : i ≠ .sreset) :
      CommandOutcome i s (complete t)
  | clears {t : State} (own : i = .clrErr ∨ i = .sreset) (cleared : t.sticky = 0) : CommandOutcome i s (complete t)
  | checkFails (e : Err) : CommandOutcome i s (raiseErr e s)
  | dataFails {t : State} {e : Err} (data : errCode e ≤ 4) (keeps : t.sticky = s.sticky) :
      CommandOutcome i s (raiseErr e t)
  | destinationFull (own : i = .lzComp) (sizes : DWord) : CommandOutcome i s (raiseErr .bounds { s with res := sizes })

theorem next_outcome {i : Instr} {s t u : State} (run : (.next u : Result) = .next t) (ends : CommandOutcome i s u) :
    CommandOutcome i s t := by
  obtain rfl := Host.Outcome.next.inj run
  exact ends

/-- R266: a command ends with a failed check's error, or as its operation does. -/
theorem checked_outcome {i : Instr} {checks : List (Bool × Err)} {s t : State} {op : State → State}
    (run : checked checks s op = .next t) (ends : CommandOutcome i s (op s)) : CommandOutcome i s t := by
  obtain ⟨e, -, rfl⟩ | ⟨-, rfl⟩ := checked_next run
  · exact .checkFails e
  · exact ends

section Commands

variable {s t : State}

/-- R112: copies that differ are a FormatError. -/
theorem scDec_outcome {td : FieldDesc} {off : Half} (run : exec (.scDec td off) s = .next t) :
    CommandOutcome (.scDec td off) s t := by
  rw [exec_scDec] at run
  refine checked_outcome run ?_
  cases decodeField s td (fieldAddr s off) with
  | some u => exact .completes rfl nofun nofun
  | none => exact .dataFails (e := .format) (by decide) rfl

/-- R178: a CRC that differs is an IntegrityError. -/
theorem crcCheck_outcome (run : exec .crcCheck s = .next t) : CommandOutcome .crcCheck s t := by
  by_cases same : crcFinal s.crcReg = low32 s.a0
  · rw [exec_crcCheck_of_match same] at run
    exact next_outcome run (.completes rfl nofun nofun)
  · rw [exec_crcCheck_of_mismatch same] at run
    exact next_outcome run (.dataFails (e := .integrity) (by decide) rfl)

/-- R200: an encoding longer than the destination leaves its sizes in RES. -/
theorem lzComp_outcome (run : exec .lzComp s = .next t) : CommandOutcome .lzComp s t := by
  rw [exec_lzComp] at run
  refine checked_outcome run ?_
  by_cases tooLong : f3 s.a0 < packedLen (lzCompBits s).length
  · rw [lzCompEnd_of_tooLong tooLong]
    exact .destinationFull rfl _
  · rw [lzCompEnd_of_room (Nat.le_of_not_lt tooLong)]
    exact .completes rfl nofun nofun

/-- R201: a token that the stream ends in is a TruncatedInputError, and one that reaches too far a CodecError. -/
theorem lzDecomp_outcome (run : exec .lzDecomp s = .next t) : CommandOutcome .lzDecomp s t := by
  rw [exec, execLzDecomp] at run
  refine checked_outcome run ?_
  have ends : LzEndFits _ _ _ (lzDecode (cfgParams s.cfg) (regionRead s (lzSource s)) (f3 s.a0)) := lzDecompRun_fits s
  cases ending : lzDecode (cfgParams s.cfg) (regionRead s (lzSource s)) (f3 s.a0) with
  | ok pos out => exact .completes rfl nofun nofun
  | failed e start out =>
    rw [ending] at ends
    obtain ⟨⟨rfl, -⟩ | ⟨rfl, -⟩, -⟩ := ends
    · exact .dataFails (e := .truncatedInput) (by decide) rfl
    · exact .dataFails (e := .codec) (by decide) rfl

/-- R222: a table that is no complete code is a CodecError. -/
theorem hufLoad_outcome (run : exec .hufLoad s = .next t) : CommandOutcome .hufLoad s t := by
  rw [exec, execHufLoad] at run
  refine checked_outcome run ?_
  dsimp only
  split
  · exact .completes rfl nofun nofun
  · exact .dataFails (e := .codec) (by decide) rfl

/-- R223: a stream that ends inside a code is a TruncatedInputError. -/
theorem hufDecode_outcome (run : exec .hufDecode s = .next t) : CommandOutcome .hufDecode s t := by
  rw [exec, execHufDecode] at run
  refine checked_outcome run ?_
  dsimp only
  split
  · exact .completes rfl nofun nofun
  · exact .dataFails (e := .truncatedInput) (by decide) rfl

theorem zcEncLoop_sticky (n src dst : Nat) (s : State) : (zcEncLoop n src dst s).sticky = s.sticky := by
  rw [zcEncLoop_frame]

theorem zcDecLoop_sticky (n src dst : Nat) (s : State) : (zcDecLoop n src dst s).sticky = s.sticky := by
  rw [zcDecLoop_frame]

/-- R248: a last header byte that differs is an IntegrityError. -/
theorem zcHdrChk_outcome {check : Byte} (run : exec (.zcHdrChk check) s = .next t) :
    CommandOutcome (.zcHdrChk check) s t := by
  have keeps := zcDecLoop_sticky 12 (f0 s.a0) (f2 s.a0) s
  rw [exec_zcHdrChk] at run
  refine checked_outcome run ?_
  unfold zcHdrChkEnd
  dsimp only
  split
  · exact .completes keeps nofun nofun
  · exact .dataFails (e := .integrity) (by decide) keeps

end Commands

/-- Every command ends in one of the ways of `CommandOutcome`. -/
theorem exec_outcome {i : Instr} {s t : State} (run : exec i s = .next t) : CommandOutcome i s t := by
  cases i with
  | clrErr => exact next_outcome run (.clears (.inl rfl) rfl)
  | sreset => exact next_outcome run (.clears (.inr rfl) rfl)
  | nop | getCfg | ident | md5Reset | sha1Reset | crcInit | crcLoad | crcByte | crcRead | crcRaw | zcInit | zcPwByte
  | zcKsb => exact next_outcome run (.completes rfl nofun nofun)
  | setCfg | scEnc | scAdec | scAenc | hufCode =>
    dsimp only [exec, execSetCfg, execScEnc, execScAdec, execScAenc, execHufCode] at run
    exact checked_outcome run (.completes rfl nofun nofun)
  | md5Byte | md5Buf | md5Final | sha1Byte | sha1Buf | sha1Final =>
    dsimp only [exec, execMd5Byte, execMd5Buf, execMd5Final, execSha1Byte, execSha1Buf, execSha1Final] at run
    exact checked_outcome run (.completes rfl nofun nofun)
  | crcBuf | zcPwBuf | zcKey =>
    dsimp only [exec, execCrcBuf, execZcPwBuf, execZcKey] at run
    exact checked_outcome run (.completes rfl nofun nofun)
  | zcEnc =>
    rw [exec, execZcEnc] at run
    exact checked_outcome run (.completes (zcEncLoop_sticky _ _ _ s) nofun nofun)
  | zcDec =>
    rw [exec, execZcDec] at run
    exact checked_outcome run (.completes (zcDecLoop_sticky _ _ _ s) nofun nofun)
  | scDec td off => exact scDec_outcome run
  | crcCheck => exact crcCheck_outcome run
  | lzComp => exact lzComp_outcome run
  | lzDecomp => exact lzDecomp_outcome run
  | hufLoad => exact hufLoad_outcome run
  | hufDecode => exact hufDecode_outcome run
  | zcHdrChk check => exact zcHdrChk_outcome run

/-! ## ERR and STICKY (R264, R267) -/

/-- R265, R267: bit `k - 1` of STICKY stands for code `k`. -/
theorem stickyBit_eq_two_pow (e : Err) : stickyBit e = BitVec.ofNat 7 (2 ^ ((errCode e).toNat - 1)) := by
  cases e <;> rfl

/-- Raising an error over a STICKY that was kept shows one of the codes 1 to 7, with its bit (R264, R265). -/
theorem raiseErr_recorded (e : Err) {s t : State} (keeps : t.sticky = s.sticky) :
    ∃ k : Nat, 1 ≤ k ∧ k ≤ 7 ∧ (raiseErr e t).err = BitVec.ofNat 4 k
      ∧ (raiseErr e t).sticky = s.sticky ||| BitVec.ofNat 7 (2 ^ (k - 1)) := by
  have pos : 1 ≤ (errCode e).toNat := by cases e <;> decide
  refine ⟨(errCode e).toNat, pos, errCode_le_seven e, ?_, ?_⟩
  · rw [raiseErr_err, BitVec.ofNat_toNat, BitVec.setWidth_eq]
  · rw [raiseErr_sticky, keeps, stickyBit_eq_two_pow]

/-- Settles O16: each way a command can end, with what it leaves in ERR and STICKY. -/
theorem everyCommandRecordsItsOutcome : Obligations.EveryCommandRecordsItsOutcome := by
  intro i s t run
  cases exec_outcome run with
  | completes keeps notClrErr notSreset => exact .inl ⟨rfl, keeps, notClrErr, notSreset⟩
  | clears own cleared => exact .inr (.inl ⟨rfl, cleared, own⟩)
  | checkFails e => exact .inr (.inr (raiseErr_recorded e rfl))
  | dataFails _ keeps => exact .inr (.inr (raiseErr_recorded _ keeps))
  | destinationFull _ sizes => exact .inr (.inr (raiseErr_recorded .bounds rfl))

/-! ## The errors of the check phase (R266) -/

/-- A command that shows an error with a code above 4 has raised it and done nothing else, unless it is LZ_COMP, which has
written RES. -/
theorem CommandOutcome.raised_at_check {i : Instr} {s t : State} (outcome : CommandOutcome i s t) {e : Err}
    (above : 4 < errCode e) (shows : t.err = errCode e) :
    t = raiseErr e s ∨ i = .lzComp ∧ e = .bounds ∧ t = raiseErr .bounds { s with res := t.res } := by
  cases outcome with
  | completes | clears => exact absurd shows.symm (errCode_ne_zero e)
  | checkFails e' => exact .inl (congrArg (raiseErr · s) (errCode_injective shows))
  | dataFails data =>
    rw [raiseErr_err] at shows
    exact absurd above (BitVec.not_lt.mpr (shows ▸ data))
  | destinationFull own sizes => exact .inr ⟨own, (errCode_injective (e := .bounds) shows).symm, rfl⟩

/-- Settles O17: the three errors with a code above 4. -/
theorem checkErrorsChangeOnlyStatus : Obligations.CheckErrorsChangeOnlyStatus := by
  intro i s t run
  have outcome := exec_outcome run
  refine ⟨fun illegal => ?_, fun unsupported => ?_, fun bounds => ?_, fun bounds other => ?_⟩
  · obtain only | ⟨-, differ, -⟩ := outcome.raised_at_check (e := .illegalCommand) (by decide) illegal
    · exact only
    · exact nomatch differ
  · obtain only | ⟨-, differ, -⟩ := outcome.raised_at_check (e := .unsupportedFeature) (by decide) unsupported
    · exact only
    · exact nomatch differ
  · obtain rfl | ⟨-, -, sized⟩ := outcome.raised_at_check (e := .bounds) (by decide) bounds
    · rfl
    · exact sized
  · obtain rfl | ⟨own, -, -⟩ := outcome.raised_at_check (e := .bounds) (by decide) bounds
    · rfl
    · exact absurd own other

end Sys2Proof.Proofs
end
